-- ==== Sys2Proof/Word.lean ====
section
/-! DEFINITION. The word types of the machine: bytes, 64-bit words (general registers, addresses, control
registers), opmask values and vector registers. -/

namespace Sys2Proof

/-- The addressable unit of memory and of instruction encodings (R50, R80). -/
abbrev Byte := BitVec 8

/-- A 64-bit general register or address (R24, R25); the flags, the control registers and the segment bases are held
in one too, a width the spec does not give for them (PRESUMED, log entry 32). -/
abbrev Word := BitVec 64

/-- One packed element, 32 bits (R7: `DEST[i+31:i]` with `i = 32 j`). -/
abbrev Elem := BitVec 32

/-- A vector register of `MAXVL = 512` bits: element `j` is bits `32 j + 31 : 32 j` (R5, R20). Every slice the
spec names (127:0, 255:0, MAXVL-1:VL, i+31:i) is a whole number of elements. -/
abbrev Vec := Vector Elem 16

/-- An opmask register, `KW = 64` bits (R5, R23; log entry 9). -/
abbrev KMask := BitVec 64

/-- The number of a vector register (R21: at most 0 to 31). -/
abbrev VNum := BitVec 5

/-- The number of a general register (R24: 0 to 15). -/
abbrev GNum := BitVec 4

end Sys2Proof
end

