-- ==== Sys2Proof/Syntax.lean ====
section
/-! DEFINITION. The instructions as terms: one constructor of Instr per row of spec/opcode_table.json (18 rows:
the two legacy forms, the four VEX forms in both spellings, the six EVEX forms, and the two rows for the
reserved EVEX length). A term keeps every bit of the encoding that the row leaves free, the fields whose wrong
value is a #UD of the form among them (R105: "the mask ... leave[s] out the fields whose wrong value is a #UD
of this form"), so that encoding and decoding lose nothing and the meaning raises the #UD. -/

namespace Sys2Proof

/-- The two admitted execution modes (R5 `MODE`). -/
inductive Mode where
  | m64
  | m32
  deriving DecidableEq, Repr

/-- The legacy prefix bytes of R83. -/
inductive LegacyPrefix where
  /-- `26`, ES override -/
  | es
  /-- `2E`, CS override -/
  | cs
  /-- `36`, SS override -/
  | ss
  /-- `3E`, DS override -/
  | ds
  /-- `64`, FS override -/
  | fs
  /-- `65`, GS override -/
  | gs
  /-- `66`, operand-size override -/
  | opSize
  /-- `67`, address-size override -/
  | addrSize
  /-- `F2`, REPNE -/
  | repne
  /-- `F3`, REP -/
  | rep
  /-- `F0`, LOCK -/
  | lock
  deriving DecidableEq, Repr

/-- A REX byte `0100WRXB` (R84). -/
structure Rex where
  w : Bool
  r : Bool
  x : Bool
  b : Bool
  deriving DecidableEq, Repr

/-- The free fields of the 2-byte VEX spelling (R85). `r` is the true value; `vvvv` is as stored. -/
structure Vex2 where
  r : Bool
  vvvv : BitVec 4
  deriving DecidableEq, Repr

/-- The free fields of the 3-byte VEX spelling (R86). `r x b` are the true values; `vvvv` is as stored. -/
structure Vex3 where
  r : Bool
  x : Bool
  b : Bool
  w : Bool
  vvvv : BitVec 4
  deriving DecidableEq, Repr

/-- The free fields of the EVEX bytes (R89). `r x b r'` (here `rHi`) are the true values; `vvvv`, the fixed bit
`P1[2]` (`one`) and the `V'` bit (`vHi`) are as stored; `bc` is the bit the spec calls `b` of `P2`. -/
structure Evex where
  r : Bool
  x : Bool
  b : Bool
  rHi : Bool
  w : Bool
  vvvv : BitVec 4
  one : Bool
  z : Bool
  bc : Bool
  vHi : Bool
  aaa : BitVec 3
  deriving DecidableEq, Repr

/-- The displacement that `mod` 00, 01 or 10 calls for (R94, R98), unscaled and not yet extended. -/
inductive Disp where
  | none
  | d8 (d : BitVec 8)
  | d32 (d : BitVec 32)
  deriving DecidableEq, Repr

/-- The memory operands that ModRM and SIB can name (R94, R97). -/
inductive MemForm where
  /-- no SIB byte: base register `8 B + rm`; `rm` is not 100, and not 101 without a displacement -/
  | base (rm : BitVec 3) (d : Disp)
  /-- a SIB byte with a base register; `base` is not 101 without a displacement -/
  | sib (scale : BitVec 2) (index base : BitVec 3) (d : Disp)
  /-- `mod = 00`, SIB with `base = 101`: no base register, a disp32 -/
  | sibNoBase (scale : BitVec 2) (index : BitVec 3) (d : BitVec 32)
  /-- `mod = 00`, `rm = 101`: RIP-relative in M64, absolute in M32 -/
  | dispOnly (d : BitVec 32)
  deriving DecidableEq, Repr

/-- The `ModRM:r/m` operand (R92): a register (`mod = 11`) or memory. -/
inductive RegMem where
  | reg (rm : BitVec 3)
  | mem (m : MemForm)
  deriving DecidableEq, Repr

/-- The rows of the opcode table. `ps` are the legacy prefix bytes in their order, `rex` a REX byte after them,
`reg` the three bits `ModRM.reg`, `rm` the r/m operand. -/
inductive Instr where
  /-- row 1, `MOVUPS xmm1, xmm2/m128` (R141) -/
  | movupsLoad (ps : List LegacyPrefix) (rex : Option Rex) (reg : BitVec 3) (rm : RegMem)
  /-- row 2, `MOVUPS xmm2/m128, xmm1` (R142) -/
  | movupsStore (ps : List LegacyPrefix) (rex : Option Rex) (reg : BitVec 3) (rm : RegMem)
  /-- row 3, `VEX.128 VMOVUPS xmm1, xmm2/m128`, 2-byte spelling (R151) -/
  | vmovupsXmmLoadVex2 (ps : List LegacyPrefix) (rex : Option Rex) (vex : Vex2) (reg : BitVec 3) (rm : RegMem)
  /-- row 3, 3-byte spelling (R151) -/
  | vmovupsXmmLoadVex3 (ps : List LegacyPrefix) (rex : Option Rex) (vex : Vex3) (reg : BitVec 3) (rm : RegMem)
  /-- row 4, `VEX.128 VMOVUPS xmm2/m128, xmm1`, 2-byte spelling (R152) -/
  | vmovupsXmmStoreVex2 (ps : List LegacyPrefix) (rex : Option Rex) (vex : Vex2) (reg : BitVec 3) (rm : RegMem)
  /-- row 4, 3-byte spelling (R152) -/
  | vmovupsXmmStoreVex3 (ps : List LegacyPrefix) (rex : Option Rex) (vex : Vex3) (reg : BitVec 3) (rm : RegMem)
  /-- row 5, `VEX.256 VMOVUPS ymm1, ymm2/m256`, 2-byte spelling (R153) -/
  | vmovupsYmmLoadVex2 (ps : List LegacyPrefix) (rex : Option Rex) (vex : Vex2) (reg : BitVec 3) (rm : RegMem)
  /-- row 5, 3-byte spelling (R153) -/
  | vmovupsYmmLoadVex3 (ps : List LegacyPrefix) (rex : Option Rex) (vex : Vex3) (reg : BitVec 3) (rm : RegMem)
  /-- row 6, `VEX.256 VMOVUPS ymm2/m256, ymm1`, 2-byte spelling (R154) -/
  | vmovupsYmmStoreVex2 (ps : List LegacyPrefix) (rex : Option Rex) (vex : Vex2) (reg : BitVec 3) (rm : RegMem)
  /-- row 6, 3-byte spelling (R154) -/
  | vmovupsYmmStoreVex3 (ps : List LegacyPrefix) (rex : Option Rex) (vex : Vex3) (reg : BitVec 3) (rm : RegMem)
  /-- row 7, `EVEX.128 VMOVUPS xmm1 {k1}{z}, xmm2/m128` (R172) -/
  | vmovupsXmmLoadEvex (ps : List LegacyPrefix) (rex : Option Rex) (evex : Evex) (reg : BitVec 3) (rm : RegMem)
  /-- row 8, `EVEX.256 VMOVUPS ymm1 {k1}{z}, ymm2/m256` (R173) -/
  | vmovupsYmmLoadEvex (ps : List LegacyPrefix) (rex : Option Rex) (evex : Evex) (reg : BitVec 3) (rm : RegMem)
  /-- row 9, `EVEX.512 VMOVUPS zmm1 {k1}{z}, zmm2/m512` (R174) -/
  | vmovupsZmmLoadEvex (ps : List LegacyPrefix) (rex : Option Rex) (evex : Evex) (reg : BitVec 3) (rm : RegMem)
  /-- row 10, `EVEX.128 VMOVUPS xmm2/m128 {k1}{z}, xmm1` (R175) -/
  | vmovupsXmmStoreEvex (ps : List LegacyPrefix) (rex : Option Rex) (evex : Evex) (reg : BitVec 3) (rm : RegMem)
  /-- row 11, `EVEX.256 VMOVUPS ymm2/m256 {k1}{z}, ymm1` (R176) -/
  | vmovupsYmmStoreEvex (ps : List LegacyPrefix) (rex : Option Rex) (evex : Evex) (reg : BitVec 3) (rm : RegMem)
  /-- row 12, `EVEX.512 VMOVUPS zmm2/m512 {k1}{z}, zmm1` (R177) -/
  | vmovupsZmmStoreEvex (ps : List LegacyPrefix) (rex : Option Rex) (evex : Evex) (reg : BitVec 3) (rm : RegMem)
  /-- EVEX `L'L = 11`, opcode 10: always #UD (R90 (d), R105) -/
  | vmovupsReservedLoad (ps : List LegacyPrefix) (rex : Option Rex) (evex : Evex) (reg : BitVec 3) (rm : RegMem)
  /-- EVEX `L'L = 11`, opcode 11: always #UD (R90 (d), R105) -/
  | vmovupsReservedStore (ps : List LegacyPrefix) (rex : Option Rex) (evex : Evex) (reg : BitVec 3) (rm : RegMem)
  deriving DecidableEq, Repr

end Sys2Proof
end

