-- ==== Sys2Proof/WellFormed.lean ====
section
/-! DEFINITION. Which terms stand for an encoding of their row in a mode: no prefix conflict (R83), a legacy
form has none of 66, F2, F3 (R81, R106), M32 has no REX byte (R84), no 16-bit addressing (R96) and no
C4/C5/62 byte followed by bits other than 11 (R88, R90), and a memory operand that ModRM and SIB can spell
(R94, R97). A term that is well formed may still be one whose meaning is #UD. -/

namespace Sys2Proof

def LegacyPrefix.isSegment : LegacyPrefix → Bool
  | .es | .cs | .ss | .ds | .fs | .gs => true
  | .opSize | .addrSize | .repne | .rep | .lock => false

/-- `66`, `F2` or `F3`: the prefixes that `NP` excludes (R81). -/
def LegacyPrefix.isMandatory : LegacyPrefix → Bool
  | .opSize | .repne | .rep => true
  | .es | .cs | .ss | .ds | .fs | .gs | .addrSize | .lock => false

/-- No two of these may stand on one instruction (R83): a byte repeated, two segment overrides, F2 with F3. -/
def LegacyPrefix.conflicts (p q : LegacyPrefix) : Bool :=
  p == q || (p.isSegment && q.isSegment) || (p == .repne && q == .rep) || (p == .rep && q == .repne)

/-- R83: the prefix bytes of one instruction, read in order, hold no conflict. -/
def prefixesOk : List LegacyPrefix → Bool
  | [] => true
  | p :: ps => !(ps.any p.conflicts) && prefixesOk ps

/-- R94, R97: the operand is one that ModRM and SIB spell in this way. -/
def MemForm.wf : MemForm → Bool
  | .base rm d => rm != 4#3 && !(rm == 5#3 && d == .none)
  | .sib _ _ b d => !(b == 5#3 && d == .none)
  | .sibNoBase _ _ _ => true
  | .dispOnly _ => true

def RegMem.isMem : RegMem → Bool
  | .reg _ => false
  | .mem _ => true

def RegMem.wf : RegMem → Bool
  | .reg _ => true
  | .mem m => m.wf

/-- What every shape asks of prefixes, REX and operand in a mode (R83, R84, R96). -/
def operandsWf (m : Mode) (ps : List LegacyPrefix) (rex : Option Rex) (rm : RegMem) : Bool :=
  prefixesOk ps && rm.wf && (m == .m64 || (rex.isNone && !(ps.contains .addrSize && rm.isMem)))

def legacyWf (m : Mode) (ps : List LegacyPrefix) (rex : Option Rex) (rm : RegMem) : Bool :=
  operandsWf m ps rex rm && !(ps.any LegacyPrefix.isMandatory)

/-- R88 (c): in M32 bits 7:6 of the byte after `C5` are 11. -/
def vex2Wf (m : Mode) (ps : List LegacyPrefix) (rex : Option Rex) (v : Vex2) (rm : RegMem) : Bool :=
  operandsWf m ps rex rm && (m == .m64 || (!v.r && v.vvvv.getLsbD 3))

/-- R88 (c): in M32 bits 7:6 of the byte after `C4` are 11. -/
def vex3Wf (m : Mode) (ps : List LegacyPrefix) (rex : Option Rex) (v : Vex3) (rm : RegMem) : Bool :=
  operandsWf m ps rex rm && (m == .m64 || (!v.r && !v.x))

/-- R90 (i): in M32 bits 7:6 of the byte after `62` are 11. -/
def evexWf (m : Mode) (ps : List LegacyPrefix) (rex : Option Rex) (e : Evex) (rm : RegMem) : Bool :=
  operandsWf m ps rex rm && (m == .m64 || (!e.r && !e.x))

/-- The term stands for an encoding of its row in mode `m`. -/
def Instr.wf (m : Mode) : Instr → Bool
  | .movupsLoad ps rex _ rm => legacyWf m ps rex rm
  | .movupsStore ps rex _ rm => legacyWf m ps rex rm
  | .vmovupsXmmLoadVex2 ps rex v _ rm => vex2Wf m ps rex v rm
  | .vmovupsXmmLoadVex3 ps rex v _ rm => vex3Wf m ps rex v rm
  | .vmovupsXmmStoreVex2 ps rex v _ rm => vex2Wf m ps rex v rm
  | .vmovupsXmmStoreVex3 ps rex v _ rm => vex3Wf m ps rex v rm
  | .vmovupsYmmLoadVex2 ps rex v _ rm => vex2Wf m ps rex v rm
  | .vmovupsYmmLoadVex3 ps rex v _ rm => vex3Wf m ps rex v rm
  | .vmovupsYmmStoreVex2 ps rex v _ rm => vex2Wf m ps rex v rm
  | .vmovupsYmmStoreVex3 ps rex v _ rm => vex3Wf m ps rex v rm
  | .vmovupsXmmLoadEvex ps rex e _ rm => evexWf m ps rex e rm
  | .vmovupsYmmLoadEvex ps rex e _ rm => evexWf m ps rex e rm
  | .vmovupsZmmLoadEvex ps rex e _ rm => evexWf m ps rex e rm
  | .vmovupsXmmStoreEvex ps rex e _ rm => evexWf m ps rex e rm
  | .vmovupsYmmStoreEvex ps rex e _ rm => evexWf m ps rex e rm
  | .vmovupsZmmStoreEvex ps rex e _ rm => evexWf m ps rex e rm
  | .vmovupsReservedLoad ps rex e _ rm => evexWf m ps rex e rm
  | .vmovupsReservedStore ps rex e _ rm => evexWf m ps rex e rm

end Sys2Proof
end

