-- ==== Sys2Proof/Decode.lean ====
section
/-! DEFINITION. The decoder of R112 (steps 1 to 4; steps 5 to 7 are raised by the meanings, see
Machine/Stages.lean), total on any list of bytes and refusing by name; the length of an instruction (R102); and
the encoder, written from the same rules R80 to R102. -/

namespace Sys2Proof

/-! ## Bytes and fields -/

/-- Bits `lo + w - 1 : lo` of a byte. -/
def Byte.field (b : Byte) (lo w : Nat) : BitVec w := b.extractLsb' lo w

/-- Bit `i` of a byte. -/
def Byte.bit (b : Byte) (i : Nat) : Bool := b.getLsbD i

/-- A 2-3-3 split byte, the shape of ModRM (R92) and SIB (R97). -/
def byte233 (a : BitVec 2) (b c : BitVec 3) : Byte := a ++ b ++ c

/-- The four bytes of a disp32, least significant first (R98). -/
def le32 (d : BitVec 32) : List Byte :=
  [d.extractLsb' 0 8, d.extractLsb' 8 8, d.extractLsb' 16 8, d.extractLsb' 24 8]

/-- A bit stored inverted (R85, R86, R89). -/
def inv (b : Bool) : BitVec 1 := BitVec.ofBool (!b)

/-! ## Prefix bytes (R83, R84) -/

def LegacyPrefix.toByte : LegacyPrefix → Byte
  | .es => 0x26#8
  | .cs => 0x2E#8
  | .ss => 0x36#8
  | .ds => 0x3E#8
  | .fs => 0x64#8
  | .gs => 0x65#8
  | .opSize => 0x66#8
  | .addrSize => 0x67#8
  | .repne => 0xF2#8
  | .rep => 0xF3#8
  | .lock => 0xF0#8

def LegacyPrefix.all : List LegacyPrefix :=
  [.es, .cs, .ss, .ds, .fs, .gs, .opSize, .addrSize, .repne, .rep, .lock]

def LegacyPrefix.ofByte? (b : Byte) : Option LegacyPrefix :=
  LegacyPrefix.all.find? (fun p => p.toByte == b)

/-- R84: `0100WRXB`. -/
def Rex.toByte (x : Rex) : Byte :=
  0x4#4 ++ BitVec.ofBool x.w ++ BitVec.ofBool x.r ++ BitVec.ofBool x.x ++ BitVec.ofBool x.b

def Rex.ofByte? (b : Byte) : Option Rex :=
  if b.field 4 4 = 0x4#4 then some ⟨b.bit 3, b.bit 2, b.bit 1, b.bit 0⟩ else none

/-! ## Why a decode does not answer an instruction -/

inductive DecodeRefusal where
  /-- R83: a prefix byte repeated, two segment overrides, or F2 with F3 -/
  | prefixConflict
  /-- R84, R112 step 2: a REX byte not immediately before 0F, C5, C4 or 62 -/
  | misplacedRex
  /-- R106: neither one of the rows of the table nor one of their #UD cases -/
  | notMovups
  /-- R96: 16-bit addressing -/
  | addressing16
  /-- the bytes given end before the instruction does -/
  | truncated
  deriving DecidableEq, Repr

/-! ## ModRM, SIB, displacement (R92, R94, R97, R98) -/

def readLe32 : List Byte → Except DecodeRefusal (BitVec 32 × List Byte)
  | b0 :: b1 :: b2 :: b3 :: bs => .ok (b3 ++ b2 ++ b1 ++ b0, bs)
  | _ => .error .truncated

/-- The displacement of `mod` 00, 01 or 10 (R94). -/
def readDisp (mod : BitVec 2) (bs : List Byte) : Except DecodeRefusal (Disp × List Byte) :=
  if mod = 0#2 then .ok (.none, bs)
  else if mod = 1#2 then
    match bs with
    | [] => .error .truncated
    | b :: bs => .ok (.d8 b, bs)
  else do
    let (d, bs) ← readLe32 bs
    .ok (.d32 d, bs)

/-- The SIB byte and what follows it (R97). -/
def readSib (mod : BitVec 2) : List Byte → Except DecodeRefusal (MemForm × List Byte)
  | [] => .error .truncated
  | s :: bs =>
    if mod = 0#2 ∧ s.field 0 3 = 5#3 then do
      let (d, bs) ← readLe32 bs
      .ok (.sibNoBase (s.field 6 2) (s.field 3 3) d, bs)
    else do
      let (d, bs) ← readDisp mod bs
      .ok (.sib (s.field 6 2) (s.field 3 3) (s.field 0 3) d, bs)

/-- The memory operand of `mod` 00, 01 or 10 (R94). -/
def readMem (mod : BitVec 2) (rm : BitVec 3) (bs : List Byte) : Except DecodeRefusal (MemForm × List Byte) :=
  if rm = 4#3 then readSib mod bs
  else if mod = 0#2 ∧ rm = 5#3 then do
    let (d, bs) ← readLe32 bs
    .ok (.dispOnly d, bs)
  else do
    let (d, bs) ← readDisp mod bs
    .ok (.base rm d, bs)

/-- ModRM and what follows it; R112 step 4: `67` in M32 with a memory operand is 16-bit addressing (R96). DESIGN
CHOICE, log entry 18: that is refused at ModRM, before a SIB or displacement byte is asked for; the spec does not say
which stop is reported where such a byte cannot be fetched. -/
def readRegMem (m : Mode) (ps : List LegacyPrefix) :
    List Byte → Except DecodeRefusal (BitVec 3 × RegMem × List Byte)
  | [] => .error .truncated
  | b :: bs =>
    if b.field 6 2 = 3#2 then .ok (b.field 3 3, .reg (b.field 0 3), bs)
    else if m = .m32 ∧ ps.contains .addrSize then .error .addressing16
    else do
      let (f, bs) ← readMem (b.field 6 2) (b.field 0 3) bs
      .ok (b.field 3 3, .mem f, bs)

/-- The opcode byte: 10 reads the r/m operand (`false`), 11 writes it (`true`) (R80, R104). -/
def readOpcode : List Byte → Except DecodeRefusal (Bool × List Byte)
  | [] => .error .truncated
  | b :: bs =>
    if b = 0x10#8 then .ok (false, bs) else if b = 0x11#8 then .ok (true, bs) else .error .notMovups

/-! ## The shapes (R80) -/

def legacyInstr (st : Bool) (ps : List LegacyPrefix) (rex : Option Rex) (reg : BitVec 3) (rm : RegMem) : Instr :=
  if st then .movupsStore ps rex reg rm else .movupsLoad ps rex reg rm

def vex2Instr (l st : Bool) (ps : List LegacyPrefix) (rex : Option Rex) (v : Vex2) (reg : BitVec 3)
    (rm : RegMem) : Instr :=
  match l, st with
  | false, false => .vmovupsXmmLoadVex2 ps rex v reg rm
  | false, true => .vmovupsXmmStoreVex2 ps rex v reg rm
  | true, false => .vmovupsYmmLoadVex2 ps rex v reg rm
  | true, true => .vmovupsYmmStoreVex2 ps rex v reg rm

def vex3Instr (l st : Bool) (ps : List LegacyPrefix) (rex : Option Rex) (v : Vex3) (reg : BitVec 3)
    (rm : RegMem) : Instr :=
  match l, st with
  | false, false => .vmovupsXmmLoadVex3 ps rex v reg rm
  | false, true => .vmovupsXmmStoreVex3 ps rex v reg rm
  | true, false => .vmovupsYmmLoadVex3 ps rex v reg rm
  | true, true => .vmovupsYmmStoreVex3 ps rex v reg rm

/-- The row that `L'L` and the opcode byte select (R111, R105). -/
def evexInstr (ll : BitVec 2) (st : Bool) (ps : List LegacyPrefix) (rex : Option Rex) (e : Evex)
    (reg : BitVec 3) (rm : RegMem) : Instr :=
  if ll = 0#2 then (if st then .vmovupsXmmStoreEvex ps rex e reg rm else .vmovupsXmmLoadEvex ps rex e reg rm)
  else if ll = 1#2 then
    (if st then .vmovupsYmmStoreEvex ps rex e reg rm else .vmovupsYmmLoadEvex ps rex e reg rm)
  else if ll = 2#2 then
    (if st then .vmovupsZmmStoreEvex ps rex e reg rm else .vmovupsZmmLoadEvex ps rex e reg rm)
  else (if st then .vmovupsReservedStore ps rex e reg rm else .vmovupsReservedLoad ps rex e reg rm)

/-- After `0F` (R112 step 3: no 66, F2, F3). DESIGN CHOICE, log entry 18: with one of those the refusal comes before
the opcode byte is asked for; the spec does not say which stop is reported where that byte cannot be fetched. -/
def decodeLegacy (m : Mode) (ps : List LegacyPrefix) (rex : Option Rex) (bs : List Byte) :
    Except DecodeRefusal (Instr × List Byte) :=
  if ps.any LegacyPrefix.isMandatory then .error .notMovups
  else do
    let (st, bs) ← readOpcode bs
    let (reg, rm, bs) ← readRegMem m ps bs
    .ok (legacyInstr st ps rex reg rm, bs)

/-- After `C5` (R85, R88). -/
def decodeVex2 (m : Mode) (ps : List LegacyPrefix) (rex : Option Rex) :
    List Byte → Except DecodeRefusal (Instr × List Byte)
  | [] => .error .truncated
  | b :: bs =>
    if m = .m32 ∧ b.field 6 2 ≠ 3#2 then .error .notMovups
    else if b.field 0 2 ≠ 0#2 then .error .notMovups
    else do
      let (st, bs) ← readOpcode bs
      let (reg, rm, bs) ← readRegMem m ps bs
      .ok (vex2Instr (b.bit 2) st ps rex ⟨!b.bit 7, b.field 3 4⟩ reg rm, bs)

/-- After `C4` (R86, R88). -/
def decodeVex3 (m : Mode) (ps : List LegacyPrefix) (rex : Option Rex) :
    List Byte → Except DecodeRefusal (Instr × List Byte)
  | [] => .error .truncated
  | b :: bs =>
    if m = .m32 ∧ b.field 6 2 ≠ 3#2 then .error .notMovups
    else if b.field 0 5 ≠ 1#5 then .error .notMovups
    else
      match bs with
      | [] => .error .truncated
      | c :: bs =>
        if c.field 0 2 ≠ 0#2 then .error .notMovups
        else do
          let (st, bs) ← readOpcode bs
          let (reg, rm, bs) ← readRegMem m ps bs
          .ok (vex3Instr (c.bit 2) st ps rex ⟨!b.bit 7, !b.bit 6, !b.bit 5, c.bit 7, c.field 3 4⟩ reg rm, bs)

/-- The free fields of `P0 P1 P2` (R89). -/
def Evex.ofBytes (p0 p1 p2 : Byte) : Evex :=
  { r := !p0.bit 7, x := !p0.bit 6, b := !p0.bit 5, rHi := !p0.bit 4,
    w := p1.bit 7, vvvv := p1.field 3 4, one := p1.bit 2,
    z := p2.bit 7, bc := p2.bit 4, vHi := p2.bit 3, aaa := p2.field 0 3 }

/-- After `62` (R89, R90): in M32 bits 7:6 of `P0` must be 11; `P0[3:2] = 00`, `mm = 01`, `pp = 00`. DESIGN CHOICE,
log entry 18: a byte with a wrong field refuses before the next byte is asked for; the spec does not say which stop
is reported where that next byte cannot be fetched. -/
def decodeEvex (m : Mode) (ps : List LegacyPrefix) (rex : Option Rex) :
    List Byte → Except DecodeRefusal (Instr × List Byte)
  | [] => .error .truncated
  | p0 :: bs =>
    if m = .m32 ∧ p0.field 6 2 ≠ 3#2 then .error .notMovups
    else if p0.field 0 4 ≠ 1#4 then .error .notMovups
    else
      match bs with
      | [] => .error .truncated
      | p1 :: bs =>
        if p1.field 0 2 ≠ 0#2 then .error .notMovups
        else
          match bs with
          | [] => .error .truncated
          | p2 :: bs => do
            let (st, bs) ← readOpcode bs
            let (reg, rm, bs) ← readRegMem m ps bs
            .ok (evexInstr (p2.field 5 2) st ps rex (Evex.ofBytes p0 p1 p2) reg rm, bs)

/-- The escape or prefix byte that selects the shape (R112 step 2). -/
def decodeShape (m : Mode) (ps : List LegacyPrefix) (rex : Option Rex) :
    List Byte → Except DecodeRefusal (Instr × List Byte)
  | [] => .error .truncated
  | b :: bs =>
    if b = 0x0F#8 then decodeLegacy m ps rex bs
    else if b = 0xC5#8 then decodeVex2 m ps rex bs
    else if b = 0xC4#8 then decodeVex3 m ps rex bs
    else if b = 0x62#8 then decodeEvex m ps rex bs
    else .error (if rex.isSome then .misplacedRex else .notMovups)

/-- The legacy prefix bytes at the front (R112 step 1). -/
def readPrefixes : List Byte → List LegacyPrefix × List Byte
  | [] => ([], [])
  | b :: bs =>
    match LegacyPrefix.ofByte? b with
    | some p => (p :: (readPrefixes bs).1, (readPrefixes bs).2)
    | none => ([], b :: bs)

/-- A REX byte, in M64 only (R84). -/
def readRex (m : Mode) : List Byte → Option Rex × List Byte
  | [] => (none, [])
  | b :: bs =>
    match m, Rex.ofByte? b with
    | .m64, some x => (some x, bs)
    | _, _ => (none, b :: bs)

/-- `Decode(MODE, bytes at pc)` of R112, steps 1 to 4: an instruction and the bytes after it, or a refusal. -/
def decode (m : Mode) (bs : List Byte) : Except DecodeRefusal (Instr × List Byte) :=
  let (ps, bs) := readPrefixes bs
  if !prefixesOk ps then .error .prefixConflict
  else
    let (rex, bs) := readRex m bs
    decodeShape m ps rex bs

/-! ## Length (R102) -/

def Disp.len : Disp → Nat
  | .none => 0
  | .d8 _ => 1
  | .d32 _ => 4

/-- ModRM, SIB if present, displacement. -/
def RegMem.len : RegMem → Nat
  | .reg _ => 1
  | .mem (.base _ d) => 1 + d.len
  | .mem (.sib _ _ _ d) => 2 + d.len
  | .mem (.sibNoBase _ _ _) => 6
  | .mem (.dispOnly _) => 5

/-- `head` bytes of escape, VEX or EVEX prefix with the opcode byte. -/
def lenOf (head : Nat) (ps : List LegacyPrefix) (rex : Option Rex) (rm : RegMem) : Nat :=
  ps.length + (if rex.isSome then 1 else 0) + head + rm.len

def Instr.len : Instr → Nat
  | .movupsLoad ps rex _ rm => lenOf 2 ps rex rm
  | .movupsStore ps rex _ rm => lenOf 2 ps rex rm
  | .vmovupsXmmLoadVex2 ps rex _ _ rm => lenOf 3 ps rex rm
  | .vmovupsXmmLoadVex3 ps rex _ _ rm => lenOf 4 ps rex rm
  | .vmovupsXmmStoreVex2 ps rex _ _ rm => lenOf 3 ps rex rm
  | .vmovupsXmmStoreVex3 ps rex _ _ rm => lenOf 4 ps rex rm
  | .vmovupsYmmLoadVex2 ps rex _ _ rm => lenOf 3 ps rex rm
  | .vmovupsYmmLoadVex3 ps rex _ _ rm => lenOf 4 ps rex rm
  | .vmovupsYmmStoreVex2 ps rex _ _ rm => lenOf 3 ps rex rm
  | .vmovupsYmmStoreVex3 ps rex _ _ rm => lenOf 4 ps rex rm
  | .vmovupsXmmLoadEvex ps rex _ _ rm => lenOf 5 ps rex rm
  | .vmovupsYmmLoadEvex ps rex _ _ rm => lenOf 5 ps rex rm
  | .vmovupsZmmLoadEvex ps rex _ _ rm => lenOf 5 ps rex rm
  | .vmovupsXmmStoreEvex ps rex _ _ rm => lenOf 5 ps rex rm
  | .vmovupsYmmStoreEvex ps rex _ _ rm => lenOf 5 ps rex rm
  | .vmovupsZmmStoreEvex ps rex _ _ rm => lenOf 5 ps rex rm
  | .vmovupsReservedLoad ps rex _ _ rm => lenOf 5 ps rex rm
  | .vmovupsReservedStore ps rex _ _ rm => lenOf 5 ps rex rm

/-! ## Encoder -/

/-- The `mod` field that a displacement stands for (R94). -/
def Disp.mod : Disp → BitVec 2
  | .none => 0#2
  | .d8 _ => 1#2
  | .d32 _ => 2#2

def Disp.encode : Disp → List Byte
  | .none => []
  | .d8 d => [d]
  | .d32 d => le32 d

/-- ModRM, SIB, displacement (R92, R94, R97). -/
def RegMem.encode (reg : BitVec 3) : RegMem → List Byte
  | .reg rm => [byte233 3#2 reg rm]
  | .mem (.base rm d) => byte233 d.mod reg rm :: d.encode
  | .mem (.sib s i b d) => byte233 d.mod reg 4#3 :: byte233 s i b :: d.encode
  | .mem (.sibNoBase s i d) => byte233 0#2 reg 4#3 :: byte233 s i 5#3 :: le32 d
  | .mem (.dispOnly d) => byte233 0#2 reg 5#3 :: le32 d

def opcodeByte (st : Bool) : Byte := if st then 0x11#8 else 0x10#8

/-- Prefix bytes, REX, the bytes of the shape, the opcode byte, the operands (R80). -/
def encodeWith (ps : List LegacyPrefix) (rex : Option Rex) (head : List Byte) (st : Bool) (reg : BitVec 3)
    (rm : RegMem) : List Byte :=
  ps.map LegacyPrefix.toByte ++ (rex.map Rex.toByte).toList ++ head ++ opcodeByte st :: rm.encode reg

/-- R85: `C5`, `R̄ vvvv L 00`. -/
def Vex2.bytes (l : Bool) (v : Vex2) : List Byte := [0xC5#8, inv v.r ++ v.vvvv ++ BitVec.ofBool l ++ 0#2]

/-- R86: `C4`, `R̄ X̄ B̄ 00001`, `W vvvv L 00`. -/
def Vex3.bytes (l : Bool) (v : Vex3) : List Byte :=
  [0xC4#8, inv v.r ++ inv v.x ++ inv v.b ++ 1#5, BitVec.ofBool v.w ++ v.vvvv ++ BitVec.ofBool l ++ 0#2]

/-- R89: `62`, `R̄ X̄ B̄ R̄' 00 01`, `W vvvv 1 00`, `z L'L b V' aaa`. -/
def Evex.bytes (ll : BitVec 2) (e : Evex) : List Byte :=
  [0x62#8, inv e.r ++ inv e.x ++ inv e.b ++ inv e.rHi ++ 1#4,
    BitVec.ofBool e.w ++ e.vvvv ++ BitVec.ofBool e.one ++ 0#2,
    BitVec.ofBool e.z ++ ll ++ BitVec.ofBool e.bc ++ BitVec.ofBool e.vHi ++ e.aaa]

/-- The bytes of an instruction, lowest address first (R80, R105). -/
def Instr.encode : Instr → List Byte
  | .movupsLoad ps rex reg rm => encodeWith ps rex [0x0F#8] false reg rm
  | .movupsStore ps rex reg rm => encodeWith ps rex [0x0F#8] true reg rm
  | .vmovupsXmmLoadVex2 ps rex v reg rm => encodeWith ps rex (v.bytes false) false reg rm
  | .vmovupsXmmLoadVex3 ps rex v reg rm => encodeWith ps rex (v.bytes false) false reg rm
  | .vmovupsXmmStoreVex2 ps rex v reg rm => encodeWith ps rex (v.bytes false) true reg rm
  | .vmovupsXmmStoreVex3 ps rex v reg rm => encodeWith ps rex (v.bytes false) true reg rm
  | .vmovupsYmmLoadVex2 ps rex v reg rm => encodeWith ps rex (v.bytes true) false reg rm
  | .vmovupsYmmLoadVex3 ps rex v reg rm => encodeWith ps rex (v.bytes true) false reg rm
  | .vmovupsYmmStoreVex2 ps rex v reg rm => encodeWith ps rex (v.bytes true) true reg rm
  | .vmovupsYmmStoreVex3 ps rex v reg rm => encodeWith ps rex (v.bytes true) true reg rm
  | .vmovupsXmmLoadEvex ps rex e reg rm => encodeWith ps rex (e.bytes 0#2) false reg rm
  | .vmovupsYmmLoadEvex ps rex e reg rm => encodeWith ps rex (e.bytes 1#2) false reg rm
  | .vmovupsZmmLoadEvex ps rex e reg rm => encodeWith ps rex (e.bytes 2#2) false reg rm
  | .vmovupsXmmStoreEvex ps rex e reg rm => encodeWith ps rex (e.bytes 0#2) true reg rm
  | .vmovupsYmmStoreEvex ps rex e reg rm => encodeWith ps rex (e.bytes 1#2) true reg rm
  | .vmovupsZmmStoreEvex ps rex e reg rm => encodeWith ps rex (e.bytes 2#2) true reg rm
  | .vmovupsReservedLoad ps rex e reg rm => encodeWith ps rex (e.bytes 3#2) false reg rm
  | .vmovupsReservedStore ps rex e reg rm => encodeWith ps rex (e.bytes 3#2) true reg rm

/-! ## The host's question about a row of the table -/

/-- The first `n` bytes of a number whose first byte is the most significant of `n` bytes: how R105 numbers the
window of a row ("written as one hexadecimal number with the first byte most significant"). Log entry 24. -/
def windowBytes (w : Nat) : Nat → List Byte
  | 0 => []
  | n + 1 => BitVec.ofNat 8 (w / 2 ^ (8 * n)) :: windowBytes w n

/-- No encoding that R112 step 1 does not refuse is longer: five prefix bytes, REX, EVEX, opcode, ModRM, SIB,
disp32. -/
def maxEncodedLen : Nat := 17

/-- The bytes of a table word, the operand bytes above it zero. -/
def tableWordBytes (nbits w : Nat) : List Byte :=
  windowBytes w ((nbits + 7) / 8) ++ List.replicate maxEncodedLen 0#8

/-- The instruction the decoder reads (in M64) from a word of the opcode table. -/
def decodeTableWord (nbits w : Nat) : Option Instr :=
  match decode .m64 (tableWordBytes nbits w) with
  | .ok (i, _) => some i
  | .error _ => none

end Sys2Proof
end

