-- ==== Sys2Proof/Config.lean ====
section
/-! DEFINITION. The values the spec leaves open: constants with no body, so that nothing can be proved about
which value they take. What a part or a launch fixes (feature flags, VA_BITS, Translate, CODE_BASE, CODE_END)
is plain data in State, so that a claim can quantify over it. -/

namespace Sys2Proof

/-- `AC_DRAW` (R5, R54, U2): the free Boolean of a step, applied to the draw counter of the state. A claim must
hold for both outcomes. Log entry 7. -/
opaque Config.acDraw : Nat → Bool

/-- What a byte of memory that nothing has written holds (R34 "memory: unspecified", U26 "any value"): one
value for each location, nothing known about it. Log entry 6. -/
opaque Config.unwrittenByte : Nat → Byte

/-- The open order of the byte writes of one store (R56, R68 "in any order", U20): the rank of byte number `i`
of the operand under draw `d`. It matters only when two bytes of one operand share a location. Log entry 8. -/
opaque Config.writeRank : Nat → Nat → Nat

end Sys2Proof
end

