-- ==== Sys2Proof/Machine/State.lean ====
section
/-! DEFINITION. The state of the machine as plain data, holding everything the spec names (INVENTORY.md, State),
the reasons a step can stop, and the state after reset (R34). -/

namespace Sys2Proof.Machine

/-- Memory (R31, R50): the bytes that have been written or placed, by location, addresses strictly rising. An
address that is not listed holds no known value; what a read of it gives is `Memory.byte` of Machine/Ops.lean. -/
abbrev Memory := List Host.Cell

/-- The canonical form: addresses strictly rising. -/
def Memory.wf : Memory → Bool
  | [] => true
  | [_] => true
  | a :: b :: m => decide (a.1 < b.1) && Memory.wf (b :: m)

/-- The kinds of access `Translate` is asked about (R61). -/
inductive AccessKind where
  | read
  | write
  | fetch
  deriving DecidableEq, Repr

/-- What `Translate` answers (R61): a byte location, a page fault with its code, or memory that is not ordinary
(R58: "a model refuses a launch that maps one under an operand"). R61 leaves the bits of the code open, its width
with them: 32 is a DESIGN CHOICE, log entry 31. -/
inductive XlateResult where
  /-- linear address `first + i` of the rule's range is location `base + i` -/
  | location (base : Nat)
  | pageFault (code : BitVec 32)
  | notOrdinary
  deriving DecidableEq, Repr

/-- One rule of the parameter `Translate(la, kind, CPL)` as plain data (R5, R61; log entry 12): the linear
addresses `first` to `last`, the kinds and privilege levels it speaks of, and its answer. -/
structure XlateRule where
  first : Nat
  last : Nat
  kinds : List AccessKind
  cpls : List (BitVec 2)
  result : XlateResult
  deriving DecidableEq, Repr

/-- The CPUID feature flags that the opcode table names (R5, R28): fixed per part, written by no step. -/
structure Features where
  sse : Bool
  avx : Bool
  avx512f : Bool
  avx512vl : Bool
  deriving DecidableEq, Repr

/-- `VA_BITS` (R5, R59): 48 or 57. -/
inductive VaBits where
  | va48
  | va57
  deriving DecidableEq, Repr

/-- The state (10_state.md, 20_memory.md, and the launch parameters of R5 and R262). -/
structure State where
  /-- vector registers (R20, R21) -/
  v : Vector Vec 32
  /-- opmask registers (R23) -/
  k : Vector KMask 8
  /-- general registers (R24) -/
  x : Vector Word 16
  /-- instruction pointer (R25) -/
  pc : Word
  /-- RFLAGS (R26); 64 bits PRESUMED, log entry 32 -/
  rflags : Word
  /-- MXCSR (R27); 32 bits PRESUMED, log entry 32 -/
  mxcsr : BitVec 32
  /-- control registers and XCR0, IA32_EFER (R28); CR2 (R210); 64 bits each PRESUMED, log entry 32 -/
  cr0 : Word
  cr2 : Word
  cr4 : Word
  xcr0 : Word
  efer : Word
  /-- the L and D bits of the CS descriptor (R28) -/
  csL : Bool
  csD : Bool
  /-- current privilege level (R29) -/
  cpl : BitVec 2
  /-- segment bases (R30, R34, R60); R5 gives 64 bits for FS and GS, for the others PRESUMED, log entry 32 -/
  esBase : Word
  csBase : Word
  ssBase : Word
  dsBase : Word
  fsBase : Word
  gsBase : Word
  /-- CPUID feature flags (R5, R28) -/
  features : Features
  /-- linear-address width for the canonical check (R5, R59) -/
  vaBits : VaBits
  /-- the parameter `Translate` (R5, R61): the first rule that speaks of an access answers it -/
  translation : List XlateRule
  /-- the program text stands at `[codeBase, codeEnd)` (R5, R66, R266) -/
  codeBase : Nat
  codeEnd : Nat
  /-- memory (R31, R50) -/
  mem : Memory
  /-- the model's own: which draw of the free values of Config the next step takes (log entry 7) -/
  draws : Nat
  deriving DecidableEq, Repr

/-- The exceptions of R210. A fault is a terminal outcome and leaves the state unchanged (R9, R221, R222); it is
raised through `raise` of Machine/Ops.lean only. Each is safe: the machine stops where the hardware would enter a
handler, which the spec does not describe (R222). -/
inductive Fault where
  /-- `#UD`, vector 6, no error code; raised by decodeChecks, enableChecks and the reserved-length rows
  (R212). Safe. -/
  | invalidOpcode
  /-- `#NM`, vector 7, no error code; raised by taskSwitchCheck when CR0.TS = 1 (R213). Safe. -/
  | deviceNotAvailable
  /-- `#SS(0)`, vector 12; raised by memAddress for a non-canonical operand through SS (R214). Safe. -/
  | stackSegment
  /-- `#GP(0)`, vector 13; raised by decodeChecks for a length above 15 and by memAddress for a non-canonical
  operand through a segment other than SS (R215). Safe. -/
  | generalProtection
  /-- `#PF(code)`, vector 14, with the code Translate gives (of 32 bits, DESIGN CHOICE, log entry 31) and the
  faulting linear address; raised by translateByte for a fetch, a read or a write (R216). Safe. -/
  | pageFault (code : BitVec 32) (la : Word)
  /-- `#AC(0)`, vector 17; raised by memAddress when the draw says so (R217). Safe. -/
  | alignmentCheck
  deriving DecidableEq, Repr

/-- The situations to which the spec gives no meaning (R8 `refuse`, R9 `Refused(reason)`). Each is safe: the model
stops where the spec says nothing. -/
inductive Refusal where
  /-- no meaning yet; raised by exec's arms only. Safe. -/
  | notModelled (mnemonic : String)
  /-- the bytes are not one of the table's rows (R106); raised by the fetch. Safe. -/
  | notMovups
  /-- repeated or conflicting legacy prefixes (R83); raised by the fetch. Safe. -/
  | prefixConflict
  /-- a REX byte not immediately before 0F, C5, C4 or 62 (R84, R112); raised by the fetch. Safe. -/
  | misplacedRex
  /-- 16-bit addressing (R96); raised by the fetch, and by decodeChecks for a term that no fetch gives. Safe. -/
  | addressing16
  /-- in M32 an extension bit that names a register above 7 (R88, R90, R112 step 7); raised by decodeChecks.
  Safe. -/
  | extensionBit
  /-- real-address, virtual-8086, 16-bit or inconsistent mode (R4); raised by launchMode. Safe. -/
  | modeNotAdmitted
  /-- ES, CS, SS or DS not flat in M32 (R60); raised by launchMode. Safe. -/
  | nonFlatSegment
  /-- the single-step flag is set (R230, R262); raised by launchMode. Safe. -/
  | singleStep
  /-- `pc` or the next `pc` not canonical, or an instruction that runs past the top of the address space (R25);
  raised by the fetch and by nextPc. Safe. -/
  | pcOutOfRange
  /-- `pc` outside `[CODE_BASE, CODE_END]` (R266); raised by the fetch. Safe. -/
  | outsideProgram
  /-- the program text ends before the instruction at `pc` does, so that text is no sequence of instructions
  (R266, log entry 19); raised by the fetch. Safe. -/
  | cutInstruction
  /-- `pc = CODE_END`: the run is complete (R266); raised by the fetch. Safe. -/
  | runComplete
  /-- a memory operand that wraps past the top of an address space (R59); raised by memAddress. Safe. -/
  | operandWraps
  /-- a store whose destination bytes overlap the program text (R66); raised by storeCells. Safe. -/
  | storeToProgram
  /-- an access to memory that is not ordinary (R58); raised by translateByte. Safe. -/
  | notOrdinaryMemory
  deriving DecidableEq, Repr

/-- The state after reset (R34, and the reset column of R28). Where they give no value: log entries 4, 5, 6, 7. -/
def State.reset : State where
  v := Vector.replicate 32 (Vector.replicate 16 0#32)
  k := Vector.replicate 8 0#64
  x := (Vector.replicate 16 0#64).set 2 0x00050654#64
  pc := 0x0000FFF0#64
  rflags := 0x00000002#64
  mxcsr := 0x1F80#32
  cr0 := 0x60000010#64
  cr2 := 0#64
  cr4 := 0#64
  xcr0 := 1#64
  efer := 0#64
  csL := false
  csD := false
  cpl := 0#2
  esBase := 0#64
  csBase := 0xFFFF0000#64
  ssBase := 0#64
  dsBase := 0#64
  fsBase := 0#64
  gsBase := 0#64
  features := ⟨true, true, true, true⟩
  vaBits := .va48
  translation := []
  codeBase := 0
  codeEnd := 0
  mem := []
  draws := 0

end Sys2Proof.Machine
end

