-- ==== Sys2Proof/Machine/Flags.lean ====
section
/-! DEFINITION. The status and control bits the forms read (R26, R28) and what they decide: the mode, the state
enables, alignment checking. No form computes or writes a flag (R26), so there is no flag computation here. -/

namespace Sys2Proof.Machine

/-! ## The bits of R28 -/

def State.pe (s : State) : Bool := s.cr0.getLsbD 0
def State.em (s : State) : Bool := s.cr0.getLsbD 2
def State.ts (s : State) : Bool := s.cr0.getLsbD 3
def State.am (s : State) : Bool := s.cr0.getLsbD 18
def State.pg (s : State) : Bool := s.cr0.getLsbD 31
def State.osfxsr (s : State) : Bool := s.cr4.getLsbD 9
def State.osxsave (s : State) : Bool := s.cr4.getLsbD 18
def State.ac (s : State) : Bool := s.rflags.getLsbD 18
def State.vm (s : State) : Bool := s.rflags.getLsbD 17

/-- The single-step flag of R230 and R262; its place, bit 8, is PRESUMED (the family's). Log entry 14. -/
def State.tf (s : State) : Bool := s.rflags.getLsbD 8

def State.lma (s : State) : Bool := s.efer.getLsbD 10

/-- `XCR0[2:1] = 11b` -/
def State.avxEnabled (s : State) : Bool := s.xcr0.getLsbD 1 && s.xcr0.getLsbD 2

/-- `XCR0[7:5] = 111b` -/
def State.avx512Enabled (s : State) : Bool := s.xcr0.getLsbD 5 && s.xcr0.getLsbD 6 && s.xcr0.getLsbD 7

/-! ## What they decide -/

/-- The execution mode (R28: PE = 1, VM = 0; `L = 1` with LMA = 1 and PG = 1 is M64; `L = 0, D = 1` is M32), or
none where the mode is not admitted (R4). Log entry 13. -/
def State.mode? (s : State) : Option Mode :=
  if !s.pe || s.vm then none
  else if s.csL then (if s.lma && s.pg then some .m64 else none)
  else if s.csD then some .m32
  else none

/-- ES, CS, SS and DS have base 0 (R60). -/
def State.flat (s : State) : Bool :=
  s.esBase == 0#64 && s.csBase == 0#64 && s.ssBase == 0#64 && s.dsBase == 0#64

/-- The alignment check is enabled (R54, R217). -/
def State.alignmentChecked (s : State) : Bool := s.am && s.ac && s.cpl == 3#2

/-- `MAXVL` in elements of 32 bits, from the feature flags (R5). -/
def Features.maxElems (f : Features) : Nat := if f.avx512f then 16 else if f.avx then 8 else 4

/-- The number of significant bits of a linear address in M64 (R59). -/
def VaBits.count : VaBits → Nat
  | .va48 => 48
  | .va57 => 57

end Sys2Proof.Machine
end

