-- ==== Sys2Proof/Machine/Ops.lean ====
section
/-! DEFINITION. The named operations over memory, registers and addresses, and the one way to raise an exception.
There is no trap entry and no return from one in the spec: a fault is a terminal outcome (R222, R223). -/

namespace Sys2Proof.Machine

/-! ## Stopping -/

/-- How a step ends without a next state (R9). -/
inductive Stop where
  | fault (f : Fault)
  | refused (r : Refusal)
  deriving DecidableEq, Repr

/-- The outcome of R9 that a stage's result stands for. -/
def outcome (r : Except Stop State) : Host.Outcome State Fault Refusal :=
  match r with
  | .ok s => .next s
  | .error (.fault f) => .fault f
  | .error (.refused r) => .refused r

/-- `raise #XX(code)` (R8): the step ends with that fault and nothing after it runs (R221, R222). Every exception
of the model is raised through this one operation. -/
def raise {α : Type} (f : Fault) : Except Stop α := .error (.fault f)

/-- `refuse(reason)` (R8). -/
def refuse {α : Type} (r : Refusal) : Except Stop α := .error (.refused r)

/-- The vector number of R210. -/
def Fault.vector : Fault → Nat
  | .invalidOpcode => 6
  | .deviceNotAvailable => 7
  | .stackSegment => 12
  | .generalProtection => 13
  | .pageFault _ _ => 14
  | .alignmentCheck => 17

/-- The error code of R210, none for #UD and #NM; 32 bits wide (DESIGN CHOICE, log entry 31). -/
def Fault.errorCode : Fault → Option (BitVec 32)
  | .invalidOpcode => none
  | .deviceNotAvailable => none
  | .stackSegment => some 0#32
  | .generalProtection => some 0#32
  | .pageFault code _ => some code
  | .alignmentCheck => some 0#32

/-- What R210 says is recorded besides: the faulting linear address of #PF. -/
def Fault.recordedAddress : Fault → Option Word
  | .pageFault _ la => some la
  | .invalidOpcode => none
  | .deviceNotAvailable => none
  | .stackSegment => none
  | .generalProtection => none
  | .alignmentCheck => none

/-! ## Memory (R50, R58) -/

/-- The byte that was written or placed at a location, if any. -/
def Memory.find? : Memory → Nat → Option Byte
  | [], _ => none
  | c :: m, a => if c.1 = a then some c.2 else Memory.find? m a

/-- Reading one byte (R58: the last value written; before any, a free value, log entry 6). -/
def Memory.byte (m : Memory) (a : Nat) : Byte := (m.find? a).getD (Config.unwrittenByte a)

/-- Writing one byte; keeps the canonical form. -/
def Memory.write : Memory → Nat → Byte → Memory
  | [], a, b => [(a, b)]
  | c :: m, a, b =>
    if a < c.1 then (a, b) :: c :: m
    else if a = c.1 then (a, b) :: m
    else c :: Memory.write m a b

/-- Writing a list of bytes, the first cell first. -/
def Memory.writeCells (m : Memory) (cells : List Host.Cell) : Memory :=
  cells.foldl (fun m c => m.write c.1 c.2) m

/-! ## Registers (R20, R23, R24) -/

def State.readV (s : State) (n : VNum) : Vec := s.v[n.toNat]'n.isLt

def State.writeV (s : State) (n : VNum) (a : Vec) : State := { s with v := s.v.set n.toNat a n.isLt }

/-- The state with another memory. -/
def State.setMem (s : State) (mem : Memory) : State := { s with mem := mem }

/-- The state after a form that completes: the new `pc` (R25), and the draws of this step are used up (the
model's own counter, log entry 7). -/
def State.advance (s : State) (pc : Word) : State := { s with pc := pc, draws := s.draws + 1 }

def State.readX (s : State) (n : GNum) : Word := s.x[n.toNat]'n.isLt

def State.readK (s : State) (n : BitVec 3) : KMask := s.k[n.toNat]'n.isLt

/-- A vector from its elements, 0 where the list has none: `zext_MAXVL` of a shorter vector (R8). -/
def vecOfElems (es : List Elem) : Vec := Vector.ofFn fun j => es.getD j.val 0#32

/-! ## Modes and addresses -/

/-- The mode of the step, where the launch is one the spec gives a meaning (R4, R60, R262). -/
def launchMode (s : State) : Except Stop Mode :=
  match s.mode? with
  | none => refuse .modeNotAdmitted
  | some m =>
    if s.tf then refuse .singleStep
    else if m = .m32 ∧ s.flat = false then refuse .nonFlatSegment
    else .ok m

/-- The number of bits of a linear address and of the instruction pointer (R25, R50). -/
def addrBits : Mode → Nat
  | .m64 => 64
  | .m32 => 32

/-- The instruction pointer as an address: RIP, or EIP, the low 32 bits (R25). -/
def State.ip (s : State) (m : Mode) : Nat := s.pc.toNat % 2 ^ addrBits m

/-- R59: bits `63 : VA_BITS - 1` of a linear address are all equal. -/
def canonical (va : VaBits) (la : Nat) : Bool :=
  la / 2 ^ (va.count - 1) == 0 || la / 2 ^ (va.count - 1) == 2 ^ (65 - va.count) - 1

/-- A rule of `Translate` speaks of this access. -/
def XlateRule.covers (r : XlateRule) (la : Nat) (kind : AccessKind) (cpl : BitVec 2) : Bool :=
  decide (r.first ≤ la) && decide (la ≤ r.last) && r.kinds.contains kind && r.cpls.contains cpl

/-- What a rule answers for a linear address in its range (R61, R216, R58). -/
def XlateRule.answer (r : XlateRule) (la : Nat) : Except Stop Nat :=
  match r.result with
  | .location base => .ok (base + (la - r.first))
  | .pageFault code => raise (.pageFault code (BitVec.ofNat 64 la))
  | .notOrdinary => refuse .notOrdinaryMemory

/-- A rule counts in this state: with paging off in M32 `Translate` is the identity and never faults (R61), and only
the rules that mark memory as not ordinary (R58) are left. -/
def XlateRule.applies (r : XlateRule) (m : Mode) (s : State) : Bool := m == .m64 || s.pg || r.result == .notOrdinary

/-- `Translate(la, kind, CPL)` (R61): the location of the byte, #PF, or the refusal of memory that is not ordinary
(R58). Where no rule speaks of the access it is the identity (log entry 12). -/
def translateByte (m : Mode) (s : State) (kind : AccessKind) (la : Nat) : Except Stop Nat :=
  match s.translation.find? (fun r => r.covers la kind s.cpl && r.applies m s) with
  | none => .ok la
  | some r => r.answer la

/-! ## The memory primitives (R68) -/

/-- The locations of the bytes at the linear addresses given; of several that fault the first is reported (R68).
DESIGN CHOICE, log entry 28: where one faults and another is not ordinary memory (R58) the first is reported too; the
spec orders faults only. -/
def translateAll (m : Mode) (s : State) (kind : AccessKind) : List Nat → Except Stop (List Nat)
  | [] => .ok []
  | la :: las =>
    match translateByte m s kind la with
    | .error e => .error e
    | .ok p =>
      match translateAll m s kind las with
      | .error e => .error e
      | .ok ps => .ok (p :: ps)

/-- The linear addresses of the four bytes of element `j` of an operand (R52). -/
def elemAddrs (la j : Nat) : List Nat := [la + 4 * j, la + 4 * j + 1, la + 4 * j + 2, la + 4 * j + 3]

/-- Four bytes as an element, the first in bits 7:0 (R51, R52). -/
def elemOfBytes : List Byte → Elem
  | [b0, b1, b2, b3] => b3 ++ b2 ++ b1 ++ b0
  | _ => 0#32

/-- The bytes of an element, lowest address first (R51, R52). -/
def elemBytes (e : Elem) : List Byte :=
  [e.extractLsb' 0 8, e.extractLsb' 8 8, e.extractLsb' 16 8, e.extractLsb' 24 8]

/-- `MemRead(la + 4 j, 4)` (R68). -/
def readElem (m : Mode) (s : State) (la j : Nat) : Except Stop Elem :=
  match translateAll m s .read (elemAddrs la j) with
  | .error e => .error e
  | .ok ps => .ok (elemOfBytes (ps.map s.mem.byte))

/-- An element is active (R171): there is no writemask, or its mask bit is 1. -/
def active : Option KMask → Nat → Bool
  | none, _ => true
  | some k, j => k.getLsbD j

/-- The elements of a memory source, ascending; an inactive one is not read and stands as 0 here (R57, R178).
Without a writemask this is `MemRead(la, VL/8)` (R178). -/
def readElems (m : Mode) (s : State) (la : Nat) (mask : Option KMask) : List Nat → Except Stop (List Elem)
  | [] => .ok []
  | j :: js =>
    if active mask j then
      match readElem m s la j with
      | .error e => .error e
      | .ok e =>
        match readElems m s la mask js with
        | .error e => .error e
        | .ok es => .ok (e :: es)
    else
      match readElems m s la mask js with
      | .error e => .error e
      | .ok es => .ok (0#32 :: es)

/-- The bytes of `[CODE_BASE, CODE_END)` (R66). -/
def State.inProgram (s : State) (la : Nat) : Bool := decide (s.codeBase ≤ la) && decide (la < s.codeEnd)

/-- The linear addresses a store writes: the bytes of its active elements, ascending (R57, R178). -/
def storeAddrs (la : Nat) (mask : Option KMask) : List Nat → List Nat
  | [] => []
  | j :: js => if active mask j then elemAddrs la j ++ storeAddrs la mask js else storeAddrs la mask js

/-- The bytes a store writes, in the order of `storeAddrs`. -/
def storeBytes (src : Vec) (mask : Option KMask) : List Nat → List Byte
  | [] => []
  | j :: js =>
    if active mask j then elemBytes (src.getD j 0#32) ++ storeBytes src mask js else storeBytes src mask js

/-- Insert a byte write by its rank (R68 "in any order"). -/
def insertByRank (c : Nat × Host.Cell) : List (Nat × Host.Cell) → List (Nat × Host.Cell)
  | [] => [c]
  | d :: cs => if c.1 ≤ d.1 then c :: d :: cs else d :: insertByRank c cs

/-- The cells numbered from `i`, each with its rank under draw `d`, in the order of the ranks. -/
def rankCells (d : Nat) (i : Nat) : List Host.Cell → List (Nat × Host.Cell)
  | [] => []
  | c :: cs => insertByRank (Config.writeRank d i, c) (rankCells d (i + 1) cs)

/-- No location occurs twice. -/
def distinctLocations : List Host.Cell → Bool
  | [] => true
  | c :: cs => cs.all (fun d => d.1 != c.1) && distinctLocations cs

/-- The order in which the bytes of one store are written: it can be seen only when two of them share a location,
and is then the free order of draw `d` (R56, R68; log entry 8). -/
def writeOrder (d : Nat) (cells : List Host.Cell) : List Host.Cell :=
  if distinctLocations cells then cells else (rankCells d 0 cells).map Prod.snd

/-- The byte writes of a store (R66, R68, R178): refused when one overlaps the program text; every byte is
translated before any is written. -/
def storeCells (m : Mode) (s : State) (la : Nat) (mask : Option KMask) (js : List Nat) (src : Vec) :
    Except Stop (List Host.Cell) :=
  if (storeAddrs la mask js).any s.inProgram then refuse .storeToProgram
  else
    match translateAll m s .write (storeAddrs la mask js) with
    | .error e => .error e
    | .ok ps => .ok (writeOrder s.draws (ps.zip (storeBytes src mask js)))

end Sys2Proof.Machine
end

