-- ==== Sys2Proof/Machine/Operands.lean ====
section
/-! DEFINITION. What the decoder's step 8 calls a form (R112), built from an instruction; register numbers (R93),
the effective address and segment of a memory operand (R94 to R100), the writemask (R110, R171), and the value
of a destination register (R141, R150, R171). -/

namespace Sys2Proof.Machine

/-- The three encoding shapes (R80). -/
inductive Shape where
  | legacy
  | vex
  | evex
  deriving DecidableEq, Repr

/-- The vector length (R111). -/
inductive VL where
  | vl128
  | vl256
  | vl512
  deriving DecidableEq, Repr

/-- `KL`, the number of elements (R7, R111). -/
def VL.elems : VL → Nat
  | .vl128 => 4
  | .vl256 => 8
  | .vl512 => 16

/-- `VL / 8`, the bytes of a memory operand (R50). -/
def VL.bytes (vl : VL) : Nat := 4 * vl.elems

/-- `Form{shape, VL, opcode, reg number, rm register number or memory operand, aaa, z, len}` of R112, with the
fields that the #UD checks read. `r x b rHi` are the extension bits (R93), `badField` an EVEX field other than
`vvvv`, `z` and `aaa` with a reserved value (R90 (c) to (f)). -/
structure Form where
  shape : Shape
  vl : VL
  ps : List LegacyPrefix
  hasRex : Bool
  r : Bool
  x : Bool
  b : Bool
  rHi : Bool
  vvvv : BitVec 4
  badField : Bool
  z : Bool
  aaa : BitVec 3
  reg : BitVec 3
  rm : RegMem
  len : Nat
  deriving DecidableEq, Repr

/-! ## The form of each encoding -/

/-- R84: without REX, `R = X = B = 0`. -/
def legacyForm (ps : List LegacyPrefix) (rex : Option Rex) (reg : BitVec 3) (rm : RegMem) : Form :=
  { shape := .legacy, vl := .vl128, ps := ps, hasRex := rex.isSome,
    r := rex.any Rex.r, x := rex.any Rex.x, b := rex.any Rex.b, rHi := false,
    vvvv := 0xF#4, badField := false, z := false, aaa := 0#3, reg := reg, rm := rm, len := lenOf 2 ps rex rm }

/-- R85: `X = B = 0`. -/
def vex2Form (vl : VL) (ps : List LegacyPrefix) (rex : Option Rex) (v : Vex2) (reg : BitVec 3) (rm : RegMem) :
    Form :=
  { shape := .vex, vl := vl, ps := ps, hasRex := rex.isSome,
    r := v.r, x := false, b := false, rHi := false,
    vvvv := v.vvvv, badField := false, z := false, aaa := 0#3, reg := reg, rm := rm, len := lenOf 3 ps rex rm }

/-- R86: `W` is ignored. -/
def vex3Form (vl : VL) (ps : List LegacyPrefix) (rex : Option Rex) (v : Vex3) (reg : BitVec 3) (rm : RegMem) :
    Form :=
  { shape := .vex, vl := vl, ps := ps, hasRex := rex.isSome,
    r := v.r, x := v.x, b := v.b, rHi := false,
    vvvv := v.vvvv, badField := false, z := false, aaa := 0#3, reg := reg, rm := rm, len := lenOf 4 ps rex rm }

/-- R90 (c) to (f): `W = 1`, `P1[2] = 0`, `b = 1` or a stored `V'` of 0. -/
def evexBadField (e : Evex) : Bool := e.w || !e.one || e.bc || !e.vHi

/-- R89. -/
def evexForm (vl : VL) (ps : List LegacyPrefix) (rex : Option Rex) (e : Evex) (reg : BitVec 3) (rm : RegMem) :
    Form :=
  { shape := .evex, vl := vl, ps := ps, hasRex := rex.isSome,
    r := e.r, x := e.x, b := e.b, rHi := e.rHi,
    vvvv := e.vvvv, badField := evexBadField e, z := e.z, aaa := e.aaa, reg := reg, rm := rm,
    len := lenOf 5 ps rex rm }

/-- The form of an instruction (R112 step 8). The reserved-length rows name no form (R90 (d)); theirs serves the
length alone. -/
def formOf : Instr → Form
  | .movupsLoad ps rex reg rm => legacyForm ps rex reg rm
  | .movupsStore ps rex reg rm => legacyForm ps rex reg rm
  | .vmovupsXmmLoadVex2 ps rex v reg rm => vex2Form .vl128 ps rex v reg rm
  | .vmovupsXmmLoadVex3 ps rex v reg rm => vex3Form .vl128 ps rex v reg rm
  | .vmovupsXmmStoreVex2 ps rex v reg rm => vex2Form .vl128 ps rex v reg rm
  | .vmovupsXmmStoreVex3 ps rex v reg rm => vex3Form .vl128 ps rex v reg rm
  | .vmovupsYmmLoadVex2 ps rex v reg rm => vex2Form .vl256 ps rex v reg rm
  | .vmovupsYmmLoadVex3 ps rex v reg rm => vex3Form .vl256 ps rex v reg rm
  | .vmovupsYmmStoreVex2 ps rex v reg rm => vex2Form .vl256 ps rex v reg rm
  | .vmovupsYmmStoreVex3 ps rex v reg rm => vex3Form .vl256 ps rex v reg rm
  | .vmovupsXmmLoadEvex ps rex e reg rm => evexForm .vl128 ps rex e reg rm
  | .vmovupsYmmLoadEvex ps rex e reg rm => evexForm .vl256 ps rex e reg rm
  | .vmovupsZmmLoadEvex ps rex e reg rm => evexForm .vl512 ps rex e reg rm
  | .vmovupsXmmStoreEvex ps rex e reg rm => evexForm .vl128 ps rex e reg rm
  | .vmovupsYmmStoreEvex ps rex e reg rm => evexForm .vl256 ps rex e reg rm
  | .vmovupsZmmStoreEvex ps rex e reg rm => evexForm .vl512 ps rex e reg rm
  | .vmovupsReservedLoad ps rex e reg rm => evexForm .vl512 ps rex e reg rm
  | .vmovupsReservedStore ps rex e reg rm => evexForm .vl512 ps rex e reg rm

/-- What an instruction does with its r/m operand: opcode 10 reads it, opcode 11 writes it (R104), and a
reserved-length row does neither. -/
inductive Direction where
  | load
  | store
  | neither
  deriving DecidableEq, Repr

def directionOf : Instr → Direction
  | .movupsLoad _ _ _ _ => .load
  | .movupsStore _ _ _ _ => .store
  | .vmovupsXmmLoadVex2 _ _ _ _ _ => .load
  | .vmovupsXmmLoadVex3 _ _ _ _ _ => .load
  | .vmovupsXmmStoreVex2 _ _ _ _ _ => .store
  | .vmovupsXmmStoreVex3 _ _ _ _ _ => .store
  | .vmovupsYmmLoadVex2 _ _ _ _ _ => .load
  | .vmovupsYmmLoadVex3 _ _ _ _ _ => .load
  | .vmovupsYmmStoreVex2 _ _ _ _ _ => .store
  | .vmovupsYmmStoreVex3 _ _ _ _ _ => .store
  | .vmovupsXmmLoadEvex _ _ _ _ _ => .load
  | .vmovupsYmmLoadEvex _ _ _ _ _ => .load
  | .vmovupsZmmLoadEvex _ _ _ _ _ => .load
  | .vmovupsXmmStoreEvex _ _ _ _ _ => .store
  | .vmovupsYmmStoreEvex _ _ _ _ _ => .store
  | .vmovupsZmmStoreEvex _ _ _ _ _ => .store
  | .vmovupsReservedLoad _ _ _ _ _ => .neither
  | .vmovupsReservedStore _ _ _ _ _ => .neither

/-! ## Register operands (R93) -/

/-- `16 R' + 8 R + ModRM.reg` -/
def Form.regNum (f : Form) : VNum := BitVec.ofBool f.rHi ++ BitVec.ofBool f.r ++ f.reg

/-- `16 X + 8 B + ModRM.rm`, where `X` extends a register number in the EVEX shape only. -/
def Form.rmNum (f : Form) (rm : BitVec 3) : VNum :=
  BitVec.ofBool (f.shape == .evex && f.x) ++ BitVec.ofBool f.b ++ rm

/-- `aaa = 000` names no writemask, any other value `k[aaa]` (R23, R110). -/
def Form.mask (f : Form) (s : State) : Option KMask := if f.aaa = 0#3 then none else some (s.readK f.aaa)

/-- The element numbers `0` to `KL - 1`, ascending. -/
def Form.elems (f : Form) : List Nat := List.range f.vl.elems

/-! ## The address of a memory operand -/

/-- `8 B + base` (R94, R97). -/
def Form.baseNum (f : Form) (base : BitVec 3) : GNum := BitVec.ofBool f.b ++ base

/-- `8 X + index` (R97). -/
def Form.indexNum (f : Form) (index : BitVec 3) : GNum := BitVec.ofBool f.x ++ index

/-- The size `A` of an address (R83, R94). -/
def Form.addrSize (f : Form) (m : Mode) : Nat :=
  match m with
  | .m64 => if f.ps.contains .addrSize then 32 else 64
  | .m32 => 32

/-- The factor `N` of a disp8 (R98): `VL / 8` in the EVEX shape, whose tuple type is Full Mem; else 1. -/
def Form.disp8Scale (f : Form) : Nat :=
  match f.shape with
  | .evex => f.vl.bytes
  | .legacy => 1
  | .vex => 1

/-- A displacement as an address of `A` bits (R98). -/
def Form.dispValue (f : Form) (A : Nat) : Disp → BitVec A
  | .none => 0#A
  | .d8 d => d.signExtend A * BitVec.ofNat A f.disp8Scale
  | .d32 d => d.signExtend A

/-- `x[8 X + index] * 2^scale`; `8 X + index = 4` means no index (R97). -/
def Form.indexValue (f : Form) (s : State) (A : Nat) (scale : BitVec 2) (index : BitVec 3) : BitVec A :=
  if f.indexNum index = 4#4 then 0#A
  else (s.readX (f.indexNum index)).setWidth A * BitVec.ofNat A (2 ^ scale.toNat)

/-- The effective address modulo `2^A` (R94, R95, R97, R99). -/
def Form.effAddr (f : Form) (m : Mode) (s : State) (A : Nat) : MemForm → BitVec A
  | .base rm d => (s.readX (f.baseNum rm)).setWidth A + f.dispValue A d
  | .sib scale index base d =>
    (s.readX (f.baseNum base)).setWidth A + f.indexValue s A scale index + f.dispValue A d
  | .sibNoBase scale index d => f.indexValue s A scale index + d.signExtend A
  | .dispOnly d =>
    match m with
    | .m64 => (s.pc + BitVec.ofNat 64 f.len + d.signExtend 64).setWidth A
    | .m32 => d.signExtend A

/-- The segment of a memory operand: SS by default when the base register is number 4 or 5, else DS (R60, R100). -/
def Form.defaultSegment (f : Form) : MemForm → LegacyPrefix
  | .base rm _ => if f.baseNum rm = 4#4 ∨ f.baseNum rm = 5#4 then .ss else .ds
  | .sib _ _ base _ => if f.baseNum base = 4#4 ∨ f.baseNum base = 5#4 then .ss else .ds
  | .sibNoBase _ _ _ => .ds
  | .dispOnly _ => .ds

/-- The override prefixes that count in a mode (R83, R100): in M64 only FS and GS. -/
def overrides (m : Mode) (p : LegacyPrefix) : Bool :=
  match m with
  | .m64 => p == .fs || p == .gs
  | .m32 => p.isSegment

/-- The segment used (R100). -/
def Form.segment (f : Form) (m : Mode) (mf : MemForm) : LegacyPrefix :=
  (f.ps.find? (overrides m)).getD (f.defaultSegment mf)

/-- `segbase` (R60): the FS and GS bases, else 0. -/
def State.segBase (s : State) (seg : LegacyPrefix) : Nat :=
  if seg = .fs then s.fsBase.toNat else if seg = .gs then s.gsBase.toNat else 0

/-- `la = (segbase + ea) mod 2^64` in M64, `mod 2^32` in M32 (R59). -/
def Form.linearAddr (f : Form) (m : Mode) (s : State) (mf : MemForm) : Nat :=
  (s.segBase (f.segment m mf) + (f.effAddr m s (f.addrSize m) mf).toNat) % 2 ^ addrBits m

/-- Some byte of the operand has a non-canonical linear address (R59); M64 only. -/
def Form.nonCanonical (f : Form) (m : Mode) (s : State) (la : Nat) : Bool :=
  m == .m64 && (List.range f.vl.bytes).any (fun b => !canonical s.vaBits (la + b))

/-! ## The value of a destination register -/

/-- R141: bits 127:0 from the source, the rest as they were. -/
def mergeLow (old src : Vec) : Vec := Vector.ofFn fun j => if j.val < 4 then src[j] else old[j]

/-- R150: bits `VL-1:0` from the source, the rest 0. -/
def zeroAbove (vl : VL) (src : Vec) : Vec := Vector.ofFn fun j => if j.val < vl.elems then src[j] else 0#32

/-- `RegResult(old, S)` of R171. -/
def regResult (vl : VL) (mask : Option KMask) (z : Bool) (old src : Vec) : Vec :=
  Vector.ofFn fun j =>
    if j.val < vl.elems then
      (if active mask j.val then src[j] else if z then 0#32 else old[j])
    else 0#32

/-- The new value of a destination register from its old value and the source elements. -/
def Form.result (f : Form) (s : State) (old src : Vec) : Vec :=
  match f.shape with
  | .legacy => mergeLow old src
  | .vex => zeroAbove f.vl src
  | .evex => regResult f.vl (f.mask s) f.z old src

end Sys2Proof.Machine
end

