-- ==== Sys2Proof/Machine/Stages.lean ====
section
/-! DEFINITION. The stages of R140 that all forms share, and the two instruction patterns over them: a form of
opcode 10 (load or register copy) and a form of opcode 11 (store or register copy). -/

namespace Sys2Proof.Machine

/-- Steps 5 and 6 of R112: LOCK; 66, F2, F3 or REX before VEX or EVEX; `vvvv`; the EVEX fields; `z = 1` without a
writemask; `z = 1` with a memory destination (R83, R87, R88, R90). -/
def Form.decodeUd (f : Form) (store : Bool) : Bool :=
  f.ps.contains .lock
    || (f.shape != .legacy && (f.hasRex || f.ps.any LegacyPrefix.isMandatory))
    || f.vvvv != 0xF#4 || f.badField
    || (f.z && f.aaa == 0#3) || (f.z && store && f.rm.isMem)

/-- Stage 1, what is left of it after the decoder (R112): 16-bit addressing is refused at step 4 (R96); the length
comes before the #UD causes (R80, R220); in M32 an extension bit is refused last (step 7). -/
def decodeChecks (f : Form) (store : Bool) (m : Mode) : Except Stop Unit :=
  if m = .m32 ∧ f.rm.isMem = true ∧ f.ps.contains .addrSize = true then refuse .addressing16
  else if 15 < f.len then raise .generalProtection
  else if f.decodeUd store then raise .invalidOpcode
  else if m = .m32 ∧ (f.r || f.x || f.b || f.rHi) = true then refuse .extensionBit
  else .ok ()

/-- R212, the feature and enable columns: the form may run in this state. -/
def Form.enabled (f : Form) (s : State) : Bool :=
  match f.shape with
  | .legacy => s.features.sse && !s.em && s.osfxsr
  | .vex => s.features.avx && s.osxsave && s.avxEnabled
  | .evex =>
    s.features.avx512f && (f.vl == .vl512 || s.features.avx512vl)
      && s.osxsave && s.avxEnabled && s.avx512Enabled

/-- Stage 2 (R212). -/
def enableChecks (f : Form) (s : State) : Except Stop Unit :=
  if f.enabled s then .ok () else raise .invalidOpcode

/-- Stage 3 (R213). -/
def taskSwitchCheck (s : State) : Except Stop Unit :=
  if s.ts then raise .deviceNotAvailable else .ok ()

/-- Stages 1 to 3. -/
def frontChecks (f : Form) (store : Bool) (s : State) : Except Stop Mode := do
  let m ← launchMode s
  decodeChecks f store m
  enableChecks f s
  taskSwitchCheck s
  .ok m

/-- R59: the operand wraps past the top of the effective-address space or of the linear space. -/
def Form.wraps (f : Form) (m : Mode) (s : State) (mf : MemForm) : Bool :=
  decide (2 ^ f.addrSize m < (f.effAddr m s (f.addrSize m) mf).toNat + f.vl.bytes)
    || decide (2 ^ addrBits m < f.linearAddr m s mf + f.vl.bytes)

/-- R54: alignment checking is on and the address is not a multiple of `VL / 8`; `#AC(0)` is then drawn. -/
def Form.misaligned (f : Form) (m : Mode) (s : State) (mf : MemForm) : Bool :=
  s.alignmentChecked && f.linearAddr m s mf % f.vl.bytes != 0

/-- Stage 4: the linear address of a memory operand, after the range checks (R59, R214, R215) and the alignment
check (R54, R217). -/
def memAddress (f : Form) (m : Mode) (s : State) (mf : MemForm) : Except Stop Nat :=
  if f.wraps m s mf then refuse .operandWraps
  else if f.nonCanonical m s (f.linearAddr m s mf) then
    (if f.segment m mf = .ss then raise .stackSegment else raise .generalProtection)
  else if f.misaligned m s mf && Config.acDraw s.draws then raise .alignmentCheck
  else .ok (f.linearAddr m s mf)

/-- Stage 6: `pc + len` modulo `2^64` or `2^32`, refused when the instruction runs past the top of the address
space or the next `pc` is not canonical (R25). -/
def nextPc (m : Mode) (s : State) (len : Nat) : Except Stop Word :=
  if 2 ^ addrBits m < s.ip m + len then refuse .pcOutOfRange
  else if m = .m64 ∧ canonical s.vaBits ((s.ip m + len) % 2 ^ addrBits m) = false then refuse .pcOutOfRange
  else .ok (BitVec.ofNat 64 ((s.ip m + len) % 2 ^ addrBits m))

/-- Stage 6 on the state after the data movement (R25, R33). -/
def finish (m : Mode) (f : Form) (s : State) : Except Stop State :=
  match nextPc m s f.len with
  | .error e => .error e
  | .ok pc => .ok (s.advance pc)

/-- A form of opcode 10: `ModRM:reg` from `ModRM:r/m` (R140, R141, R151, R153, R178 LoadOrCopy). -/
def loadOrCopy (f : Form) (s : State) : Except Stop State := do
  let m ← frontChecks f false s
  match f.rm with
  | .reg rm => finish m f (s.writeV f.regNum (f.result s (s.readV f.regNum) (s.readV (f.rmNum rm))))
  | .mem mf => do
    let la ← memAddress f m s mf
    let es ← readElems m s la (f.mask s) f.elems
    finish m f (s.writeV f.regNum (f.result s (s.readV f.regNum) (vecOfElems es)))

/-- A form of opcode 11: `ModRM:r/m` from `ModRM:reg` (R140, R142, R152, R154, R178 StoreOrCopy). -/
def storeOrCopy (f : Form) (s : State) : Except Stop State := do
  let m ← frontChecks f true s
  match f.rm with
  | .reg rm => finish m f (s.writeV (f.rmNum rm) (f.result s (s.readV (f.rmNum rm)) (s.readV f.regNum)))
  | .mem mf => do
    let la ← memAddress f m s mf
    let cells ← storeCells m s la (f.mask s) f.elems (s.readV f.regNum)
    finish m f (s.setMem (s.mem.writeCells cells))

/-- EVEX `L'L = 11`: always #UD (R90 (d)), after the length check (R112 step 4, R220). -/
def reservedLength (f : Form) (s : State) : Except Stop State := do
  let m ← launchMode s
  if m = .m32 ∧ f.rm.isMem = true ∧ f.ps.contains .addrSize = true then refuse .addressing16
  else if 15 < f.len then raise .generalProtection
  else raise .invalidOpcode

end Sys2Proof.Machine
end

