-- ==== Sys2Proof/Machine/Evex.lean ====
section
/-! DEFINITION. The EVEX forms (42_vmovups_evex.md) and the two rows for the reserved EVEX length (R90 (d)). -/

namespace Sys2Proof.Machine

/-- R172: `VMOVUPS xmm1 k1 z, xmm2/m128`, EVEX.128. -/
def execVmovupsXmmLoadEvex (ps : List LegacyPrefix) (rex : Option Rex) (evex : Evex) (reg : BitVec 3) (rm : RegMem)
    (s : State) : Host.Outcome State Fault Refusal :=
  outcome (loadOrCopy (evexForm .vl128 ps rex evex reg rm) s)

/-- R173: `VMOVUPS ymm1 k1 z, ymm2/m256`, EVEX.256. -/
def execVmovupsYmmLoadEvex (ps : List LegacyPrefix) (rex : Option Rex) (evex : Evex) (reg : BitVec 3) (rm : RegMem)
    (s : State) : Host.Outcome State Fault Refusal :=
  outcome (loadOrCopy (evexForm .vl256 ps rex evex reg rm) s)

/-- R174: `VMOVUPS zmm1 k1 z, zmm2/m512`, EVEX.512. -/
def execVmovupsZmmLoadEvex (ps : List LegacyPrefix) (rex : Option Rex) (evex : Evex) (reg : BitVec 3) (rm : RegMem)
    (s : State) : Host.Outcome State Fault Refusal :=
  outcome (loadOrCopy (evexForm .vl512 ps rex evex reg rm) s)

/-- R175: `VMOVUPS xmm2/m128 k1 z, xmm1`, EVEX.128. -/
def execVmovupsXmmStoreEvex (ps : List LegacyPrefix) (rex : Option Rex) (evex : Evex) (reg : BitVec 3) (rm : RegMem)
    (s : State) : Host.Outcome State Fault Refusal :=
  outcome (storeOrCopy (evexForm .vl128 ps rex evex reg rm) s)

/-- R176: `VMOVUPS ymm2/m256 k1 z, ymm1`, EVEX.256. -/
def execVmovupsYmmStoreEvex (ps : List LegacyPrefix) (rex : Option Rex) (evex : Evex) (reg : BitVec 3) (rm : RegMem)
    (s : State) : Host.Outcome State Fault Refusal :=
  outcome (storeOrCopy (evexForm .vl256 ps rex evex reg rm) s)

/-- R177: `VMOVUPS zmm2/m512 k1 z, zmm1`, EVEX.512. -/
def execVmovupsZmmStoreEvex (ps : List LegacyPrefix) (rex : Option Rex) (evex : Evex) (reg : BitVec 3) (rm : RegMem)
    (s : State) : Host.Outcome State Fault Refusal :=
  outcome (storeOrCopy (evexForm .vl512 ps rex evex reg rm) s)

/-- R90 (d): EVEX `L'L = 11`, opcode 10; no form, always #UD. The vector length given here is not read. -/
def execVmovupsReservedLoad (ps : List LegacyPrefix) (rex : Option Rex) (evex : Evex) (reg : BitVec 3) (rm : RegMem)
    (s : State) : Host.Outcome State Fault Refusal :=
  outcome (reservedLength (evexForm .vl512 ps rex evex reg rm) s)

/-- R90 (d): EVEX `L'L = 11`, opcode 11; no form, always #UD. The vector length given here is not read. -/
def execVmovupsReservedStore (ps : List LegacyPrefix) (rex : Option Rex) (evex : Evex) (reg : BitVec 3) (rm : RegMem)
    (s : State) : Host.Outcome State Fault Refusal :=
  outcome (reservedLength (evexForm .vl512 ps rex evex reg rm) s)

end Sys2Proof.Machine
end

