-- ==== Sys2Proof/Machine/LegacySse.lean ====
section
/-! DEFINITION. The legacy SSE forms (40_movups_legacy_sse.md). -/

namespace Sys2Proof.Machine

/-- R141: `MOVUPS xmm1, xmm2/m128`, `NP 0F 10 /r`. -/
def execMovupsLoad (ps : List LegacyPrefix) (rex : Option Rex) (reg : BitVec 3) (rm : RegMem)
    (s : State) : Host.Outcome State Fault Refusal :=
  outcome (loadOrCopy (legacyForm ps rex reg rm) s)

/-- R142: `MOVUPS xmm2/m128, xmm1`, `NP 0F 11 /r`. -/
def execMovupsStore (ps : List LegacyPrefix) (rex : Option Rex) (reg : BitVec 3) (rm : RegMem)
    (s : State) : Host.Outcome State Fault Refusal :=
  outcome (storeOrCopy (legacyForm ps rex reg rm) s)

end Sys2Proof.Machine
end

