-- ==== Sys2Proof/Machine/Vex.lean ====
section
/-! DEFINITION. The VEX forms (41_vmovups_vex.md), each in its two spellings. -/

namespace Sys2Proof.Machine

/-- R151: `VMOVUPS xmm1, xmm2/m128`, VEX.128, 2-byte spelling. -/
def execVmovupsXmmLoadVex2 (ps : List LegacyPrefix) (rex : Option Rex) (vex : Vex2) (reg : BitVec 3) (rm : RegMem)
    (s : State) : Host.Outcome State Fault Refusal :=
  outcome (loadOrCopy (vex2Form .vl128 ps rex vex reg rm) s)

/-- R151: `VMOVUPS xmm1, xmm2/m128`, VEX.128, 3-byte spelling. -/
def execVmovupsXmmLoadVex3 (ps : List LegacyPrefix) (rex : Option Rex) (vex : Vex3) (reg : BitVec 3) (rm : RegMem)
    (s : State) : Host.Outcome State Fault Refusal :=
  outcome (loadOrCopy (vex3Form .vl128 ps rex vex reg rm) s)

/-- R152: `VMOVUPS xmm2/m128, xmm1`, VEX.128, 2-byte spelling. -/
def execVmovupsXmmStoreVex2 (ps : List LegacyPrefix) (rex : Option Rex) (vex : Vex2) (reg : BitVec 3) (rm : RegMem)
    (s : State) : Host.Outcome State Fault Refusal :=
  outcome (storeOrCopy (vex2Form .vl128 ps rex vex reg rm) s)

/-- R152: `VMOVUPS xmm2/m128, xmm1`, VEX.128, 3-byte spelling. -/
def execVmovupsXmmStoreVex3 (ps : List LegacyPrefix) (rex : Option Rex) (vex : Vex3) (reg : BitVec 3) (rm : RegMem)
    (s : State) : Host.Outcome State Fault Refusal :=
  outcome (storeOrCopy (vex3Form .vl128 ps rex vex reg rm) s)

/-- R153: `VMOVUPS ymm1, ymm2/m256`, VEX.256, 2-byte spelling. -/
def execVmovupsYmmLoadVex2 (ps : List LegacyPrefix) (rex : Option Rex) (vex : Vex2) (reg : BitVec 3) (rm : RegMem)
    (s : State) : Host.Outcome State Fault Refusal :=
  outcome (loadOrCopy (vex2Form .vl256 ps rex vex reg rm) s)

/-- R153: `VMOVUPS ymm1, ymm2/m256`, VEX.256, 3-byte spelling. -/
def execVmovupsYmmLoadVex3 (ps : List LegacyPrefix) (rex : Option Rex) (vex : Vex3) (reg : BitVec 3) (rm : RegMem)
    (s : State) : Host.Outcome State Fault Refusal :=
  outcome (loadOrCopy (vex3Form .vl256 ps rex vex reg rm) s)

/-- R154: `VMOVUPS ymm2/m256, ymm1`, VEX.256, 2-byte spelling. -/
def execVmovupsYmmStoreVex2 (ps : List LegacyPrefix) (rex : Option Rex) (vex : Vex2) (reg : BitVec 3) (rm : RegMem)
    (s : State) : Host.Outcome State Fault Refusal :=
  outcome (storeOrCopy (vex2Form .vl256 ps rex vex reg rm) s)

/-- R154: `VMOVUPS ymm2/m256, ymm1`, VEX.256, 3-byte spelling. -/
def execVmovupsYmmStoreVex3 (ps : List LegacyPrefix) (rex : Option Rex) (vex : Vex3) (reg : BitVec 3) (rm : RegMem)
    (s : State) : Host.Outcome State Fault Refusal :=
  outcome (storeOrCopy (vex3Form .vl256 ps rex vex reg rm) s)

end Sys2Proof.Machine
end

