-- ==== Sys2Proof/Machine/Dispatch.lean ====
section
/-! DEFINITION. exec: one arm per constructor of Instr, each one call of the instruction's meaning. -/

namespace Sys2Proof.Machine

def exec (i : Instr) (s : State) : Host.Outcome State Fault Refusal :=
  match i with
  | .movupsLoad ps rex reg rm => Sys2Proof.Machine.execMovupsLoad ps rex reg rm s
  | .movupsStore ps rex reg rm => Sys2Proof.Machine.execMovupsStore ps rex reg rm s
  | .vmovupsXmmLoadVex2 ps rex vex reg rm => Sys2Proof.Machine.execVmovupsXmmLoadVex2 ps rex vex reg rm s
  | .vmovupsXmmLoadVex3 ps rex vex reg rm => Sys2Proof.Machine.execVmovupsXmmLoadVex3 ps rex vex reg rm s
  | .vmovupsXmmStoreVex2 ps rex vex reg rm => Sys2Proof.Machine.execVmovupsXmmStoreVex2 ps rex vex reg rm s
  | .vmovupsXmmStoreVex3 ps rex vex reg rm => Sys2Proof.Machine.execVmovupsXmmStoreVex3 ps rex vex reg rm s
  | .vmovupsYmmLoadVex2 ps rex vex reg rm => Sys2Proof.Machine.execVmovupsYmmLoadVex2 ps rex vex reg rm s
  | .vmovupsYmmLoadVex3 ps rex vex reg rm => Sys2Proof.Machine.execVmovupsYmmLoadVex3 ps rex vex reg rm s
  | .vmovupsYmmStoreVex2 ps rex vex reg rm => Sys2Proof.Machine.execVmovupsYmmStoreVex2 ps rex vex reg rm s
  | .vmovupsYmmStoreVex3 ps rex vex reg rm => Sys2Proof.Machine.execVmovupsYmmStoreVex3 ps rex vex reg rm s
  | .vmovupsXmmLoadEvex ps rex evex reg rm => Sys2Proof.Machine.execVmovupsXmmLoadEvex ps rex evex reg rm s
  | .vmovupsYmmLoadEvex ps rex evex reg rm => Sys2Proof.Machine.execVmovupsYmmLoadEvex ps rex evex reg rm s
  | .vmovupsZmmLoadEvex ps rex evex reg rm => Sys2Proof.Machine.execVmovupsZmmLoadEvex ps rex evex reg rm s
  | .vmovupsXmmStoreEvex ps rex evex reg rm => Sys2Proof.Machine.execVmovupsXmmStoreEvex ps rex evex reg rm s
  | .vmovupsYmmStoreEvex ps rex evex reg rm => Sys2Proof.Machine.execVmovupsYmmStoreEvex ps rex evex reg rm s
  | .vmovupsZmmStoreEvex ps rex evex reg rm => Sys2Proof.Machine.execVmovupsZmmStoreEvex ps rex evex reg rm s
  | .vmovupsReservedLoad ps rex evex reg rm => Sys2Proof.Machine.execVmovupsReservedLoad ps rex evex reg rm s
  | .vmovupsReservedStore ps rex evex reg rm => Sys2Proof.Machine.execVmovupsReservedStore ps rex evex reg rm s

end Sys2Proof.Machine
end

