-- ==== Sys2Proof/Machine/Fetch.lean ====
section
/-! DEFINITION. Fetching and decoding the instruction at pc (R25, R80, R112, R216, R266). -/

namespace Sys2Proof.Machine

/-- The bytes at linear address `la` onward, at most `n`, as far as they can be fetched, and why the next one
cannot: the top of the address space (R25), the end of the program text (R266, log entry 19), or what `Translate`
answers with kind `fetch` (R216). -/
def fetchBytes (m : Mode) (s : State) : Nat → Nat → List Byte × Stop
  | 0, _ => ([], .refused .pcOutOfRange)
  | n + 1, la =>
    if 2 ^ addrBits m ≤ la then ([], .refused .pcOutOfRange)
    else if s.codeEnd ≤ la then ([], .refused .cutInstruction)
    else
      match translateByte m s .fetch la with
      | .error e => ([], e)
      | .ok p => (s.mem.byte p :: (fetchBytes m s n (la + 1)).1, (fetchBytes m s n (la + 1)).2)

/-- Where a step may start (R25, R266). A program may end at the very top of the address space, where R25 wraps the
last `pc` to 0: `pc` is compared with `CODE_END` modulo `2^64` or `2^32` (DESIGN CHOICE, log entry 23). -/
def pcCheck (m : Mode) (s : State) : Except Stop Unit :=
  if m = .m64 ∧ canonical s.vaBits (s.ip m) = false then refuse .pcOutOfRange
  else if s.inProgram (s.ip m) then .ok ()
  else if s.ip m = s.codeEnd % 2 ^ addrBits m then refuse .runComplete
  else refuse .outsideProgram

/-- The refusal of the machine for a refusal of the decoder; an instruction that needs a byte which cannot be
fetched stops for the reason that byte cannot be. -/
def decodeStop (why : Stop) : DecodeRefusal → Stop
  | .prefixConflict => .refused .prefixConflict
  | .misplacedRex => .refused .misplacedRex
  | .notMovups => .refused .notMovups
  | .addressing16 => .refused .addressing16
  | .truncated => why

/-- The instruction at `pc` (stage 1 of R140). -/
def fetchDecode (s : State) : Except Stop Instr := do
  let m ← launchMode s
  pcCheck m s
  let w := fetchBytes m s maxEncodedLen (s.ip m)
  match decode m w.1 with
  | .ok (i, _) => .ok i
  | .error e => .error (decodeStop w.2 e)

/-- Bits of a control word set. -/
def setBits (w : Word) (ns : List Nat) : Word := ns.foldl (fun w n => w ||| BitVec.twoPow 64 n) w

/-- Bits of a control word cleared. -/
def clearBits (w : Word) (ns : List Nat) : Word := ns.foldl (fun w n => w &&& ~~~ BitVec.twoPow 64 n) w

/-- The launch into M64 with every form usable: the conditions of R261 and the premises of R262, for a state whose
own mode is not admitted (the state after reset, R260). Log entry 1. -/
def State.launch64 (s : State) : State :=
  { s with
    cr0 := clearBits (setBits s.cr0 [0, 31]) [2, 3]
    cr4 := setBits s.cr4 [9, 18]
    xcr0 := setBits s.xcr0 [0, 1, 2, 5, 6, 7]
    efer := setBits s.efer [10]
    rflags := clearBits s.rflags [8, 17]
    csL := true
    csD := false }

/-- Store bytes where the fetch at linear address `la` onward reads them; a byte that cannot be fetched is not
stored. -/
def placeBytes (m : Mode) (s : State) : Nat → List Byte → Memory → Memory
  | _, [], mem => mem
  | la, b :: bs, mem =>
    placeBytes m s (la + 1) bs
      (match translateByte m s .fetch la with
       | .ok p => mem.write p b
       | .error _ => mem)

/-- The program of one instruction, given as bytes, at `pc` (R266): its bytes and `[CODE_BASE, CODE_END)`. -/
def State.placeProgram (s : State) (m : Mode) (bs : List Byte) : State :=
  { s with
    mem := placeBytes m s (s.ip m) (bs.take (2 ^ addrBits m - s.ip m)) s.mem
    codeBase := s.ip m
    codeEnd := s.ip m + (match decode m bs with
      | .ok (i, _) => i.len
      | .error _ => bs.length) }

/-- The launch of a one-instruction program from any state (R262; log entry 1): a state whose mode is admitted
keeps everything but the program; any other is first put into M64 by `launch64`. -/
def State.launchWord (s : State) (bs : List Byte) : State :=
  match launchMode s with
  | .ok m => s.placeProgram m bs
  | .error _ => s.launch64.placeProgram .m64 bs

end Sys2Proof.Machine
end

