-- ==== Sys2Proof/Machine/Step.lean ====
section
/-! DEFINITION. One step of the machine (R9, R140), and the host's way to have one instruction run next. -/

namespace Sys2Proof.Machine

/-- Fetch, decode, execute (R140). -/
def step (s : State) : Host.Outcome State Fault Refusal :=
  match fetchDecode s with
  | .ok i => exec i s
  | .error e => outcome (.error e)

/-- The state with the instruction of a table word launched at its `pc` (log entries 1 and 24). -/
def State.withFetchWord (s : State) (nbits w : Nat) : State := s.launchWord (tableWordBytes nbits w)

end Sys2Proof.Machine
end

