-- ==== Sys2Proof/Safety.lean ====
section
/-! DEFINITION. The words claims are stated in: when an instruction is ready to complete (R107, R212, R213, R261),
when its memory operand is reachable (R54, R57, R59, R61), what its completion leaves (R33), and the invariant of
the machine. Each is written from the rules, not from the stages of exec. -/

namespace Sys2Proof.Safety

open Sys2Proof.Machine

/-! ## Registers -/

/-- Vector register number `16 hi + 8 mid + lo` (R93). -/
def vnum (hi mid : Bool) (lo : BitVec 3) : VNum := BitVec.ofNat 5 (16 * hi.toNat + 8 * mid.toNat + lo.toNat)

/-- The writemask that `aaa` names: none for 000, else `k[aaa]` (R110). -/
def maskOf (s : State) (aaa : BitVec 3) : Option KMask := if aaa = 0#3 then none else some (s.readK aaa)

/-! ## The bytes before the escape, VEX or EVEX byte -/

/-- Legacy prefix bytes without a conflict, and in M64 possibly a REX byte (R83, R84, R112 steps 1 and 2). -/
def Opening (m : Mode) (ps : List LegacyPrefix) (rex : Option Rex) (pre : List Byte) : Prop :=
  prefixesOk ps = true ∧ (m = .m32 → rex = none) ∧
    pre = ps.map LegacyPrefix.toByte ++ (rex.map Rex.toByte).toList

/-! ## When an instruction is ready -/

/-- R88 (a), R90 (b): none of 66, F2, F3, F0 and no REX byte before VEX or EVEX. -/
def PlainPrefixes (ps : List LegacyPrefix) (rex : Option Rex) : Prop :=
  rex = none ∧ .lock ∉ ps ∧ .opSize ∉ ps ∧ .rep ∉ ps ∧ .repne ∉ ps

/-- R87, R90: the EVEX fields hold no reserved value; in M32 no extension bit (R90 (i)). -/
def EvexFieldsLegal (m : Mode) (e : Evex) : Prop :=
  e.vvvv = 0xF#4 ∧ e.w = false ∧ e.one = true ∧ e.bc = false ∧ e.vHi = true ∧ (e.z = true → e.aaa ≠ 0#3) ∧
    (m = .m32 → e.b = false ∧ e.rHi = false)

def EvexLoadLegal (m : Mode) (ps : List LegacyPrefix) (rex : Option Rex) (e : Evex) : Prop :=
  PlainPrefixes ps rex ∧ EvexFieldsLegal m e

/-- R90 (h): no zeroing-masking of a memory destination. -/
def EvexStoreLegal (m : Mode) (ps : List LegacyPrefix) (rex : Option Rex) (e : Evex) (rm : RegMem) : Prop :=
  PlainPrefixes ps rex ∧ EvexFieldsLegal m e ∧ (e.z = true → rm.isMem = false)

def Vex2Legal (ps : List LegacyPrefix) (rex : Option Rex) (v : Vex2) : Prop :=
  PlainPrefixes ps rex ∧ v.vvvv = 0xF#4

/-- R88 (c): in M32 `B̄ = 1` too. -/
def Vex3Legal (m : Mode) (ps : List LegacyPrefix) (rex : Option Rex) (v : Vex3) : Prop :=
  PlainPrefixes ps rex ∧ v.vvvv = 0xF#4 ∧ (m = .m32 → v.b = false)

/-- None of the reserved and illegal encodings of R107 but the length; no reserved-length row is legal. -/
def Legal (m : Mode) : Instr → Prop
  | .movupsLoad ps _ _ _ => .lock ∉ ps
  | .movupsStore ps _ _ _ => .lock ∉ ps
  | .vmovupsXmmLoadVex2 ps rex v _ _ => Vex2Legal ps rex v
  | .vmovupsXmmLoadVex3 ps rex v _ _ => Vex3Legal m ps rex v
  | .vmovupsXmmStoreVex2 ps rex v _ _ => Vex2Legal ps rex v
  | .vmovupsXmmStoreVex3 ps rex v _ _ => Vex3Legal m ps rex v
  | .vmovupsYmmLoadVex2 ps rex v _ _ => Vex2Legal ps rex v
  | .vmovupsYmmLoadVex3 ps rex v _ _ => Vex3Legal m ps rex v
  | .vmovupsYmmStoreVex2 ps rex v _ _ => Vex2Legal ps rex v
  | .vmovupsYmmStoreVex3 ps rex v _ _ => Vex3Legal m ps rex v
  | .vmovupsXmmLoadEvex ps rex e _ _ => EvexLoadLegal m ps rex e
  | .vmovupsYmmLoadEvex ps rex e _ _ => EvexLoadLegal m ps rex e
  | .vmovupsZmmLoadEvex ps rex e _ _ => EvexLoadLegal m ps rex e
  | .vmovupsXmmStoreEvex ps rex e _ rm => EvexStoreLegal m ps rex e rm
  | .vmovupsYmmStoreEvex ps rex e _ rm => EvexStoreLegal m ps rex e rm
  | .vmovupsZmmStoreEvex ps rex e _ rm => EvexStoreLegal m ps rex e rm
  | .vmovupsReservedLoad _ _ _ _ _ => False
  | .vmovupsReservedStore _ _ _ _ _ => False

/-- The feature and enable conditions of R212 for a form. -/
def Usable (f : Form) (s : State) : Prop :=
  match f.shape with
  | .legacy => s.features.sse = true ∧ s.em = false ∧ s.osfxsr = true
  | .vex => s.features.avx = true ∧ s.osxsave = true ∧ s.avxEnabled = true
  | .evex =>
    s.features.avx512f = true ∧ (f.vl ≠ .vl512 → s.features.avx512vl = true) ∧
      s.osxsave = true ∧ s.avxEnabled = true ∧ s.avx512Enabled = true

/-- R25: the instruction does not run past the top of the address space, and in M64 the next pc is canonical. -/
def NextPcFits (m : Mode) (s : State) (len : Nat) : Prop :=
  match m with
  | .m64 => s.pc.toNat + len ≤ 2 ^ 64 ∧ canonical s.vaBits ((s.pc.toNat + len) % 2 ^ 64) = true
  | .m32 => s.pc.toNat % 2 ^ 32 + len ≤ 2 ^ 32

/-- The launch is admitted, the encoding belongs to the mode and is legal. -/
def Admitted (i : Instr) (m : Mode) (s : State) : Prop :=
  launchMode s = .ok m ∧ i.wf m = true ∧ Legal m i ∧ i.len ≤ 15

/-- Nothing but its memory operand can keep the instruction from completing. -/
def Ready (i : Instr) (m : Mode) (s : State) : Prop :=
  Admitted i m s ∧ Usable (formOf i) s ∧ s.ts = false ∧ NextPcFits m s i.len

/-! ## When a memory operand is reachable -/

/-- R59: the operand wraps past no address space. -/
def Fits (f : Form) (m : Mode) (s : State) (mf : MemForm) : Prop :=
  (f.effAddr m s (f.addrSize m) mf).toNat + f.vl.bytes ≤ 2 ^ f.addrSize m ∧
    f.linearAddr m s mf + f.vl.bytes ≤ 2 ^ addrBits m

/-- R59: in M64 every byte of the operand is canonical. -/
def CanonicalOperand (f : Form) (m : Mode) (s : State) (mf : MemForm) : Prop :=
  m = .m64 → ∀ b < f.vl.bytes, canonical s.vaBits (f.linearAddr m s mf + b) = true

/-- R54: `#AC` can be drawn: checking is on and the address is not a multiple of the operand's size. -/
def AcPossible (f : Form) (m : Mode) (s : State) (mf : MemForm) : Prop :=
  s.am = true ∧ s.ac = true ∧ s.cpl = 3#2 ∧ ¬ f.vl.bytes ∣ f.linearAddr m s mf

/-- Stage 4 passes: where `#AC` is possible it is not drawn (R54 "if false the form proceeds"). -/
def Addressable (f : Form) (m : Mode) (s : State) (mf : MemForm) : Prop :=
  Fits f m s mf ∧ CanonicalOperand f m s mf ∧ (AcPossible f m s mf → Config.acDraw s.draws = false)

/-- Every byte of an active element has a location for reading (R57, R61). -/
def Readable (vl : VL) (m : Mode) (s : State) (la : Nat) (mask : Option KMask) : Prop :=
  ∀ j < vl.elems, active mask j = true → ∀ c < 4, ∃ p, translateByte m s .read (la + 4 * j + c) = .ok p

/-- Every byte of an active element has a location for writing and lies outside the program text (R57, R61, R66). -/
def Writable (vl : VL) (m : Mode) (s : State) (la : Nat) (mask : Option KMask) : Prop :=
  ∀ j < vl.elems, active mask j = true → ∀ c < 4,
    s.inProgram (la + 4 * j + c) = false ∧ ∃ p, translateByte m s .write (la + 4 * j + c) = .ok p

/-- A memory operand, if there is one, is addressable and can be read or written as the instruction asks. -/
def OperandReady (i : Instr) (m : Mode) (s : State) : Prop :=
  ∀ mf, (formOf i).rm = .mem mf → Addressable (formOf i) m s mf ∧
    (directionOf i = .load → Readable (formOf i).vl m s ((formOf i).linearAddr m s mf) ((formOf i).mask s)) ∧
    (directionOf i = .store → Writable (formOf i).vl m s ((formOf i).linearAddr m s mf) ((formOf i).mask s))

/-! ## What a completion leaves -/

/-- R33: nothing but vector register `d`, pc and the model's draw counter differs. -/
def OnlyVectorChanged (s t : State) (d : VNum) : Prop :=
  t = { s with v := t.v, pc := t.pc, draws := t.draws } ∧ ∀ n, n ≠ d → t.readV n = s.readV n

/-- R33: nothing but memory, pc and the model's draw counter differs. -/
def OnlyMemoryChanged (s t : State) : Prop := t = { s with mem := t.mem, pc := t.pc, draws := t.draws }

/-- R25: `pc + len` modulo `2^64` in M64; modulo `2^32` in M32, with `pc[63:32] = 0`. -/
def AdvancesPc (m : Mode) (s t : State) (len : Nat) : Prop :=
  match m with
  | .m64 => t.pc = s.pc + BitVec.ofNat 64 len
  | .m32 => t.pc = (s.pc.setWidth 32 + BitVec.ofNat 32 len).setWidth 64

/-- A source element taken from a vector register. -/
def FromReg (s : State) (n : VNum) (j : Fin 16) (e : Elem) : Prop := e = (s.readV n)[j]

/-- A source element taken from the memory operand at `la`, bit for bit (R51, R52, R143). -/
def FromMem (m : Mode) (s : State) (la : Nat) (j : Fin 16) (e : Elem) : Prop :=
  ∀ c < 4, ∃ p, translateByte m s .read (la + 4 * j.val + c) = .ok p ∧ e.extractLsb' (8 * c) 8 = s.mem.byte p

/-- R141: elements 0 to 3 from the source, the rest as they were. -/
def KeepsUpper (src : Fin 16 → Elem → Prop) (old new : Vec) : Prop :=
  ∀ j : Fin 16, if j.val < 4 then src j new[j] else new[j] = old[j]

/-- R150: elements below `KL` from the source, the rest 0. -/
def ZeroesUpper (vl : VL) (src : Fin 16 → Elem → Prop) (new : Vec) : Prop :=
  ∀ j : Fin 16, if j.val < vl.elems then src j new[j] else new[j] = 0#32

/-- R171: an active element from the source, an inactive one kept or 0, those above `KL` 0. -/
def MaskedCopy (vl : VL) (mask : Option KMask) (z : Bool) (src : Fin 16 → Elem → Prop) (old new : Vec) : Prop :=
  ∀ j : Fin 16,
    if j.val < vl.elems then
      (if active mask j.val then src j new[j] else if z then new[j] = 0#32 else new[j] = old[j])
    else new[j] = 0#32

/-- The instruction completes: it changes vector register `d`, as `result old new` says, and pc, nothing else. -/
def WritesRegister (i : Instr) (m : Mode) (s : State) (d : VNum) (result : Vec → Vec → Prop) : Prop :=
  ∃ t, exec i s = .next t ∧ OnlyVectorChanged s t d ∧ AdvancesPc m s t i.len ∧ result (s.readV d) (t.readV d)

/-- The instruction completes: the location of each byte of an active element of `src` holds that byte (where the
translation gives several of them one location, one of them, R68 "in any order"), every other location reads as
before, and nothing else but pc changes. -/
def WritesMemory (i : Instr) (m : Mode) (s : State) (vl : VL) (la : Nat) (mask : Option KMask) (src : Vec) : Prop :=
  ∃ t, exec i s = .next t ∧ OnlyMemoryChanged s t ∧ AdvancesPc m s t i.len ∧
    (∀ j < vl.elems, active mask j = true → ∀ c < 4, ∀ p, translateByte m s .write (la + 4 * j + c) = .ok p →
      ∃ j' : Fin 16, j'.val < vl.elems ∧ active mask j'.val = true ∧ ∃ c' < 4,
        translateByte m s .write (la + 4 * j'.val + c') = .ok p ∧ t.mem.byte p = (src[j']).extractLsb' (8 * c') 8) ∧
    (∀ p, (∀ j < vl.elems, active mask j = true → ∀ c < 4, translateByte m s .write (la + 4 * j + c) ≠ .ok p) →
      t.mem.byte p = s.mem.byte p)

/-! ## Completion of the three families -/

/-- The bits of a REX byte, 0 without one (R84). -/
def rexR (rex : Option Rex) : Bool := rex.any Rex.r

def rexB (rex : Option Rex) : Bool := rex.any Rex.b

/-- A VEX register copy completes: `src` to `d`, zero above `VL` (R150). -/
def VexCopies (i : Instr) (m : Mode) (s : State) (vl : VL) (d src : VNum) : Prop :=
  Ready i m s → WritesRegister i m s d (fun _ new => ZeroesUpper vl (FromReg s src) new)

/-- A VEX load completes: the operand to `d`, zero above `VL` (R151, R153). -/
def VexLoads (i : Instr) (m : Mode) (s : State) (vl : VL) (mf : MemForm) (d : VNum) : Prop :=
  Ready i m s → Addressable (formOf i) m s mf → Readable vl m s ((formOf i).linearAddr m s mf) none →
    WritesRegister i m s d (fun _ new => ZeroesUpper vl (FromMem m s ((formOf i).linearAddr m s mf)) new)

/-- A legacy or VEX store completes: `VL / 8` bytes of `src` at the operand (R142, R152, R154). -/
def PlainStores (i : Instr) (m : Mode) (s : State) (vl : VL) (mf : MemForm) (src : VNum) : Prop :=
  Ready i m s → Addressable (formOf i) m s mf → Writable vl m s ((formOf i).linearAddr m s mf) none →
    WritesMemory i m s vl ((formOf i).linearAddr m s mf) none (s.readV src)

/-- An EVEX register copy completes (R171, R178). -/
def EvexCopies (i : Instr) (m : Mode) (s : State) (vl : VL) (e : Evex) (d src : VNum) : Prop :=
  Ready i m s → WritesRegister i m s d (MaskedCopy vl (maskOf s e.aaa) e.z (FromReg s src))

/-- An EVEX load completes; only the active elements need be readable (R57, R171, R178). -/
def EvexLoads (i : Instr) (m : Mode) (s : State) (vl : VL) (e : Evex) (mf : MemForm) (d : VNum) : Prop :=
  Ready i m s → Addressable (formOf i) m s mf →
    Readable vl m s ((formOf i).linearAddr m s mf) (maskOf s e.aaa) →
      WritesRegister i m s d
        (MaskedCopy vl (maskOf s e.aaa) e.z (FromMem m s ((formOf i).linearAddr m s mf)))

/-- An EVEX store completes; only the active elements are written (R57, R178). -/
def EvexStores (i : Instr) (m : Mode) (s : State) (vl : VL) (e : Evex) (mf : MemForm) (src : VNum) : Prop :=
  Ready i m s → Addressable (formOf i) m s mf →
    Writable vl m s ((formOf i).linearAddr m s mf) (maskOf s e.aaa) →
      WritesMemory i m s vl ((formOf i).linearAddr m s mf) (maskOf s e.aaa) (s.readV src)

/-! ## The address of a memory operand, as integers (R94, R97, R98, R99, R144) -/

/-- The base register, if the operand has one (R100). -/
def baseReg (f : Form) : MemForm → Option GNum
  | .base rm _ => some (BitVec.ofNat 4 (8 * f.b.toNat + rm.toNat))
  | .sib _ _ base _ => some (BitVec.ofNat 4 (8 * f.b.toNat + base.toNat))
  | .sibNoBase _ _ _ => none
  | .dispOnly _ => none

/-- `x[8 B + base]`, or for the RIP-relative form the address of the next instruction, or 0. -/
def basePart (f : Form) (m : Mode) (s : State) (mf : MemForm) : Int :=
  match mf with
  | .dispOnly _ => if m = .m64 then s.pc.toNat + f.len else 0
  | _ => ((baseReg f mf).map fun n => ((s.readX n).toNat : Int)).getD 0

/-- `x[8 X + index] * 2^scale`, 0 without a SIB byte and where `8 X + index = 4`. -/
def indexPart (f : Form) (s : State) : MemForm → Int
  | .sib scale index _ _ | .sibNoBase scale index _ =>
    if 8 * f.x.toNat + index.toNat = 4 then 0
    else (s.readX (BitVec.ofNat 4 (8 * f.x.toNat + index.toNat))).toNat * 2 ^ scale.toNat
  | .base _ _ => 0
  | .dispOnly _ => 0

/-- A displacement as a signed number; in the EVEX shape a disp8 counts `N = VL / 8` bytes. -/
def dispPart (f : Form) : MemForm → Int
  | .base _ d | .sib _ _ _ d =>
    match d with
    | .none => 0
    | .d8 d => d.toInt * (if f.shape = .evex then f.vl.bytes else 1)
    | .d32 d => d.toInt
  | .sibNoBase _ _ d => d.toInt
  | .dispOnly d => d.toInt

/-! ## Two runs -/

/-- The same outcome, on a next state changed by `g`. -/
def mapNext (g : State → State) : Host.Outcome State Fault Refusal → Host.Outcome State Fault Refusal
  | .next t => .next (g t)
  | .fault f => .fault f
  | .refused r => .refused r

/-! ## Runs -/

/-- `k` steps, ended by the first fault or refusal (R266). -/
def run : Nat → State → Host.Outcome State Fault Refusal
  | 0, s => .next s
  | k + 1, s =>
    match step s with
    | .next t => run k t
    | .fault f => .fault f
    | .refused r => .refused r

/-- The invariant of a run (R262, R266): the launch is admitted, the program ends below the top of the address space,
and `pc` is in the program or at its end. -/
def ProgramInv (m : Mode) (s : State) : Prop :=
  launchMode s = .ok m ∧ s.codeEnd < 2 ^ addrBits m ∧ s.codeBase ≤ s.ip m ∧ s.ip m ≤ s.codeEnd

/-- The invariant: memory is in its canonical form; vector registers hold nothing above MAXVL, and registers 16 to 31
nothing where EVEX is absent (R5, R20, R21); XCR0 bit 0 is 1 (R28); in an admitted mode pc is canonical, or has its
upper half 0 (R25). -/
def StateInv (s : State) : Prop :=
  s.mem.wf = true ∧
  (∀ n, ∀ j : Fin 16, s.features.maxElems ≤ j.val → (s.readV n)[j] = 0#32) ∧
  (s.features.avx512f = false → ∀ n : VNum, 16 ≤ n.toNat → ∀ j : Fin 16, (s.readV n)[j] = 0#32) ∧
  s.xcr0.getLsbD 0 = true ∧
  (launchMode s = .ok .m64 → canonical s.vaBits s.pc.toNat = true) ∧
  (launchMode s = .ok .m32 → s.pc.toNat < 2 ^ 32)

end Sys2Proof.Safety
end

