-- ==== Sys2Proof/Certificates/Slice0/Obligations.lean ====
section
/-! DEFINITION. The statements for the provers, from the numbered rules of spec/. -/

open Sys2Proof Sys2Proof.Machine Sys2Proof.Safety

/-! ## Encoding -/

/-- R80 to R112: decoding what the encoder writes gives the instruction back, with every operand at every value its
encoding admits, whatever bytes follow. -/
def Obligations.DecodeInvertsEncode : Prop :=
  ∀ (m : Mode) (i : Instr) (rest : List Byte), i.wf m = true → decode m (i.encode ++ rest) = .ok (i, rest)

/-- R80 to R112: what the decoder accepts is well formed, and its bytes are that instruction's encoding: no bit is
dropped and no two encodings give one term. -/
def Obligations.EncodeInvertsDecode : Prop :=
  ∀ (m : Mode) (bs : List Byte) (i : Instr) (rest : List Byte),
    decode m bs = .ok (i, rest) → i.wf m = true ∧ bs = i.encode ++ rest

/-- R102: the decoder consumes `len` bytes, `Instr.len` being the rule's sum; the shortest form has 3 bytes
(`0F 10 C1`); more than 15 raise #GP(0). -/
def Obligations.LengthRule : Prop :=
  (∀ (m : Mode) (bs : List Byte) (i : Instr) (rest : List Byte), decode m bs = .ok (i, rest) →
    bs.length = i.len + rest.length ∧ 3 ≤ i.len ∧
      (15 < i.len → ∀ s, launchMode s = .ok m → exec i s = .fault .generalProtection)) ∧
  decode .m64 [0x0F#8, 0x10#8, 0xC1#8] = .ok (.movupsLoad [] none 0#3 (.reg 1#3), []) ∧
  (Instr.movupsLoad [] none 0#3 (.reg 1#3)).len = 3

/-- R102, R112 (last paragraph): no encoding that is a valid form has more than 13 bytes. -/
def Obligations.LegalEncodingsAreShort : Prop :=
  ∀ (m : Mode) (i : Instr), i.wf m = true → Legal m i → i.len ≤ 13

/-- A few words written out bit by bit from R80 to R100, one of each family. -/
def Obligations.SampleEncodings : Prop :=
  decode .m64 [0x47#8, 0x0F#8, 0x10#8, 0x4C#8, 0x88#8, 0x10#8]
      = .ok (.movupsLoad [] (some ⟨false, true, true, true⟩) 1#3 (.mem (.sib 2#2 1#3 0#3 (.d8 0x10#8))), []) ∧
  decode .m64 [0xC5#8, 0x7C#8, 0x11#8, 0xD1#8]
      = .ok (.vmovupsYmmStoreVex2 [] none ⟨true, 0xF#4⟩ 2#3 (.reg 1#3), []) ∧
  decode .m32 [0xC4#8, 0xE1#8, 0xF8#8, 0x10#8, 0xCA#8]
      = .ok (.vmovupsXmmLoadVex3 [] none ⟨false, false, false, true, 0xF#4⟩ 1#3 (.reg 2#3), []) ∧
  decode .m64 [0x62#8, 0xE1#8, 0x7C#8, 0xAF#8, 0x10#8, 0x48#8, 0x01#8]
      = .ok (.vmovupsYmmLoadEvex [] none
          ⟨false, false, false, true, false, 0xF#4, true, true, false, true, 7#3⟩ 1#3
          (.mem (.base 0#3 (.d8 1#8))), []) ∧
  decode .m64 [0x62#8, 0xF1#8, 0x7C#8, 0x68#8, 0x10#8, 0xCA#8]
      = .ok (.vmovupsReservedLoad [] none
          ⟨false, false, false, false, false, 0xF#4, true, false, false, true, 0#3⟩ 1#3 (.reg 2#3), [])

/-- R106, R88 (b), R90 (d), R112 step 3: 66, F2 or F3 before `0F`, an opcode byte other than 10 and 11 in any of the
shapes, another `pp` or map, and a nonzero `P0[3:2]` are not MOVUPS, in either mode, after any prefix bytes and REX
byte that R112 steps 1 and 2 let pass. That each clause needs no byte after the one that decides is the model's
choice (log entry 18). -/
def Obligations.NeighboursAreRefused : Prop :=
  ∀ (m : Mode) (ps : List LegacyPrefix) (rex : Option Rex) (pre rest : List Byte), Opening m ps rex pre →
    ((.opSize ∈ ps ∨ .rep ∈ ps ∨ .repne ∈ ps) → decode m (pre ++ 0x0F#8 :: rest) = .error .notMovups) ∧
    (∀ b : Byte, b.extractLsb' 0 2 ≠ 0#2 → decode m (pre ++ 0xC5#8 :: b :: rest) = .error .notMovups) ∧
    (∀ b : Byte, b.extractLsb' 0 5 ≠ 1#5 → decode m (pre ++ 0xC4#8 :: b :: rest) = .error .notMovups) ∧
    (∀ b c : Byte, c.extractLsb' 0 2 ≠ 0#2 → decode m (pre ++ 0xC4#8 :: b :: c :: rest) = .error .notMovups) ∧
    (∀ p0 : Byte, p0.extractLsb' 0 4 ≠ 1#4 → decode m (pre ++ 0x62#8 :: p0 :: rest) = .error .notMovups) ∧
    (∀ p0 p1 : Byte, p1.extractLsb' 0 2 ≠ 0#2 → decode m (pre ++ 0x62#8 :: p0 :: p1 :: rest) = .error .notMovups) ∧
    (∀ op : Byte, op ≠ 0x10#8 → op ≠ 0x11#8 →
      decode m (pre ++ 0x0F#8 :: op :: rest) = .error .notMovups ∧
      (∀ b, decode m (pre ++ 0xC5#8 :: b :: op :: rest) = .error .notMovups) ∧
      (∀ b c, decode m (pre ++ 0xC4#8 :: b :: c :: op :: rest) = .error .notMovups) ∧
      (∀ p0 p1 p2, decode m (pre ++ 0x62#8 :: p0 :: p1 :: p2 :: op :: rest) = .error .notMovups))

/-- R83 (last sentence): a prefix byte repeated, two segment overrides, or F2 together with F3, is refused. -/
def Obligations.PrefixConflictIsRefused : Prop :=
  ∀ (m : Mode) (ps : List LegacyPrefix) (rest : List Byte),
    (¬ ps.Nodup ∨ (∃ p ∈ ps, ∃ q ∈ ps, p ≠ q ∧ p.isSegment = true ∧ q.isSegment = true) ∨
      (.rep ∈ ps ∧ .repne ∈ ps)) →
        decode m (ps.map LegacyPrefix.toByte ++ rest) = .error .prefixConflict

/-- R84, R88 (c), R90 (i): in M32, after any prefix bytes without a conflict, C4, C5 or 62 followed by a byte whose
bits 7:6 are not 11, and 40 to 4F, are other instructions. -/
def Obligations.M32OtherInstructionsAreRefused : Prop :=
  ∀ (ps : List LegacyPrefix) (pre rest : List Byte) (b c : Byte), Opening .m32 ps none pre →
    ((b = 0xC4#8 ∨ b = 0xC5#8 ∨ b = 0x62#8) → c.extractLsb' 6 2 ≠ 3#2 →
      decode .m32 (pre ++ b :: c :: rest) = .error .notMovups) ∧
    (b.extractLsb' 4 4 = 4#4 → decode .m32 (pre ++ b :: rest) = .error .notMovups)

/-- R88 (c), R90 (i), R112 step 7: in M32 a VEX or EVEX encoding with `B = 1` or `R' = 1` that would be legal but for
that is refused, before the enable checks. -/
def Obligations.M32ExtensionBitsAreRefused : Prop :=
  ∀ (i : Instr) (s : State), launchMode s = .ok .m32 → i.wf .m32 = true → Legal .m64 i → i.len ≤ 15 →
    ((formOf i).b = true ∨ (formOf i).rHi = true) → exec i s = .refused .extensionBit

/-- R84, R112 step 2: in M64, after any prefix bytes without a conflict, a REX byte followed by a byte other than 0F,
C5, C4 and 62 is refused. -/
def Obligations.MisplacedRexIsRefused : Prop :=
  ∀ (ps : List LegacyPrefix) (pre rest : List Byte) (b c : Byte), Opening .m64 ps none pre →
    b.extractLsb' 4 4 = 4#4 → c ≠ 0x0F#8 → c ≠ 0xC5#8 → c ≠ 0xC4#8 → c ≠ 0x62#8 →
      decode .m64 (pre ++ b :: c :: rest) = .error .misplacedRex

/-! ## The step -/

/-- R140 stage 1: when the bytes at pc are the encoding of a well-formed instruction that the program text holds
whole, the step is exec of it. -/
def Obligations.StepRunsDecodedInstruction : Prop :=
  ∀ (s : State) (m : Mode) (i : Instr), launchMode s = .ok m →
    (m = .m64 → canonical s.vaBits (s.ip m) = true) → s.inProgram (s.ip m) = true →
    i.wf m = true → s.ip m + i.len ≤ 2 ^ addrBits m → s.ip m + i.len ≤ s.codeEnd →
    (∀ b (h : b < i.encode.length), ∃ p, translateByte m s .fetch (s.ip m + b) = .ok p ∧
      s.mem.byte p = i.encode[b]) →
        step s = exec i s

/-- R216, R220 (1): a page fault on a byte of the instruction, all bytes before it fetched, is the step's fault. That
the lowest is reported, where several bytes fault, is an order that the spec marks as its own choice (U21, decision D13):
no claim may rely on it. -/
def Obligations.FetchPageFaultIsReported : Prop :=
  ∀ (s : State) (m : Mode) (i : Instr) (n : Nat) (code : BitVec 32) (a : Word), launchMode s = .ok m →
    (m = .m64 → canonical s.vaBits (s.ip m) = true) → s.inProgram (s.ip m) = true →
    i.wf m = true → s.ip m + i.len ≤ 2 ^ addrBits m → n < i.len → s.ip m + n < s.codeEnd →
    (∀ b (h : b < i.encode.length), b < n → ∃ p, translateByte m s .fetch (s.ip m + b) = .ok p ∧
      s.mem.byte p = i.encode[b]) →
    translateByte m s .fetch (s.ip m + n) = .error (.fault (.pageFault code a)) →
        step s = .fault (.pageFault code a)

/-- R266, R8: when the program text ends before the instruction at pc does, the bytes it holds all fetched, the step
is refused; that the bytes past CODE_END are not asked for is the model's choice (log entry 19). -/
def Obligations.CutInstructionIsRefused : Prop :=
  ∀ (s : State) (m : Mode) (i : Instr), launchMode s = .ok m →
    (m = .m64 → canonical s.vaBits (s.ip m) = true) → s.inProgram (s.ip m) = true →
    i.wf m = true → s.ip m + i.len ≤ 2 ^ addrBits m → s.codeEnd < s.ip m + i.len →
    (∀ b (h : b < i.encode.length), s.ip m + b < s.codeEnd → ∃ p, translateByte m s .fetch (s.ip m + b) = .ok p ∧
      s.mem.byte p = i.encode[b]) →
        step s = .refused .cutInstruction

/-- R25, R266: a pc that is not canonical in M64, that is CODE_END (and not inside the program), or that is outside
the program, is refused, each by its name. The order of the checks, and CODE_END modulo `2^64` or `2^32` for a program
that ends at the top of the address space, are the model's (log entry 23). -/
def Obligations.StepStopsOutsideTheProgram : Prop :=
  ∀ (s : State) (m : Mode), launchMode s = .ok m →
    (m = .m64 → canonical s.vaBits (s.ip m) = false → step s = .refused .pcOutOfRange) ∧
    ((m = .m64 → canonical s.vaBits (s.ip m) = true) → s.inProgram (s.ip m) = false →
      step s = .refused (if s.ip m = s.codeEnd % 2 ^ addrBits m then .runComplete else .outsideProgram))

/-- R266: a step keeps the launch admitted and pc in the program or at its end, and the program where it is; it
advances pc by 3 to 15 bytes. -/
def Obligations.StepStaysInTheProgram : Prop :=
  ∀ (s t : State) (m : Mode), ProgramInv m s → step s = .next t →
    ProgramInv m t ∧ s.ip m + 3 ≤ t.ip m ∧ t.ip m ≤ s.ip m + 15 ∧ t.codeBase = s.codeBase ∧ t.codeEnd = s.codeEnd

/-- R266, R145: a run of `k` steps inside a program that ends below the top of the address space advances pc by 3 to
15 bytes a step and never past CODE_END: a program ends after at most a third of its bytes in steps. -/
def Obligations.RunAdvancesThroughTheProgram : Prop :=
  ∀ (k : Nat) (s t : State) (m : Mode), run k s = .next t → 0 < k → launchMode s = .ok m →
    s.codeEnd < 2 ^ addrBits m →
      launchMode t = .ok m ∧ s.ip m + 3 * k ≤ t.ip m ∧ t.ip m ≤ s.ip m + 15 * k ∧ t.ip m ≤ s.codeEnd ∧
        t.codeBase = s.codeBase ∧ t.codeEnd = s.codeEnd

/-- R66, R262: no step changes a location that is reached for writing only through the program text. -/
def Obligations.ProgramTextIsNotWritten : Prop :=
  ∀ (s t : State) (p : Nat), step s = .next t →
    (∀ m la, launchMode s = .ok m → translateByte m s .write la = .ok p → s.inProgram la = true) →
      t.mem.byte p = s.mem.byte p ∧ t.codeBase = s.codeBase ∧ t.codeEnd = s.codeEnd

/-! ## Reset -/

/-- The reset values the table of 10_state.md section 9 gives (RDX and memory, for which it gives no value, and what
it does not name apart). -/
def Obligations.ResetValues : Prop :=
  (∀ n, ∀ j : Fin 16, (State.reset.readV n)[j] = 0#32) ∧ (∀ n, State.reset.readK n = 0#64) ∧
  State.reset.mxcsr = 0x1F80#32 ∧ (∀ n : GNum, n ≠ 2#4 → State.reset.readX n = 0#64) ∧
  State.reset.pc = 0xFFF0#64 ∧ State.reset.csBase = 0xFFFF0000#64 ∧ State.reset.rflags = 2#64 ∧
  State.reset.cr0 = 0x60000010#64 ∧ State.reset.cr4 = 0#64 ∧ State.reset.xcr0 = 1#64 ∧
  State.reset.efer = 0#64 ∧ State.reset.cpl = 0#2 ∧ State.reset.fsBase = 0#64 ∧ State.reset.gsBase = 0#64 ∧
  State.reset.mode? = none

/-- R260: straight out of reset no form can execute: the mode is not admitted, and CR4 as reset leaves it makes every
form raise #UD in any mode. -/
def Obligations.NoFormRunsOutOfReset : Prop :=
  step State.reset = .refused .modeNotAdmitted ∧
  ∀ (i : Instr) (m : Mode) (s : State), Admitted i m s → s.cr4 = State.reset.cr4 →
    exec i s = .fault .invalidOpcode

/-! ## Invariant and frame -/

/-- The invariant of Safety.lean holds after reset. -/
def Obligations.ResetMeetsInvariant : Prop := StateInv State.reset

/-- Every step keeps the invariant of Safety.lean, from every state that meets it. -/
def Obligations.StepKeepsInvariant : Prop :=
  ∀ s t : State, StateInv s → step s = .next t → StateInv t

/-- R33: a form that completes changes exactly its destination and pc (and the model's own draw counter): a load or
copy of opcode 10 its `reg` register, a copy of opcode 11 its `r/m` register, a store the bytes of its active
elements. -/
def Obligations.CompletedFormChangesOnlyItsDestination : Prop :=
  ∀ (i : Instr) (s t : State), exec i s = .next t →
    ∃ m, launchMode s = .ok m ∧ AdvancesPc m s t i.len ∧
      match directionOf i, (formOf i).rm with
      | .load, _ => OnlyVectorChanged s t (formOf i).regNum
      | .store, .reg rm => OnlyVectorChanged s t ((formOf i).rmNum rm)
      | .store, .mem mf =>
        OnlyMemoryChanged s t ∧
        ∀ p, (∀ j < (formOf i).vl.elems, active ((formOf i).mask s) j = true → ∀ c < 4,
            translateByte m s .write ((formOf i).linearAddr m s mf + 4 * j + c) ≠ .ok p) →
          t.mem.byte p = s.mem.byte p
      | .neither, _ => False

/-- R25: an instruction that would run past the top of the address space, or whose next pc is not canonical, is
refused where it would otherwise complete: a register copy, or a memory form whose operand is reachable. -/
def Obligations.NextPcOutOfRangeIsRefused : Prop :=
  ∀ (i : Instr) (m : Mode) (s : State), Admitted i m s → Usable (formOf i) s → s.ts = false → OperandReady i m s →
    ¬ NextPcFits m s i.len → exec i s = .refused .pcOutOfRange

/-! ## Results: the legacy forms -/

/-- R141, R142 with a register operand: bits 127:0 are copied, the bits above are kept, pc advances, nothing else
changes. -/
def Obligations.LegacyFormsCopyRegisters : Prop :=
  ∀ (m : Mode) (s : State) (ps : List LegacyPrefix) (rex : Option Rex) (reg rm : BitVec 3),
    (Ready (.movupsLoad ps rex reg (.reg rm)) m s →
      WritesRegister (.movupsLoad ps rex reg (.reg rm)) m s (vnum false (rexR rex) reg)
        (KeepsUpper (FromReg s (vnum false (rexB rex) rm)))) ∧
    (Ready (.movupsStore ps rex reg (.reg rm)) m s →
      WritesRegister (.movupsStore ps rex reg (.reg rm)) m s (vnum false (rexB rex) rm)
        (KeepsUpper (FromReg s (vnum false (rexR rex) reg))))

/-- R141 with a memory operand. -/
def Obligations.LegacyLoadReadsMemory : Prop :=
  ∀ (m : Mode) (s : State) (ps : List LegacyPrefix) (rex : Option Rex) (reg : BitVec 3) (mf : MemForm) (la : Nat),
    Ready (.movupsLoad ps rex reg (.mem mf)) m s →
    Addressable (formOf (.movupsLoad ps rex reg (.mem mf))) m s mf →
    la = (formOf (.movupsLoad ps rex reg (.mem mf))).linearAddr m s mf → Readable .vl128 m s la none →
      WritesRegister (.movupsLoad ps rex reg (.mem mf)) m s (vnum false (rexR rex) reg)
        (KeepsUpper (FromMem m s la))

/-- R142 with a memory operand: exactly 16 bytes are written. -/
def Obligations.LegacyStoreWritesMemory : Prop :=
  ∀ (m : Mode) (s : State) (ps : List LegacyPrefix) (rex : Option Rex) (reg : BitVec 3) (mf : MemForm),
    PlainStores (.movupsStore ps rex reg (.mem mf)) m s .vl128 mf (vnum false (rexR rex) reg)

/-! ## Results: the VEX forms -/

/-- R151 to R154 with a register operand, both opcodes, both lengths, both spellings. -/
def Obligations.VexFormsCopyRegisters : Prop :=
  ∀ (m : Mode) (s : State) (ps : List LegacyPrefix) (rex : Option Rex) (reg rm : BitVec 3),
    (∀ v : Vex2,
      VexCopies (.vmovupsXmmLoadVex2 ps rex v reg (.reg rm)) m s .vl128 (vnum false v.r reg) (vnum false false rm) ∧
      VexCopies (.vmovupsXmmStoreVex2 ps rex v reg (.reg rm)) m s .vl128 (vnum false false rm) (vnum false v.r reg) ∧
      VexCopies (.vmovupsYmmLoadVex2 ps rex v reg (.reg rm)) m s .vl256 (vnum false v.r reg) (vnum false false rm) ∧
      VexCopies (.vmovupsYmmStoreVex2 ps rex v reg (.reg rm)) m s .vl256 (vnum false false rm) (vnum false v.r reg)) ∧
    (∀ v : Vex3,
      VexCopies (.vmovupsXmmLoadVex3 ps rex v reg (.reg rm)) m s .vl128 (vnum false v.r reg) (vnum false v.b rm) ∧
      VexCopies (.vmovupsXmmStoreVex3 ps rex v reg (.reg rm)) m s .vl128 (vnum false v.b rm) (vnum false v.r reg) ∧
      VexCopies (.vmovupsYmmLoadVex3 ps rex v reg (.reg rm)) m s .vl256 (vnum false v.r reg) (vnum false v.b rm) ∧
      VexCopies (.vmovupsYmmStoreVex3 ps rex v reg (.reg rm)) m s .vl256 (vnum false v.b rm) (vnum false v.r reg))

/-- R151, R153 with a memory operand. -/
def Obligations.VexLoadsReadMemory : Prop :=
  ∀ (m : Mode) (s : State) (ps : List LegacyPrefix) (rex : Option Rex) (reg : BitVec 3) (mf : MemForm),
    (∀ v : Vex2,
      VexLoads (.vmovupsXmmLoadVex2 ps rex v reg (.mem mf)) m s .vl128 mf (vnum false v.r reg) ∧
      VexLoads (.vmovupsYmmLoadVex2 ps rex v reg (.mem mf)) m s .vl256 mf (vnum false v.r reg)) ∧
    (∀ v : Vex3,
      VexLoads (.vmovupsXmmLoadVex3 ps rex v reg (.mem mf)) m s .vl128 mf (vnum false v.r reg) ∧
      VexLoads (.vmovupsYmmLoadVex3 ps rex v reg (.mem mf)) m s .vl256 mf (vnum false v.r reg))

/-- R152, R154 with a memory operand. -/
def Obligations.VexStoresWriteMemory : Prop :=
  ∀ (m : Mode) (s : State) (ps : List LegacyPrefix) (rex : Option Rex) (reg : BitVec 3) (mf : MemForm),
    (∀ v : Vex2,
      PlainStores (.vmovupsXmmStoreVex2 ps rex v reg (.mem mf)) m s .vl128 mf (vnum false v.r reg) ∧
      PlainStores (.vmovupsYmmStoreVex2 ps rex v reg (.mem mf)) m s .vl256 mf (vnum false v.r reg)) ∧
    (∀ v : Vex3,
      PlainStores (.vmovupsXmmStoreVex3 ps rex v reg (.mem mf)) m s .vl128 mf (vnum false v.r reg) ∧
      PlainStores (.vmovupsYmmStoreVex3 ps rex v reg (.mem mf)) m s .vl256 mf (vnum false v.r reg))

/-! ## Results: the EVEX forms -/

/-- R171 to R178 with a register operand: masked, merging or zeroing, zero above `VL`. -/
def Obligations.EvexFormsCopyRegisters : Prop :=
  ∀ (m : Mode) (s : State) (ps : List LegacyPrefix) (rex : Option Rex) (e : Evex) (reg rm : BitVec 3) (a b : VNum),
    a = vnum e.rHi e.r reg → b = vnum e.x e.b rm →
      EvexCopies (.vmovupsXmmLoadEvex ps rex e reg (.reg rm)) m s .vl128 e a b ∧
      EvexCopies (.vmovupsYmmLoadEvex ps rex e reg (.reg rm)) m s .vl256 e a b ∧
      EvexCopies (.vmovupsZmmLoadEvex ps rex e reg (.reg rm)) m s .vl512 e a b ∧
      EvexCopies (.vmovupsXmmStoreEvex ps rex e reg (.reg rm)) m s .vl128 e b a ∧
      EvexCopies (.vmovupsYmmStoreEvex ps rex e reg (.reg rm)) m s .vl256 e b a ∧
      EvexCopies (.vmovupsZmmStoreEvex ps rex e reg (.reg rm)) m s .vl512 e b a

/-- R172, R173, R174 with a memory operand. -/
def Obligations.EvexLoadsReadMemory : Prop :=
  ∀ (m : Mode) (s : State) (ps : List LegacyPrefix) (rex : Option Rex) (e : Evex) (reg : BitVec 3) (mf : MemForm),
    EvexLoads (.vmovupsXmmLoadEvex ps rex e reg (.mem mf)) m s .vl128 e mf (vnum e.rHi e.r reg) ∧
    EvexLoads (.vmovupsYmmLoadEvex ps rex e reg (.mem mf)) m s .vl256 e mf (vnum e.rHi e.r reg) ∧
    EvexLoads (.vmovupsZmmLoadEvex ps rex e reg (.mem mf)) m s .vl512 e mf (vnum e.rHi e.r reg)

/-- R175, R176, R177 with a memory operand. -/
def Obligations.EvexStoresWriteMemory : Prop :=
  ∀ (m : Mode) (s : State) (ps : List LegacyPrefix) (rex : Option Rex) (e : Evex) (reg : BitVec 3) (mf : MemForm),
    EvexStores (.vmovupsXmmStoreEvex ps rex e reg (.mem mf)) m s .vl128 e mf (vnum e.rHi e.r reg) ∧
    EvexStores (.vmovupsYmmStoreEvex ps rex e reg (.mem mf)) m s .vl256 e mf (vnum e.rHi e.r reg) ∧
    EvexStores (.vmovupsZmmStoreEvex ps rex e reg (.mem mf)) m s .vl512 e mf (vnum e.rHi e.r reg)

/-- R57: with every mask bit below `KL` 0 a memory form completes whatever the translation says of the operand: a
load merges or zeroes, a store changes nothing but pc. -/
def Obligations.InactiveElementsAreNotAccessed : Prop :=
  ∀ (i : Instr) (m : Mode) (s : State) (mf : MemForm) (k : KMask), Ready i m s → (formOf i).rm = .mem mf →
    Addressable (formOf i) m s mf → (formOf i).mask s = some k →
    (∀ j < (formOf i).vl.elems, k.getLsbD j = false) →
      ∃ t, exec i s = .next t ∧ AdvancesPc m s t i.len ∧
        match directionOf i with
        | .load => OnlyVectorChanged s t (formOf i).regNum ∧
            ∀ j : Fin 16, (t.readV (formOf i).regNum)[j] =
              if j.val < (formOf i).vl.elems ∧ (formOf i).z = false then (s.readV (formOf i).regNum)[j] else 0#32
        | .store => t = { s with pc := t.pc, draws := t.draws }
        | .neither => False

/-! ## Faults -/

/-- R90 (d): the two reserved-length rows raise #UD always (a length above 15 has its own rule). -/
def Obligations.ReservedLengthRowsRaiseUd : Prop :=
  ∀ (m : Mode) (s : State) (ps : List LegacyPrefix) (rex : Option Rex) (e : Evex) (reg : BitVec 3) (rm : RegMem),
    launchMode s = .ok m → evexWf m ps rex e rm = true → lenOf 5 ps rex rm ≤ 15 →
      exec (.vmovupsReservedLoad ps rex e reg rm) s = .fault .invalidOpcode ∧
      exec (.vmovupsReservedStore ps rex e reg rm) s = .fault .invalidOpcode

/-- R83, R88 (a), R90 (b): LOCK on any form, and 66, F2, F3 or REX before VEX or EVEX, raise #UD. -/
def Obligations.IllegalPrefixesRaiseUd : Prop :=
  ∀ (i : Instr) (m : Mode) (s : State), launchMode s = .ok m → i.wf m = true → i.len ≤ 15 →
    (.lock ∈ (formOf i).ps ∨ ((formOf i).shape ≠ .legacy ∧
      ((formOf i).hasRex = true ∨ .opSize ∈ (formOf i).ps ∨ .rep ∈ (formOf i).ps ∨ .repne ∈ (formOf i).ps))) →
      exec i s = .fault .invalidOpcode

/-- R87: the field `vvvv` is bits 6:3 of the last VEX byte and of EVEX byte 2, as stored; any value but 1111, in
either mode, with a register or a memory operand, raises #UD. -/
def Obligations.VvvvMustBeOnes : Prop :=
  (∀ (l : Bool) (v : Vex2), ((v.bytes l).getLast?.map fun b => b.extractLsb' 3 4) = some v.vvvv) ∧
  (∀ (l : Bool) (v : Vex3), ((v.bytes l).getLast?.map fun b => b.extractLsb' 3 4) = some v.vvvv) ∧
  (∀ (ll : BitVec 2) (e : Evex), ((e.bytes ll)[2]?.map fun b => b.extractLsb' 3 4) = some e.vvvv) ∧
  ∀ (m : Mode) (s : State) (ps : List LegacyPrefix) (rex : Option Rex) (reg : BitVec 3) (rm : RegMem) (i : Instr),
    launchMode s = .ok m → i.wf m = true → i.len ≤ 15 →
    ((∃ l st v, i = vex2Instr l st ps rex v reg rm ∧ v.vvvv ≠ 0xF#4) ∨
      (∃ l st v, i = vex3Instr l st ps rex v reg rm ∧ v.vvvv ≠ 0xF#4) ∨
      (∃ ll st e, i = evexInstr ll st ps rex e reg rm ∧ e.vvvv ≠ 0xF#4)) →
        exec i s = .fault .invalidOpcode

/-- R90 (c) to (h): a reserved EVEX field, zeroing without a writemask, and zeroing of a memory destination, raise
#UD. -/
def Obligations.EvexReservedFieldsRaiseUd : Prop :=
  ∀ (m : Mode) (s : State) (ll : BitVec 2) (st : Bool) (ps : List LegacyPrefix) (rex : Option Rex) (e : Evex)
    (reg : BitVec 3) (rm : RegMem), launchMode s = .ok m → evexWf m ps rex e rm = true → lenOf 5 ps rex rm ≤ 15 →
    (e.w = true ∨ e.one = false ∨ e.bc = true ∨ e.vHi = false ∨ (e.z = true ∧ e.aaa = 0#3) ∨
      (e.z = true ∧ st = true ∧ rm.isMem = true)) →
      exec (evexInstr ll st ps rex e reg rm) s = .fault .invalidOpcode

/-- R80, R102, R220 (2): a length above 15 raises #GP(0), before any #UD cause. -/
def Obligations.TooLongRaisesGp : Prop :=
  ∀ (i : Instr) (m : Mode) (s : State), launchMode s = .ok m → i.wf m = true → 15 < i.len →
    exec i s = .fault .generalProtection

/-- R212, the feature and enable columns: a legal form that is not usable raises #UD, whatever CR0.TS and its
operand. -/
def Obligations.DisabledFormsRaiseUd : Prop :=
  ∀ (i : Instr) (m : Mode) (s : State), Admitted i m s → ¬ Usable (formOf i) s → exec i s = .fault .invalidOpcode

/-- R213: #NM from every form when CR0.TS = 1, register or memory operand, after the #UD checks, without an error
code. -/
def Obligations.TaskSwitchedRaisesNm : Prop :=
  (∀ (i : Instr) (m : Mode) (s : State), Admitted i m s → s.ts = true →
    (Usable (formOf i) s → exec i s = .fault .deviceNotAvailable) ∧
    (¬ Usable (formOf i) s → exec i s = .fault .invalidOpcode)) ∧
  Fault.deviceNotAvailable.errorCode = none

/-- R214: #SS(0) for a non-canonical byte of an operand through SS, in M64, and for nothing else. That it is the fault
reported where #AC or #PF applies too is the order of R220 (6) to (8), which the spec marks as its own choice (decision
D13): no claim may rely on it. -/
def Obligations.StackSegmentFaultRule : Prop :=
  (∀ (i : Instr) (s : State) (mf : MemForm), Admitted i .m64 s → Usable (formOf i) s → s.ts = false →
    (formOf i).rm = .mem mf → Fits (formOf i) .m64 s mf → (formOf i).segment .m64 mf = .ss →
    ¬ CanonicalOperand (formOf i) .m64 s mf → exec i s = .fault .stackSegment) ∧
  (∀ (i : Instr) (s : State), exec i s = .fault .stackSegment →
    launchMode s = .ok .m64 ∧ ∃ mf, (formOf i).rm = .mem mf ∧ (formOf i).segment .m64 mf = .ss ∧
      ¬ CanonicalOperand (formOf i) .m64 s mf) ∧
  Fault.stackSegment.errorCode = some 0#32

/-- R215: #GP(0) for a non-canonical byte of an operand through a segment other than SS, in M64, or for a length
above 15, and for nothing else: never for misalignment. That the first is the fault reported where #AC or #PF applies
too is the order of R220 (6) to (8), which the spec marks as its own choice (decision D13): no claim may rely on it. -/
def Obligations.GeneralProtectionRule : Prop :=
  (∀ (i : Instr) (s : State) (mf : MemForm), Admitted i .m64 s → Usable (formOf i) s → s.ts = false →
    (formOf i).rm = .mem mf → Fits (formOf i) .m64 s mf → (formOf i).segment .m64 mf ≠ .ss →
    ¬ CanonicalOperand (formOf i) .m64 s mf → exec i s = .fault .generalProtection) ∧
  (∀ (i : Instr) (m : Mode) (s : State), launchMode s = .ok m → i.wf m = true → 15 < i.len →
    exec i s = .fault .generalProtection) ∧
  (∀ (i : Instr) (s : State), exec i s = .fault .generalProtection →
    15 < i.len ∨ (launchMode s = .ok .m64 ∧ ∃ mf, (formOf i).rm = .mem mf ∧ (formOf i).segment .m64 mf ≠ .ss ∧
      ¬ CanonicalOperand (formOf i) .m64 s mf)) ∧
  Fault.generalProtection.errorCode = some 0#32

/-- R217: #AC(0) is a draw (the free value Config.acDraw), possible only when CR0.AM = 1, EFLAGS.AC = 1, CPL = 3 and
the operand's address is not a multiple of `VL / 8`; the form completes when it is not drawn. -/
def Obligations.AlignmentCheckIsADraw : Prop :=
  (∀ (i : Instr) (m : Mode) (s : State) (mf : MemForm), Ready i m s → (formOf i).rm = .mem mf →
    Fits (formOf i) m s mf → CanonicalOperand (formOf i) m s mf → AcPossible (formOf i) m s mf →
    (directionOf i = .load →
      Readable (formOf i).vl m s ((formOf i).linearAddr m s mf) ((formOf i).mask s)) →
    (directionOf i = .store →
      Writable (formOf i).vl m s ((formOf i).linearAddr m s mf) ((formOf i).mask s)) →
      if Config.acDraw s.draws = true then exec i s = .fault .alignmentCheck
      else ∃ t, exec i s = .next t) ∧
  (∀ (i : Instr) (s : State), exec i s = .fault .alignmentCheck →
    ∃ m mf, launchMode s = .ok m ∧ (formOf i).rm = .mem mf ∧ AcPossible (formOf i) m s mf) ∧
  Fault.alignmentCheck.errorCode = some 0#32

/-- R216: a load or store whose operand has a byte of an active element that does not translate raises #PF with the
translation's code and the address of the lowest such byte. Two choices decide which stop is reported. Lowest first,
where several bytes fault, is the order that the spec marks as its own choice (R220 (8), U21, decision D13): no claim may
rely on it. That #PF is reported, and not the refusal of R58, where a higher active byte is not ordinary memory is the
model's choice (DESIGN CHOICE, log entry 28). -/
def Obligations.OperandPageFault : Prop :=
  ∀ (i : Instr) (m : Mode) (s : State) (mf : MemForm) (la j c : Nat) (code : BitVec 32) (a : Word) (kd : AccessKind),
    Ready i m s → (formOf i).rm = .mem mf → Addressable (formOf i) m s mf →
    la = (formOf i).linearAddr m s mf → (kd = if directionOf i = .load then .read else .write) →
    (directionOf i = .store → ∀ j' < (formOf i).vl.elems, active ((formOf i).mask s) j' = true → ∀ c' < 4,
      s.inProgram (la + 4 * j' + c') = false) →
    j < (formOf i).vl.elems → active ((formOf i).mask s) j = true → c < 4 →
    (∀ j' ≤ j, active ((formOf i).mask s) j' = true → ∀ c' < 4, 4 * j' + c' < 4 * j + c →
      ∃ p, translateByte m s kd (la + 4 * j' + c') = .ok p) →
    translateByte m s kd (la + 4 * j + c) = .error (.fault (.pageFault code a)) →
      exec i s = .fault (.pageFault code (BitVec.ofNat 64 (la + 4 * j + c)))

/-- R59: an operand that wraps past the top of the effective or linear address space is refused. -/
def Obligations.WrappingOperandIsRefused : Prop :=
  ∀ (i : Instr) (m : Mode) (s : State) (mf : MemForm), Admitted i m s → Usable (formOf i) s → s.ts = false →
    (formOf i).rm = .mem mf → ¬ Fits (formOf i) m s mf → exec i s = .refused .operandWraps

/-- R66: a store with a destination byte in the program text is refused. -/
def Obligations.StoreToProgramIsRefused : Prop :=
  ∀ (i : Instr) (m : Mode) (s : State) (mf : MemForm) (j c : Nat), directionOf i = .store → Ready i m s →
    (formOf i).rm = .mem mf → Addressable (formOf i) m s mf → j < (formOf i).vl.elems →
    active ((formOf i).mask s) j = true → c < 4 →
    s.inProgram ((formOf i).linearAddr m s mf + 4 * j + c) = true → exec i s = .refused .storeToProgram

/-! ## What an instruction does not depend on -/

/-- R27: MXCSR is neither read nor written. -/
def Obligations.MxcsrIsNeitherReadNorWritten : Prop :=
  ∀ (i : Instr) (s : State) (x : BitVec 32),
    exec i { s with mxcsr := x } = mapNext (fun t => { t with mxcsr := x }) (exec i s) ∧
    ∀ t, exec i s = .next t → t.mxcsr = s.mxcsr

/-- R26: no form writes a flag; a form reads the flags at most through AC and VM (and TF, the model's premise of log
entry 14). -/
def Obligations.FlagsAreReadOnlyThroughAcAndVm : Prop :=
  ∀ (i : Instr) (s : State) (r : Word),
    r.getLsbD 18 = s.rflags.getLsbD 18 → r.getLsbD 17 = s.rflags.getLsbD 17 → r.getLsbD 8 = s.rflags.getLsbD 8 →
      exec i { s with rflags := r } = mapNext (fun t => { t with rflags := r }) (exec i s) ∧
      ∀ t, exec i s = .next t → t.rflags = s.rflags

/-- R23, R171: no opmask bit at position `KL` or above matters. -/
def Obligations.MaskBitsAboveKlAreIgnored : Prop :=
  ∀ (i : Instr) (s : State) (k : Vector KMask 8),
    (∀ (n : Fin 8) (j : Nat), j < (formOf i).vl.elems → (k[n]).getLsbD j = (s.k[n]).getLsbD j) →
      exec i { s with k := k } = mapNext (fun t => { t with k := k }) (exec i s)

/-- R28: CR0.EM and CR4.OSFXSR are not consulted by the VEX and EVEX forms. -/
def Obligations.VexAndEvexIgnoreEmAndOsfxsr : Prop :=
  ∀ (i : Instr) (s : State) (c0 c4 : Word), (formOf i).shape ≠ .legacy →
    (∀ n, n ≠ 2 → c0.getLsbD n = s.cr0.getLsbD n) → (∀ n, n ≠ 9 → c4.getLsbD n = s.cr4.getLsbD n) →
      exec i { s with cr0 := c0, cr4 := c4 } = mapNext (fun t => { t with cr0 := c0, cr4 := c4 }) (exec i s)

/-- R225: CPL matters only to the alignment check and to Translate. -/
def Obligations.PrivilegeMattersOnlyToAcAndTranslate : Prop :=
  ∀ (i : Instr) (s : State) (c : BitVec 2), (s.am = false ∨ s.ac = false) →
    (∀ r ∈ s.translation, r.cpls.contains c = r.cpls.contains s.cpl) →
      exec i { s with cpl := c } = mapNext (fun t => { t with cpl := c }) (exec i s)

/-- R24, R95: in M32 the upper halves of the general registers are ignored. -/
def Obligations.M32IgnoresUpperHalves : Prop :=
  ∀ (i : Instr) (s : State) (x : Vector Word 16), launchMode s = .ok .m32 →
    (∀ n : Fin 16, (x[n]).setWidth 32 = (s.x[n]).setWidth 32) →
      exec i { s with x := x } = mapNext (fun t => { t with x := x }) (exec i s)

/-! ## Encodings of one operation -/

/-- R104: a register copy has two encodings in each shape, one per opcode, with the two register fields exchanged; both
do the same thing, upper bits included. -/
def Obligations.RegisterCopyHasTwoEncodings : Prop :=
  ∀ (s : State) (ps : List LegacyPrefix) (rex : Option Rex) (a b : BitVec 3),
    (exec (.movupsLoad ps rex a (.reg b)) s
      = exec (.movupsStore ps (rex.map fun x => { x with r := x.b, b := x.r }) b (.reg a)) s) ∧
    (∀ l w, exec (vex2Instr l false ps rex ⟨false, w⟩ a (.reg b)) s
      = exec (vex2Instr l true ps rex ⟨false, w⟩ b (.reg a)) s) ∧
    (∀ l v, exec (vex3Instr l false ps rex v a (.reg b)) s
      = exec (vex3Instr l true ps rex { v with r := v.b, b := v.r } b (.reg a)) s) ∧
    (∀ ll e, exec (evexInstr ll false ps rex e a (.reg b)) s
      = exec (evexInstr ll true ps rex { e with r := e.b, b := e.r, rHi := e.x, x := e.rHi } b (.reg a)) s)

/-- R86: both VEX spellings are the same instruction, and `W` is ignored: they leave states that differ in pc alone
(a RIP-relative operand names another address). -/
def Obligations.VexSpellingsAgree : Prop :=
  ∀ (s t u : State) (l st w : Bool) (ps : List LegacyPrefix) (rex : Option Rex) (v : Vex2) (reg : BitVec 3)
    (rm : RegMem),
    (∀ d, rm = .mem (.dispOnly d) → launchMode s = .ok .m32) →
    exec (vex2Instr l st ps rex v reg rm) s = .next t →
    exec (vex3Instr l st ps rex ⟨v.r, false, false, w, v.vvvv⟩ reg rm) s = .next u →
      u = { t with pc := u.pc }

/-- R108: a copy of a register to itself changes nothing but pc in the legacy shape; in the VEX and EVEX shapes it
still zeroes above `VL`, and under zeroing-masking the inactive elements. -/
def Obligations.CopyToItself : Prop :=
  ∀ (i : Instr) (s t : State) (rm : BitVec 3), (formOf i).rm = .reg rm → (formOf i).regNum = (formOf i).rmNum rm →
    exec i s = .next t →
      ((formOf i).shape = .legacy → t = { s with pc := t.pc, draws := t.draws }) ∧
      ((formOf i).shape ≠ .legacy → ∀ j : Fin 16, (t.readV ((formOf i).rmNum rm))[j] =
        if j.val < (formOf i).vl.elems ∧ (active ((formOf i).mask s) j.val = true ∨ (formOf i).z = false)
        then (s.readV ((formOf i).rmNum rm))[j] else 0#32)

/-! ## Addresses -/

/-- R94 to R99, R144: the effective address is the sum of base, scaled index and displacement modulo `2^A`, a disp8 of
the EVEX shape counting `N = VL / 8` bytes, RIP-relative from the next instruction. -/
def Obligations.EffectiveAddressIsModularSum : Prop :=
  ∀ (f : Form) (m : Mode) (s : State) (mf : MemForm),
    ((f.effAddr m s (f.addrSize m) mf).toNat : Int) =
      (basePart f m s mf + indexPart f s mf + dispPart f mf) % 2 ^ f.addrSize m

/-- R59, R60, R83, R100: the linear address adds the FS or GS base under that override, and nothing otherwise. -/
def Obligations.LinearAddressAddsTheSegmentBase : Prop :=
  ∀ (f : Form) (m : Mode) (s : State) (mf : MemForm) (ea : Nat), prefixesOk f.ps = true →
    ea = (f.effAddr m s (f.addrSize m) mf).toNat →
      (.fs ∈ f.ps → f.linearAddr m s mf = (s.fsBase.toNat + ea) % 2 ^ addrBits m) ∧
      (.gs ∈ f.ps → f.linearAddr m s mf = (s.gsBase.toNat + ea) % 2 ^ addrBits m) ∧
      (.fs ∉ f.ps → .gs ∉ f.ps → f.linearAddr m s mf = ea)

/-- R100: the default segment is SS when the base register is number 4 or 5, else DS; an override replaces it, in M64
only FS and GS. -/
def Obligations.SegmentSelection : Prop :=
  ∀ (f : Form) (m : Mode) (mf : MemForm), prefixesOk f.ps = true →
    (∀ p ∈ f.ps, p.isSegment = true → (m = .m64 → p = .fs ∨ p = .gs) → f.segment m mf = p) ∧
    ((∀ p ∈ f.ps, p.isSegment = true → m = .m64 ∧ p ≠ .fs ∧ p ≠ .gs) →
      f.segment m mf = if baseReg f mf = some 4#4 ∨ baseReg f mf = some 5#4 then .ss else .ds)

/-- R59: canonical means that bits `63 : VA_BITS - 1` are all equal. -/
def Obligations.CanonicalMeansSignExtended : Prop :=
  ∀ (va : VaBits) (la : Word),
    canonical va la.toNat = true ↔ ∀ i, va.count - 1 ≤ i → i < 64 → la.getLsbD i = la.getLsbD 63

/-! ## Store, then load -/

/-- R63, R263: a store followed at once by a load of the same bytes reads the stored bytes, for every pair of unmasked
forms of one length, where the bytes of the operand have distinct locations, the same for reading and writing. -/
def Obligations.StoreThenLoadReadsTheStoredElements : Prop :=
  ∀ (i i' : Instr) (m : Mode) (s t u : State) (mf mf' : MemForm) (la : Nat),
    directionOf i = .store → directionOf i' = .load → (formOf i).rm = .mem mf → (formOf i').rm = .mem mf' →
    (formOf i').vl = (formOf i).vl → (formOf i).aaa = 0#3 → (formOf i').aaa = 0#3 → launchMode s = .ok m →
    exec i s = .next t → exec i' t = .next u →
    la = (formOf i).linearAddr m s mf → la = (formOf i').linearAddr m t mf' →
    (∀ b < (formOf i).vl.bytes, translateByte m s .read (la + b) = translateByte m s .write (la + b)) →
    (∀ b < (formOf i).vl.bytes, ∀ b' < (formOf i).vl.bytes,
      translateByte m s .write (la + b) = translateByte m s .write (la + b') → b = b') →
      ∀ j : Fin 16, j.val < (formOf i).vl.elems →
        (u.readV (formOf i').regNum)[j] = (s.readV (formOf i).regNum)[j]
end

