-- ==== Sys2Proof/Laws/Memory.lean ====
section
/-! SUPPORT. Laws of memory: a read after a write to the same place gives the value written, a write leaves every
other place alone, every write keeps the canonical form, and what the free order of a store's bytes can change. -/

namespace Sys2Proof.Machine

/-! ## One byte -/

@[simp] theorem Memory.find_nil (a : Nat) : Memory.find? [] a = none := rfl

theorem Memory.find_write (m : Memory) (a a' : Nat) (b : Byte) :
    (Memory.write m a b).find? a' = if a = a' then some b else m.find? a' := by
  induction m with
  | nil => simp [Memory.write, Memory.find?]
  | cons c m ih =>
    simp only [Memory.write]
    split
    · simp [Memory.find?]
    · split
      · rename_i h
        subst h
        simp only [Memory.find?]
        split <;> rfl
      · simp only [Memory.find?, ih]
        split
        · rename_i h1 h2 h3
          rw [if_neg (by omega)]
        · rfl

@[simp] theorem Memory.find_write_same (m : Memory) (a : Nat) (b : Byte) : (Memory.write m a b).find? a = some b := by
  simp [Memory.find_write]

theorem Memory.find_write_other (m : Memory) (a a' : Nat) (b : Byte) (h : a ≠ a') :
    (Memory.write m a b).find? a' = m.find? a' := by
  simp [Memory.find_write, h]

@[simp] theorem Memory.byte_write_same (m : Memory) (a : Nat) (b : Byte) : (Memory.write m a b).byte a = b := by
  simp [Memory.byte]

theorem Memory.byte_write_other (m : Memory) (a a' : Nat) (b : Byte) (h : a ≠ a') :
    (Memory.write m a b).byte a' = m.byte a' := by
  simp [Memory.byte, Memory.find_write_other m a a' b h]

/-! ## The canonical form -/

@[simp] theorem Memory.wf_nil : Memory.wf [] = true := rfl

theorem Memory.wf_cons (c : Host.Cell) (m : Memory) :
    Memory.wf (c :: m) = true ↔ (∀ d, m.head? = some d → c.1 < d.1) ∧ Memory.wf m = true := by
  cases m <;> simp [Memory.wf]

/-- The first address of a memory after a write is the old one or the one written. -/
theorem Memory.head_write (m : Memory) (a : Nat) (b : Byte) (d : Host.Cell)
    (h : (Memory.write m a b).head? = some d) : d.1 = a ∨ (∃ c, m.head? = some c ∧ d.1 = c.1) := by
  cases m with
  | nil => simp [Memory.write] at h; left; rw [← h]
  | cons c m =>
    simp only [Memory.write] at h
    split at h
    · simp at h; left; rw [← h]
    · split at h
      · simp at h; left; rw [← h]
      · simp at h; right; exact ⟨c, rfl, by rw [h]⟩

/-- A write keeps the canonical form. -/
theorem Memory.wf_write (m : Memory) (a : Nat) (b : Byte) (h : m.wf = true) : (Memory.write m a b).wf = true := by
  induction m with
  | nil => rfl
  | cons c m ih =>
    rw [Memory.wf_cons] at h
    simp only [Memory.write]
    split
    · rename_i hlt
      rw [Memory.wf_cons, Memory.wf_cons]
      exact ⟨by rintro d hd; simp at hd; rw [← hd]; exact hlt, h⟩
    · split
      · rename_i heq
        rw [Memory.wf_cons]
        exact ⟨by rintro d hd; rw [heq]; exact h.1 d hd, h.2⟩
      · rw [Memory.wf_cons]
        refine ⟨fun d hd => ?_, ih h.2⟩
        rcases Memory.head_write m a b d hd with hd | ⟨e, he, hd⟩
        · omega
        · have := h.1 e he
          omega

/-- In a memory in canonical form no address below the first cell's is listed. -/
theorem Memory.find_lt_head (c : Host.Cell) (m : Memory) (h : Memory.wf (c :: m) = true) (a : Nat) (ha : a < c.1) :
    Memory.find? (c :: m) a = none := by
  induction m generalizing c with
  | nil => simp [Memory.find?]; omega
  | cons d m ih =>
    rw [Memory.wf_cons] at h
    have hd := h.1 d rfl
    rw [Memory.find?, if_neg (by omega)]
    exact ih d h.2 (by omega)

/-- Nor is the first cell's own address listed after it. -/
theorem Memory.find_tail_head (c : Host.Cell) (m : Memory) (h : Memory.wf (c :: m) = true) :
    Memory.find? m c.1 = none := by
  cases m with
  | nil => rfl
  | cons d m =>
    rw [Memory.wf_cons] at h
    exact Memory.find_lt_head d m h.2 _ (h.1 d rfl)

/-- The canonical form is one: memories in it that list the same bytes are equal data. -/
theorem Memory.ext_of_wf (m n : Memory) (hm : m.wf = true) (hn : n.wf = true) (h : ∀ a, m.find? a = n.find? a) :
    m = n := by
  induction m generalizing n with
  | nil =>
    cases n with
    | nil => rfl
    | cons d n => have := h d.1; simp [Memory.find?] at this
  | cons c m ih =>
    cases n with
    | nil => have := h c.1; simp [Memory.find?] at this
    | cons d n =>
      have hcd : c.1 = d.1 := by
        rcases Nat.lt_trichotomy c.1 d.1 with hlt | heq | hgt
        · have := h c.1
          rw [Memory.find_lt_head d n hn _ hlt] at this
          simp [Memory.find?] at this
        · exact heq
        · have := h d.1
          rw [Memory.find_lt_head c m hm _ hgt] at this
          simp [Memory.find?] at this
      have hval : c.2 = d.2 := by
        have := h c.1
        simpa [Memory.find?, hcd] using this
      have hc : c = d := Prod.ext hcd hval
      subst hc
      have hm' := (Memory.wf_cons c m).1 hm
      have hn' := (Memory.wf_cons c n).1 hn
      rw [ih n hm'.2 hn'.2 fun a => ?_]
      by_cases ha : c.1 = a
      · rw [← ha, Memory.find_tail_head c m hm, Memory.find_tail_head c n hn]
      · have := h a
        simpa [Memory.find?, ha] using this

/-! ## A list of bytes -/

@[simp] theorem Memory.writeCells_nil (m : Memory) : m.writeCells [] = m := rfl

@[simp] theorem Memory.writeCells_cons (m : Memory) (c : Host.Cell) (cs : List Host.Cell) :
    m.writeCells (c :: cs) = (m.write c.1 c.2).writeCells cs := rfl

theorem Memory.wf_writeCells (cs : List Host.Cell) (m : Memory) (h : m.wf = true) :
    (m.writeCells cs).wf = true := by
  induction cs generalizing m with
  | nil => exact h
  | cons c cs ih => exact ih _ (Memory.wf_write m c.1 c.2 h)

/-- A location none of the cells names is left alone. -/
theorem Memory.find_writeCells_other (cs : List Host.Cell) (m : Memory) (a : Nat) (h : ∀ c ∈ cs, c.1 ≠ a) :
    (m.writeCells cs).find? a = m.find? a := by
  induction cs generalizing m with
  | nil => rfl
  | cons c cs ih =>
    rw [Memory.writeCells_cons, ih _ (fun d hd => h d (List.mem_cons_of_mem _ hd)),
      Memory.find_write_other _ _ _ _ (h c List.mem_cons_self)]

/-- A location that some cell names, each time with the same byte, holds that byte. -/
theorem Memory.find_writeCells_mem (cs : List Host.Cell) (m : Memory) (a : Nat) (b : Byte)
    (hmem : (a, b) ∈ cs) (hall : ∀ c ∈ cs, c.1 = a → c.2 = b) : (m.writeCells cs).find? a = some b := by
  induction cs generalizing m with
  | nil => simp at hmem
  | cons c cs ih =>
    rw [Memory.writeCells_cons]
    by_cases hin : (a, b) ∈ cs
    · exact ih _ hin (fun d hd => hall d (List.mem_cons_of_mem _ hd))
    · have hc : c = (a, b) := by
        rcases List.mem_cons.1 hmem with h | h
        · exact h.symm
        · exact absurd h hin
      rw [Memory.find_writeCells_other, hc, Memory.find_write_same]
      intro d hd hda
      apply hin
      have := hall d (List.mem_cons_of_mem _ hd) hda
      rw [← hda, ← this]
      exact hd

/-- A location that some cell names holds the byte of one of those cells. -/
theorem Memory.find_writeCells_some (cs : List Host.Cell) (m : Memory) (a : Nat) (h : ∃ c ∈ cs, c.1 = a) :
    ∃ b, (a, b) ∈ cs ∧ (m.writeCells cs).find? a = some b := by
  induction cs generalizing m with
  | nil => simp at h
  | cons c cs ih =>
    by_cases hcs : ∃ d ∈ cs, d.1 = a
    · obtain ⟨b, hb, hf⟩ := ih (m.write c.1 c.2) hcs
      exact ⟨b, List.mem_cons_of_mem _ hb, hf⟩
    · obtain ⟨d, hd, hda⟩ := h
      rcases List.mem_cons.1 hd with rfl | hd
      · refine ⟨d.2, by rw [← hda]; exact List.mem_cons_self, ?_⟩
        rw [Memory.writeCells_cons, Memory.find_writeCells_other, hda, Memory.find_write_same]
        exact fun e he hea => hcs ⟨e, he, hea⟩
      · exact absurd ⟨d, hd, hda⟩ hcs

/-! ## The free order of the bytes of one store -/

theorem mem_insertByRank (c d : Nat × Host.Cell) (cs : List (Nat × Host.Cell)) :
    d ∈ insertByRank c cs ↔ d = c ∨ d ∈ cs := by
  induction cs with
  | nil => simp [insertByRank]
  | cons e cs ih =>
    simp only [insertByRank]
    split
    · simp
    · simp [ih]; tauto

theorem mem_rankCells (d i : Nat) (c : Host.Cell) (cs : List Host.Cell) :
    c ∈ (rankCells d i cs).map Prod.snd ↔ c ∈ cs := by
  induction cs generalizing i with
  | nil => simp [rankCells]
  | cons e cs ih =>
    have := ih (i + 1)
    simp only [List.mem_map, Prod.exists, exists_eq_right] at this
    simp only [rankCells, List.mem_map, mem_insertByRank, List.mem_cons, Prod.exists, exists_eq_right]
    constructor
    · rintro ⟨r, h | h⟩
      · left; exact (Prod.mk.inj h).2
      · right; exact this.1 ⟨r, h⟩
    · rintro (h | h)
      · exact ⟨Config.writeRank d i, Or.inl (by rw [h])⟩
      · obtain ⟨r, hr⟩ := this.2 h
        exact ⟨r, Or.inr hr⟩

/-- Whatever the order, the same bytes are written. -/
@[simp] theorem mem_writeOrder (d : Nat) (c : Host.Cell) (cs : List Host.Cell) : c ∈ writeOrder d cs ↔ c ∈ cs := by
  unfold writeOrder
  split
  · rfl
  · exact mem_rankCells d 0 c cs

/-- A store leaves every location alone that none of its bytes has. -/
theorem Memory.find_store_other (d : Nat) (cs : List Host.Cell) (m : Memory) (a : Nat) (h : ∀ c ∈ cs, c.1 ≠ a) :
    (m.writeCells (writeOrder d cs)).find? a = m.find? a :=
  Memory.find_writeCells_other _ m a (fun c hc => h c ((mem_writeOrder d c cs).1 hc))

/-- A byte of a store whose location no other byte of it has is what the location holds after it. -/
theorem Memory.find_store_mem (d : Nat) (cs : List Host.Cell) (m : Memory) (a : Nat) (b : Byte)
    (hmem : (a, b) ∈ cs) (hall : ∀ c ∈ cs, c.1 = a → c.2 = b) :
    (m.writeCells (writeOrder d cs)).find? a = some b :=
  Memory.find_writeCells_mem _ m a b ((mem_writeOrder d _ cs).2 hmem)
    (fun c hc => hall c ((mem_writeOrder d c cs).1 hc))

/-- A location that a store's bytes name holds one of the bytes named for it. -/
theorem Memory.find_store_some (d : Nat) (cs : List Host.Cell) (m : Memory) (a : Nat) (h : ∃ c ∈ cs, c.1 = a) :
    ∃ b, (a, b) ∈ cs ∧ (m.writeCells (writeOrder d cs)).find? a = some b := by
  obtain ⟨c, hc, hca⟩ := h
  obtain ⟨b, hb, hf⟩ := Memory.find_writeCells_some (writeOrder d cs) m a ⟨c, (mem_writeOrder d c cs).2 hc, hca⟩
  exact ⟨b, (mem_writeOrder d _ cs).1 hb, hf⟩

end Sys2Proof.Machine
end

