-- ==== Sys2Proof/Laws/Vec.lean ====
section
/-! SUPPORT. Laws of vector values: each result of an instruction read element by element, and elements and bytes. -/

namespace Sys2Proof.Machine

theorem getElem_mergeLow (old src : Vec) (j : Nat) (h : j < 16) :
    (mergeLow old src)[j] = if j < 4 then src[j] else old[j] := by
  simp [mergeLow]

theorem getElem_zeroAbove (vl : VL) (src : Vec) (j : Nat) (h : j < 16) :
    (zeroAbove vl src)[j] = if j < vl.elems then src[j] else 0#32 := by
  simp [zeroAbove]

theorem getElem_regResult (vl : VL) (mask : Option KMask) (z : Bool) (old src : Vec) (j : Nat) (h : j < 16) :
    (regResult vl mask z old src)[j] =
      if j < vl.elems then (if active mask j then src[j] else if z then 0#32 else old[j]) else 0#32 := by
  simp [regResult]

theorem getElem_vecOfElems (es : List Elem) (j : Nat) (h : j < 16) : (vecOfElems es)[j] = es.getD j 0#32 := by
  simp [vecOfElems]

theorem VL.elems_le (vl : VL) : vl.elems ≤ 16 := by cases vl <;> simp [VL.elems]

theorem VL.elems_ge (vl : VL) : 4 ≤ vl.elems := by cases vl <;> simp [VL.elems]

@[simp] theorem active_none (j : Nat) : active none j = true := rfl

/-- The two byte views of an element agree (R51, R52). -/
@[simp] theorem elemOfBytes_elemBytes (e : Elem) : elemOfBytes (elemBytes e) = e := by
  simp only [elemBytes, elemOfBytes]
  ext i hi
  simp only [BitVec.getElem_append, BitVec.getElem_extractLsb']
  split
  · simp [BitVec.getLsbD_eq_getElem, hi]
  · split
    · rw [BitVec.getLsbD_eq_getElem (by omega)]; congr 1; omega
    · split
      · rw [BitVec.getLsbD_eq_getElem (by omega)]; congr 1; omega
      · rw [BitVec.getLsbD_eq_getElem (by omega)]; congr 1; omega

/-- Byte `c` of an element made of four bytes. -/
theorem extract_elemOfBytes (b0 b1 b2 b3 : Byte) (c : Nat) (h : c < 4) :
    (elemOfBytes [b0, b1, b2, b3]).extractLsb' (8 * c) 8 = [b0, b1, b2, b3].getD c 0#8 := by
  have : c = 0 ∨ c = 1 ∨ c = 2 ∨ c = 3 := by omega
  rcases this with rfl | rfl | rfl | rfl <;> simp only [elemOfBytes] <;> ext i hi <;>
    simp only [BitVec.getElem_extractLsb', BitVec.getLsbD_append]
  · rw [if_pos (by omega)]; simp [BitVec.getLsbD_eq_getElem, hi]
  · rw [if_neg (by omega), if_pos (by omega)]
    simp [BitVec.getLsbD_eq_getElem, hi]
  · rw [if_neg (by omega), if_neg (by omega), if_pos (by omega), BitVec.getLsbD_eq_getElem (by omega)]
    simp only [List.getD_cons_succ, List.getD_cons_zero]
    congr 1; omega
  · rw [if_neg (by omega), if_neg (by omega), if_neg (by omega), BitVec.getLsbD_eq_getElem (by omega)]
    simp only [List.getD_cons_succ, List.getD_cons_zero]
    congr 1; omega

theorem elemBytes_getD (e : Elem) (c : Nat) (h : c < 4) : (elemBytes e).getD c 0#8 = e.extractLsb' (8 * c) 8 := by
  have : c = 0 ∨ c = 1 ∨ c = 2 ∨ c = 3 := by omega
  rcases this with rfl | rfl | rfl | rfl <;> rfl

@[simp] theorem elemBytes_length (e : Elem) : (elemBytes e).length = 4 := rfl

@[simp] theorem elemAddrs_length (la j : Nat) : (elemAddrs la j).length = 4 := rfl

theorem elemAddrs_getD (la j c : Nat) (h : c < 4) : (elemAddrs la j).getD c 0 = la + 4 * j + c := by
  have : c = 0 ∨ c = 1 ∨ c = 2 ∨ c = 3 := by omega
  rcases this with rfl | rfl | rfl | rfl <;> rfl

theorem mem_elemAddrs (la j a : Nat) : a ∈ elemAddrs la j ↔ ∃ c < 4, a = la + 4 * j + c := by
  simp only [elemAddrs, List.mem_cons, List.not_mem_nil, or_false]
  constructor
  · rintro (h | h | h | h)
    · exact ⟨0, by omega, h⟩
    · exact ⟨1, by omega, h⟩
    · exact ⟨2, by omega, h⟩
    · exact ⟨3, by omega, h⟩
  · rintro ⟨c, hc, rfl⟩
    omega

end Sys2Proof.Machine
end

