-- ==== Sys2Proof/Laws/Access.lean ====
section
/-! SUPPORT. What the memory primitives of R68 and R178 can do: when they answer, what they answer, and which stop
they report. -/

namespace Sys2Proof.Machine

/-! ## Translation of several bytes -/

/-- Every byte is translated, each on its own. -/
theorem translateAll_ok (m : Mode) (s : State) (kd : AccessKind) (las ps : List Nat) :
    translateAll m s kd las = .ok ps ↔ List.Forall₂ (fun la p => translateByte m s kd la = .ok p) las ps := by
  induction las generalizing ps with
  | nil => simp [translateAll, eq_comm]
  | cons la las ih =>
    rw [List.forall₂_cons_left_iff]
    simp only [translateAll]
    cases hp : translateByte m s kd la with
    | error e => simp
    | ok p =>
      cases hq : translateAll m s kd las with
      | error e =>
        simp only [reduceCtorEq, Except.ok.injEq, false_iff, not_exists, not_and]
        rintro b qs rfl hqs
        exact absurd ((ih qs).2 hqs) (by simp [hq])
      | ok qs =>
        simp only [Except.ok.injEq]
        constructor
        · rintro rfl
          exact ⟨p, qs, rfl, (ih qs).1 hq, rfl⟩
        · rintro ⟨b, rs, rfl, hrs, rfl⟩
          have := (ih rs).2 hrs
          rw [hq] at this
          rw [Except.ok.inj this]

/-- It answers when every byte has a location. -/
theorem translateAll_exists (m : Mode) (s : State) (kd : AccessKind) (las : List Nat)
    (h : ∀ la ∈ las, ∃ p, translateByte m s kd la = .ok p) : ∃ ps, translateAll m s kd las = .ok ps := by
  induction las with
  | nil => exact ⟨[], rfl⟩
  | cons la las ih =>
    obtain ⟨p, hp⟩ := h la List.mem_cons_self
    obtain ⟨ps, hps⟩ := ih (fun a ha => h a (List.mem_cons_of_mem _ ha))
    exact ⟨p :: ps, by simp [translateAll, hp, hps]⟩

theorem translateAll_mem (m : Mode) (s : State) (kd : AccessKind) (las ps : List Nat)
    (h : translateAll m s kd las = .ok ps) (la : Nat) (hla : la ∈ las) : ∃ p, translateByte m s kd la = .ok p := by
  rw [translateAll_ok] at h
  induction h with
  | nil => simp at hla
  | cons hp _ ih =>
    rcases List.mem_cons.1 hla with rfl | hla
    · exact ⟨_, hp⟩
    · exact ih hla

/-- The stop reported is that of the first byte that has one (R68: the lowest address). -/
theorem translateAll_error (m : Mode) (s : State) (kd : AccessKind) (pre post : List Nat) (la : Nat) (e : Stop)
    (hpre : ∀ a ∈ pre, ∃ p, translateByte m s kd a = .ok p) (h : translateByte m s kd la = .error e) :
    translateAll m s kd (pre ++ la :: post) = .error e := by
  induction pre with
  | nil => simp [translateAll, h]
  | cons a pre ih =>
    obtain ⟨p, hp⟩ := hpre a List.mem_cons_self
    simp [translateAll, hp, ih (fun b hb => hpre b (List.mem_cons_of_mem _ hb))]

/-! ## Reading elements -/

/-- A byte of an element that was read. -/
theorem readElem_ok (m : Mode) (s : State) (la j : Nat) (e : Elem) (h : readElem m s la j = .ok e)
    (c : Nat) (hc : c < 4) :
    ∃ p, translateByte m s .read (la + 4 * j + c) = .ok p ∧ e.extractLsb' (8 * c) 8 = s.mem.byte p := by
  unfold readElem at h
  cases hps : translateAll m s .read (elemAddrs la j) with
  | error e' => simp [hps] at h
  | ok ps =>
    simp only [hps, Except.ok.injEq] at h
    rw [translateAll_ok, elemAddrs] at hps
    obtain ⟨p0, qs0, h0, hr0, rfl⟩ := List.forall₂_cons_left_iff.1 hps
    obtain ⟨p1, qs1, h1, hr1, rfl⟩ := List.forall₂_cons_left_iff.1 hr0
    obtain ⟨p2, qs2, h2, hr2, rfl⟩ := List.forall₂_cons_left_iff.1 hr1
    obtain ⟨p3, qs3, h3, hr3, rfl⟩ := List.forall₂_cons_left_iff.1 hr2
    cases hr3
    rw [← h]
    simp only [List.map_cons, List.map_nil]
    rw [extract_elemOfBytes _ _ _ _ _ hc]
    have : c = 0 ∨ c = 1 ∨ c = 2 ∨ c = 3 := by omega
    rcases this with rfl | rfl | rfl | rfl
    · exact ⟨p0, h0, rfl⟩
    · exact ⟨p1, h1, rfl⟩
    · exact ⟨p2, h2, rfl⟩
    · exact ⟨p3, h3, rfl⟩

theorem readElem_exists (m : Mode) (s : State) (la j : Nat)
    (h : ∀ c < 4, ∃ p, translateByte m s .read (la + 4 * j + c) = .ok p) : ∃ e, readElem m s la j = .ok e := by
  obtain ⟨ps, hps⟩ := translateAll_exists m s .read (elemAddrs la j) (by
    intro a ha
    obtain ⟨c, hc, rfl⟩ := (mem_elemAddrs la j a).1 ha
    exact h c hc)
  exact ⟨_, by simp only [readElem, hps]; rfl⟩

/-- What a load reads: an active element as `MemRead` gives it, 0 for an inactive one. -/
theorem readElems_ok (m : Mode) (s : State) (la : Nat) (mask : Option KMask) (js : List Nat) (es : List Elem)
    (h : readElems m s la mask js = .ok es) :
    List.Forall₂ (fun j e => if active mask j then readElem m s la j = .ok e else e = 0#32) js es := by
  induction js generalizing es with
  | nil =>
    simp only [readElems, Except.ok.injEq] at h
    subst h; exact .nil
  | cons j js ih =>
    simp only [readElems] at h
    split at h
    · rename_i hact
      cases he : readElem m s la j with
      | error e' => simp [he] at h
      | ok e =>
        cases hes : readElems m s la mask js with
        | error e' => simp [he, hes] at h
        | ok es' =>
          simp only [he, hes, Except.ok.injEq] at h
          subst h
          exact .cons (by simp [hact, he]) (ih _ hes)
    · rename_i hact
      cases hes : readElems m s la mask js with
      | error e' => simp [hes] at h
      | ok es' =>
        simp only [hes, Except.ok.injEq] at h
        subst h
        exact .cons (by simp [hact]) (ih _ hes)

theorem readElems_exists (m : Mode) (s : State) (la : Nat) (mask : Option KMask) (js : List Nat)
    (h : ∀ j ∈ js, active mask j = true → ∃ e, readElem m s la j = .ok e) :
    ∃ es, readElems m s la mask js = .ok es := by
  induction js with
  | nil => exact ⟨[], rfl⟩
  | cons j js ih =>
    obtain ⟨es, hes⟩ := ih (fun i hi => h i (List.mem_cons_of_mem _ hi))
    by_cases hact : active mask j = true
    · obtain ⟨e, he⟩ := h j List.mem_cons_self hact
      exact ⟨e :: es, by simp [readElems, hact, he, hes]⟩
    · exact ⟨0#32 :: es, by simp [readElems, hact, hes]⟩

theorem forall₂_range (n : Nat) (R : Nat → Elem → Prop) (es : List Elem) (h : List.Forall₂ R (List.range n) es)
    (j : Nat) (hj : j < n) : R j (es.getD j 0#32) := by
  have hlen := h.length_eq
  rw [List.length_range] at hlen
  have := List.Forall₂.get h (i := j) (by simpa using hj) (by omega)
  simpa [List.getD_eq_getElem, hlen ▸ hj] using this

/-- Element `j` of what a load reads from an operand of `n` elements. -/
theorem readElems_getD (m : Mode) (s : State) (la : Nat) (mask : Option KMask) (n : Nat) (es : List Elem)
    (h : readElems m s la mask (List.range n) = .ok es) (j : Nat) (hj : j < n) (hact : active mask j = true) :
    readElem m s la j = .ok (es.getD j 0#32) := by
  have := forall₂_range n _ es (readElems_ok m s la mask _ es h) j hj
  simpa [hact] using this

/-! ## The bytes of a store -/

theorem mem_storeAddrs (la : Nat) (mask : Option KMask) (js : List Nat) (a : Nat) :
    a ∈ storeAddrs la mask js ↔ ∃ j ∈ js, active mask j = true ∧ ∃ c < 4, a = la + 4 * j + c := by
  induction js with
  | nil => simp [storeAddrs]
  | cons j js ih =>
    simp only [storeAddrs]
    split
    · rename_i hact
      simp [ih, mem_elemAddrs, hact]
    · rename_i hact
      simp [ih, hact]

theorem storeBytes_length (la : Nat) (src : Vec) (mask : Option KMask) (js : List Nat) :
    (storeBytes src mask js).length = (storeAddrs la mask js).length := by
  induction js with
  | nil => rfl
  | cons j js ih =>
    simp only [storeBytes, storeAddrs]
    split <;> simp [ih]

/-- A cell of a store, before its order is drawn: a byte of an active element at its location. -/
theorem mem_zip_store (m : Mode) (s : State) (la : Nat) (src : Vec) (mask : Option KMask) (js : List Nat)
    (ps : List Nat) (h : translateAll m s .write (storeAddrs la mask js) = .ok ps) (p : Nat) (b : Byte) :
    (p, b) ∈ ps.zip (storeBytes src mask js) ↔
      ∃ j ∈ js, active mask j = true ∧ ∃ c < 4, translateByte m s .write (la + 4 * j + c) = .ok p ∧
        b = (src.getD j 0#32).extractLsb' (8 * c) 8 := by
  rw [translateAll_ok] at h
  induction js generalizing ps with
  | nil => simp [storeBytes]
  | cons j js ih =>
    by_cases hact : active mask j = true
    · simp only [storeAddrs, hact, if_true, elemAddrs, List.cons_append, List.nil_append] at h
      obtain ⟨p0, qs0, h0, hr0, rfl⟩ := List.forall₂_cons_left_iff.1 h
      obtain ⟨p1, qs1, h1, hr1, rfl⟩ := List.forall₂_cons_left_iff.1 hr0
      obtain ⟨p2, qs2, h2, hr2, rfl⟩ := List.forall₂_cons_left_iff.1 hr1
      obtain ⟨p3, qs3, h3, hr3, rfl⟩ := List.forall₂_cons_left_iff.1 hr2
      simp only [storeBytes, hact, if_true, elemBytes, List.cons_append, List.nil_append, List.zip_cons_cons,
        List.mem_cons, ih qs3 hr3, Prod.mk.injEq, exists_eq_or_imp, true_and]
      constructor
      · rintro (⟨rfl, rfl⟩ | ⟨rfl, rfl⟩ | ⟨rfl, rfl⟩ | ⟨rfl, rfl⟩ | hr)
        · exact .inl ⟨0, by omega, h0, rfl⟩
        · exact .inl ⟨1, by omega, h1, rfl⟩
        · exact .inl ⟨2, by omega, h2, rfl⟩
        · exact .inl ⟨3, by omega, h3, rfl⟩
        · exact .inr hr
      · rintro (⟨c, hc, hp, rfl⟩ | hr)
        · have : c = 0 ∨ c = 1 ∨ c = 2 ∨ c = 3 := by omega
          rcases this with rfl | rfl | rfl | rfl
          · rw [Nat.add_zero] at hp; rw [h0] at hp; exact .inl ⟨(Except.ok.inj hp).symm, rfl⟩
          · rw [h1] at hp; exact .inr (.inl ⟨(Except.ok.inj hp).symm, rfl⟩)
          · rw [h2] at hp; exact .inr (.inr (.inl ⟨(Except.ok.inj hp).symm, rfl⟩))
          · rw [h3] at hp; exact .inr (.inr (.inr (.inl ⟨(Except.ok.inj hp).symm, rfl⟩)))
        · exact .inr (.inr (.inr (.inr hr)))
    · simp only [storeAddrs, hact] at h
      simp [storeBytes, hact, ih ps h]

/-- When a store goes on to its data movement, and what it then writes. -/
theorem storeCells_ok (m : Mode) (s : State) (la : Nat) (mask : Option KMask) (js : List Nat) (src : Vec)
    (cells : List Host.Cell) :
    storeCells m s la mask js src = .ok cells ↔
      (∀ a ∈ storeAddrs la mask js, s.inProgram a = false) ∧
      ∃ ps, translateAll m s .write (storeAddrs la mask js) = .ok ps ∧
        cells = writeOrder s.draws (ps.zip (storeBytes src mask js)) := by
  unfold storeCells
  split
  · rename_i h
    obtain ⟨a, ha, hin⟩ := List.any_eq_true.1 h
    simp only [refuse, reduceCtorEq, false_iff, not_and]
    intro hall
    exact absurd (hall a ha) (by simp [hin])
  · rename_i h
    have hall : ∀ a ∈ storeAddrs la mask js, s.inProgram a = false := by
      simpa [List.any_eq_true] using h
    cases hps : translateAll m s .write (storeAddrs la mask js) with
    | error e => simp
    | ok ps =>
      simp only [Except.ok.injEq, exists_eq_left']
      exact ⟨fun hc => ⟨hall, hc.symm⟩, fun hc => hc.2.symm⟩

end Sys2Proof.Machine
end

