-- ==== Sys2Proof/Laws/State.lean ====
section
/-! SUPPORT. One lemma per field of State per update, so that no proof unfolds a record update; and what the
derived bits, registers and addresses of an updated state are. -/

namespace Sys2Proof.Machine

/-! ## writeV -/

@[simp] theorem State.writeV_v (s : State) (n : VNum) (a : Vec) : (s.writeV n a).v = s.v.set n.toNat a n.isLt := rfl
@[simp] theorem State.writeV_k (s : State) (n : VNum) (a : Vec) : (s.writeV n a).k = s.k := rfl
@[simp] theorem State.writeV_x (s : State) (n : VNum) (a : Vec) : (s.writeV n a).x = s.x := rfl
@[simp] theorem State.writeV_pc (s : State) (n : VNum) (a : Vec) : (s.writeV n a).pc = s.pc := rfl
@[simp] theorem State.writeV_rflags (s : State) (n : VNum) (a : Vec) : (s.writeV n a).rflags = s.rflags := rfl
@[simp] theorem State.writeV_mxcsr (s : State) (n : VNum) (a : Vec) : (s.writeV n a).mxcsr = s.mxcsr := rfl
@[simp] theorem State.writeV_cr0 (s : State) (n : VNum) (a : Vec) : (s.writeV n a).cr0 = s.cr0 := rfl
@[simp] theorem State.writeV_cr2 (s : State) (n : VNum) (a : Vec) : (s.writeV n a).cr2 = s.cr2 := rfl
@[simp] theorem State.writeV_cr4 (s : State) (n : VNum) (a : Vec) : (s.writeV n a).cr4 = s.cr4 := rfl
@[simp] theorem State.writeV_xcr0 (s : State) (n : VNum) (a : Vec) : (s.writeV n a).xcr0 = s.xcr0 := rfl
@[simp] theorem State.writeV_efer (s : State) (n : VNum) (a : Vec) : (s.writeV n a).efer = s.efer := rfl
@[simp] theorem State.writeV_csL (s : State) (n : VNum) (a : Vec) : (s.writeV n a).csL = s.csL := rfl
@[simp] theorem State.writeV_csD (s : State) (n : VNum) (a : Vec) : (s.writeV n a).csD = s.csD := rfl
@[simp] theorem State.writeV_cpl (s : State) (n : VNum) (a : Vec) : (s.writeV n a).cpl = s.cpl := rfl
@[simp] theorem State.writeV_esBase (s : State) (n : VNum) (a : Vec) : (s.writeV n a).esBase = s.esBase := rfl
@[simp] theorem State.writeV_csBase (s : State) (n : VNum) (a : Vec) : (s.writeV n a).csBase = s.csBase := rfl
@[simp] theorem State.writeV_ssBase (s : State) (n : VNum) (a : Vec) : (s.writeV n a).ssBase = s.ssBase := rfl
@[simp] theorem State.writeV_dsBase (s : State) (n : VNum) (a : Vec) : (s.writeV n a).dsBase = s.dsBase := rfl
@[simp] theorem State.writeV_fsBase (s : State) (n : VNum) (a : Vec) : (s.writeV n a).fsBase = s.fsBase := rfl
@[simp] theorem State.writeV_gsBase (s : State) (n : VNum) (a : Vec) : (s.writeV n a).gsBase = s.gsBase := rfl
@[simp] theorem State.writeV_features (s : State) (n : VNum) (a : Vec) : (s.writeV n a).features = s.features := rfl
@[simp] theorem State.writeV_vaBits (s : State) (n : VNum) (a : Vec) : (s.writeV n a).vaBits = s.vaBits := rfl
@[simp] theorem State.writeV_translation (s : State) (n : VNum) (a : Vec) : (s.writeV n a).translation = s.translation := rfl
@[simp] theorem State.writeV_codeBase (s : State) (n : VNum) (a : Vec) : (s.writeV n a).codeBase = s.codeBase := rfl
@[simp] theorem State.writeV_codeEnd (s : State) (n : VNum) (a : Vec) : (s.writeV n a).codeEnd = s.codeEnd := rfl
@[simp] theorem State.writeV_mem (s : State) (n : VNum) (a : Vec) : (s.writeV n a).mem = s.mem := rfl
@[simp] theorem State.writeV_draws (s : State) (n : VNum) (a : Vec) : (s.writeV n a).draws = s.draws := rfl

/-! ## setMem -/

@[simp] theorem State.setMem_v (s : State) (mem : Memory) : (s.setMem mem).v = s.v := rfl
@[simp] theorem State.setMem_k (s : State) (mem : Memory) : (s.setMem mem).k = s.k := rfl
@[simp] theorem State.setMem_x (s : State) (mem : Memory) : (s.setMem mem).x = s.x := rfl
@[simp] theorem State.setMem_pc (s : State) (mem : Memory) : (s.setMem mem).pc = s.pc := rfl
@[simp] theorem State.setMem_rflags (s : State) (mem : Memory) : (s.setMem mem).rflags = s.rflags := rfl
@[simp] theorem State.setMem_mxcsr (s : State) (mem : Memory) : (s.setMem mem).mxcsr = s.mxcsr := rfl
@[simp] theorem State.setMem_cr0 (s : State) (mem : Memory) : (s.setMem mem).cr0 = s.cr0 := rfl
@[simp] theorem State.setMem_cr2 (s : State) (mem : Memory) : (s.setMem mem).cr2 = s.cr2 := rfl
@[simp] theorem State.setMem_cr4 (s : State) (mem : Memory) : (s.setMem mem).cr4 = s.cr4 := rfl
@[simp] theorem State.setMem_xcr0 (s : State) (mem : Memory) : (s.setMem mem).xcr0 = s.xcr0 := rfl
@[simp] theorem State.setMem_efer (s : State) (mem : Memory) : (s.setMem mem).efer = s.efer := rfl
@[simp] theorem State.setMem_csL (s : State) (mem : Memory) : (s.setMem mem).csL = s.csL := rfl
@[simp] theorem State.setMem_csD (s : State) (mem : Memory) : (s.setMem mem).csD = s.csD := rfl
@[simp] theorem State.setMem_cpl (s : State) (mem : Memory) : (s.setMem mem).cpl = s.cpl := rfl
@[simp] theorem State.setMem_esBase (s : State) (mem : Memory) : (s.setMem mem).esBase = s.esBase := rfl
@[simp] theorem State.setMem_csBase (s : State) (mem : Memory) : (s.setMem mem).csBase = s.csBase := rfl
@[simp] theorem State.setMem_ssBase (s : State) (mem : Memory) : (s.setMem mem).ssBase = s.ssBase := rfl
@[simp] theorem State.setMem_dsBase (s : State) (mem : Memory) : (s.setMem mem).dsBase = s.dsBase := rfl
@[simp] theorem State.setMem_fsBase (s : State) (mem : Memory) : (s.setMem mem).fsBase = s.fsBase := rfl
@[simp] theorem State.setMem_gsBase (s : State) (mem : Memory) : (s.setMem mem).gsBase = s.gsBase := rfl
@[simp] theorem State.setMem_features (s : State) (mem : Memory) : (s.setMem mem).features = s.features := rfl
@[simp] theorem State.setMem_vaBits (s : State) (mem : Memory) : (s.setMem mem).vaBits = s.vaBits := rfl
@[simp] theorem State.setMem_translation (s : State) (mem : Memory) : (s.setMem mem).translation = s.translation := rfl
@[simp] theorem State.setMem_codeBase (s : State) (mem : Memory) : (s.setMem mem).codeBase = s.codeBase := rfl
@[simp] theorem State.setMem_codeEnd (s : State) (mem : Memory) : (s.setMem mem).codeEnd = s.codeEnd := rfl
@[simp] theorem State.setMem_mem (s : State) (mem : Memory) : (s.setMem mem).mem = mem := rfl
@[simp] theorem State.setMem_draws (s : State) (mem : Memory) : (s.setMem mem).draws = s.draws := rfl

/-! ## advance -/

@[simp] theorem State.advance_v (s : State) (pc : Word) : (s.advance pc).v = s.v := rfl
@[simp] theorem State.advance_k (s : State) (pc : Word) : (s.advance pc).k = s.k := rfl
@[simp] theorem State.advance_x (s : State) (pc : Word) : (s.advance pc).x = s.x := rfl
@[simp] theorem State.advance_pc (s : State) (pc : Word) : (s.advance pc).pc = pc := rfl
@[simp] theorem State.advance_rflags (s : State) (pc : Word) : (s.advance pc).rflags = s.rflags := rfl
@[simp] theorem State.advance_mxcsr (s : State) (pc : Word) : (s.advance pc).mxcsr = s.mxcsr := rfl
@[simp] theorem State.advance_cr0 (s : State) (pc : Word) : (s.advance pc).cr0 = s.cr0 := rfl
@[simp] theorem State.advance_cr2 (s : State) (pc : Word) : (s.advance pc).cr2 = s.cr2 := rfl
@[simp] theorem State.advance_cr4 (s : State) (pc : Word) : (s.advance pc).cr4 = s.cr4 := rfl
@[simp] theorem State.advance_xcr0 (s : State) (pc : Word) : (s.advance pc).xcr0 = s.xcr0 := rfl
@[simp] theorem State.advance_efer (s : State) (pc : Word) : (s.advance pc).efer = s.efer := rfl
@[simp] theorem State.advance_csL (s : State) (pc : Word) : (s.advance pc).csL = s.csL := rfl
@[simp] theorem State.advance_csD (s : State) (pc : Word) : (s.advance pc).csD = s.csD := rfl
@[simp] theorem State.advance_cpl (s : State) (pc : Word) : (s.advance pc).cpl = s.cpl := rfl
@[simp] theorem State.advance_esBase (s : State) (pc : Word) : (s.advance pc).esBase = s.esBase := rfl
@[simp] theorem State.advance_csBase (s : State) (pc : Word) : (s.advance pc).csBase = s.csBase := rfl
@[simp] theorem State.advance_ssBase (s : State) (pc : Word) : (s.advance pc).ssBase = s.ssBase := rfl
@[simp] theorem State.advance_dsBase (s : State) (pc : Word) : (s.advance pc).dsBase = s.dsBase := rfl
@[simp] theorem State.advance_fsBase (s : State) (pc : Word) : (s.advance pc).fsBase = s.fsBase := rfl
@[simp] theorem State.advance_gsBase (s : State) (pc : Word) : (s.advance pc).gsBase = s.gsBase := rfl
@[simp] theorem State.advance_features (s : State) (pc : Word) : (s.advance pc).features = s.features := rfl
@[simp] theorem State.advance_vaBits (s : State) (pc : Word) : (s.advance pc).vaBits = s.vaBits := rfl
@[simp] theorem State.advance_translation (s : State) (pc : Word) : (s.advance pc).translation = s.translation := rfl
@[simp] theorem State.advance_codeBase (s : State) (pc : Word) : (s.advance pc).codeBase = s.codeBase := rfl
@[simp] theorem State.advance_codeEnd (s : State) (pc : Word) : (s.advance pc).codeEnd = s.codeEnd := rfl
@[simp] theorem State.advance_mem (s : State) (pc : Word) : (s.advance pc).mem = s.mem := rfl
@[simp] theorem State.advance_draws (s : State) (pc : Word) : (s.advance pc).draws = s.draws + 1 := rfl

/-! ## What is derived from fields no update changes -/

@[simp] theorem State.writeV_pe_eq (s : State) (n : VNum) (a : Vec) : (s.writeV n a).pe = s.pe := rfl
@[simp] theorem State.writeV_em_eq (s : State) (n : VNum) (a : Vec) : (s.writeV n a).em = s.em := rfl
@[simp] theorem State.writeV_ts_eq (s : State) (n : VNum) (a : Vec) : (s.writeV n a).ts = s.ts := rfl
@[simp] theorem State.writeV_am_eq (s : State) (n : VNum) (a : Vec) : (s.writeV n a).am = s.am := rfl
@[simp] theorem State.writeV_pg_eq (s : State) (n : VNum) (a : Vec) : (s.writeV n a).pg = s.pg := rfl
@[simp] theorem State.writeV_osfxsr_eq (s : State) (n : VNum) (a : Vec) : (s.writeV n a).osfxsr = s.osfxsr := rfl
@[simp] theorem State.writeV_osxsave_eq (s : State) (n : VNum) (a : Vec) : (s.writeV n a).osxsave = s.osxsave := rfl
@[simp] theorem State.writeV_ac_eq (s : State) (n : VNum) (a : Vec) : (s.writeV n a).ac = s.ac := rfl
@[simp] theorem State.writeV_vm_eq (s : State) (n : VNum) (a : Vec) : (s.writeV n a).vm = s.vm := rfl
@[simp] theorem State.writeV_tf_eq (s : State) (n : VNum) (a : Vec) : (s.writeV n a).tf = s.tf := rfl
@[simp] theorem State.writeV_lma_eq (s : State) (n : VNum) (a : Vec) : (s.writeV n a).lma = s.lma := rfl
@[simp] theorem State.writeV_avxEnabled_eq (s : State) (n : VNum) (a : Vec) : (s.writeV n a).avxEnabled = s.avxEnabled := rfl
@[simp] theorem State.writeV_avx512Enabled_eq (s : State) (n : VNum) (a : Vec) : (s.writeV n a).avx512Enabled = s.avx512Enabled := rfl
@[simp] theorem State.writeV_mode_eq (s : State) (n : VNum) (a : Vec) : (s.writeV n a).mode? = s.mode? := rfl
@[simp] theorem State.writeV_flat_eq (s : State) (n : VNum) (a : Vec) : (s.writeV n a).flat = s.flat := rfl
@[simp] theorem State.writeV_alignmentChecked_eq (s : State) (n : VNum) (a : Vec) : (s.writeV n a).alignmentChecked = s.alignmentChecked := rfl
@[simp] theorem State.writeV_launchMode (s : State) (n : VNum) (a : Vec) : launchMode (s.writeV n a) = launchMode s := rfl
@[simp] theorem State.writeV_readX (s : State) (n : VNum) (a : Vec) (r : GNum) : (s.writeV n a).readX r = s.readX r := rfl
@[simp] theorem State.writeV_readK (s : State) (n : VNum) (a : Vec) (r : BitVec 3) : (s.writeV n a).readK r = s.readK r := rfl
@[simp] theorem State.writeV_translate (s : State) (n : VNum) (a : Vec) (m : Mode) (kd : AccessKind) (la : Nat) :
    translateByte m (s.writeV n a) kd la = translateByte m s kd la := rfl
@[simp] theorem State.writeV_inProgram (s : State) (n : VNum) (a : Vec) (la : Nat) :
    (s.writeV n a).inProgram la = s.inProgram la := rfl
@[simp] theorem State.writeV_mask (s : State) (n : VNum) (a : Vec) (f : Form) : f.mask (s.writeV n a) = f.mask s := rfl
@[simp] theorem State.setMem_pe_eq (s : State) (mem : Memory) : (s.setMem mem).pe = s.pe := rfl
@[simp] theorem State.setMem_em_eq (s : State) (mem : Memory) : (s.setMem mem).em = s.em := rfl
@[simp] theorem State.setMem_ts_eq (s : State) (mem : Memory) : (s.setMem mem).ts = s.ts := rfl
@[simp] theorem State.setMem_am_eq (s : State) (mem : Memory) : (s.setMem mem).am = s.am := rfl
@[simp] theorem State.setMem_pg_eq (s : State) (mem : Memory) : (s.setMem mem).pg = s.pg := rfl
@[simp] theorem State.setMem_osfxsr_eq (s : State) (mem : Memory) : (s.setMem mem).osfxsr = s.osfxsr := rfl
@[simp] theorem State.setMem_osxsave_eq (s : State) (mem : Memory) : (s.setMem mem).osxsave = s.osxsave := rfl
@[simp] theorem State.setMem_ac_eq (s : State) (mem : Memory) : (s.setMem mem).ac = s.ac := rfl
@[simp] theorem State.setMem_vm_eq (s : State) (mem : Memory) : (s.setMem mem).vm = s.vm := rfl
@[simp] theorem State.setMem_tf_eq (s : State) (mem : Memory) : (s.setMem mem).tf = s.tf := rfl
@[simp] theorem State.setMem_lma_eq (s : State) (mem : Memory) : (s.setMem mem).lma = s.lma := rfl
@[simp] theorem State.setMem_avxEnabled_eq (s : State) (mem : Memory) : (s.setMem mem).avxEnabled = s.avxEnabled := rfl
@[simp] theorem State.setMem_avx512Enabled_eq (s : State) (mem : Memory) : (s.setMem mem).avx512Enabled = s.avx512Enabled := rfl
@[simp] theorem State.setMem_mode_eq (s : State) (mem : Memory) : (s.setMem mem).mode? = s.mode? := rfl
@[simp] theorem State.setMem_flat_eq (s : State) (mem : Memory) : (s.setMem mem).flat = s.flat := rfl
@[simp] theorem State.setMem_alignmentChecked_eq (s : State) (mem : Memory) : (s.setMem mem).alignmentChecked = s.alignmentChecked := rfl
@[simp] theorem State.setMem_launchMode (s : State) (mem : Memory) : launchMode (s.setMem mem) = launchMode s := rfl
@[simp] theorem State.setMem_readX (s : State) (mem : Memory) (r : GNum) : (s.setMem mem).readX r = s.readX r := rfl
@[simp] theorem State.setMem_readK (s : State) (mem : Memory) (r : BitVec 3) : (s.setMem mem).readK r = s.readK r := rfl
@[simp] theorem State.setMem_translate (s : State) (mem : Memory) (m : Mode) (kd : AccessKind) (la : Nat) :
    translateByte m (s.setMem mem) kd la = translateByte m s kd la := rfl
@[simp] theorem State.setMem_inProgram (s : State) (mem : Memory) (la : Nat) :
    (s.setMem mem).inProgram la = s.inProgram la := rfl
@[simp] theorem State.setMem_mask (s : State) (mem : Memory) (f : Form) : f.mask (s.setMem mem) = f.mask s := rfl
@[simp] theorem State.advance_pe_eq (s : State) (pc : Word) : (s.advance pc).pe = s.pe := rfl
@[simp] theorem State.advance_em_eq (s : State) (pc : Word) : (s.advance pc).em = s.em := rfl
@[simp] theorem State.advance_ts_eq (s : State) (pc : Word) : (s.advance pc).ts = s.ts := rfl
@[simp] theorem State.advance_am_eq (s : State) (pc : Word) : (s.advance pc).am = s.am := rfl
@[simp] theorem State.advance_pg_eq (s : State) (pc : Word) : (s.advance pc).pg = s.pg := rfl
@[simp] theorem State.advance_osfxsr_eq (s : State) (pc : Word) : (s.advance pc).osfxsr = s.osfxsr := rfl
@[simp] theorem State.advance_osxsave_eq (s : State) (pc : Word) : (s.advance pc).osxsave = s.osxsave := rfl
@[simp] theorem State.advance_ac_eq (s : State) (pc : Word) : (s.advance pc).ac = s.ac := rfl
@[simp] theorem State.advance_vm_eq (s : State) (pc : Word) : (s.advance pc).vm = s.vm := rfl
@[simp] theorem State.advance_tf_eq (s : State) (pc : Word) : (s.advance pc).tf = s.tf := rfl
@[simp] theorem State.advance_lma_eq (s : State) (pc : Word) : (s.advance pc).lma = s.lma := rfl
@[simp] theorem State.advance_avxEnabled_eq (s : State) (pc : Word) : (s.advance pc).avxEnabled = s.avxEnabled := rfl
@[simp] theorem State.advance_avx512Enabled_eq (s : State) (pc : Word) : (s.advance pc).avx512Enabled = s.avx512Enabled := rfl
@[simp] theorem State.advance_mode_eq (s : State) (pc : Word) : (s.advance pc).mode? = s.mode? := rfl
@[simp] theorem State.advance_flat_eq (s : State) (pc : Word) : (s.advance pc).flat = s.flat := rfl
@[simp] theorem State.advance_alignmentChecked_eq (s : State) (pc : Word) : (s.advance pc).alignmentChecked = s.alignmentChecked := rfl
@[simp] theorem State.advance_launchMode (s : State) (pc : Word) : launchMode (s.advance pc) = launchMode s := rfl
@[simp] theorem State.advance_readX (s : State) (pc : Word) (r : GNum) : (s.advance pc).readX r = s.readX r := rfl
@[simp] theorem State.advance_readK (s : State) (pc : Word) (r : BitVec 3) : (s.advance pc).readK r = s.readK r := rfl
@[simp] theorem State.advance_translate (s : State) (pc : Word) (m : Mode) (kd : AccessKind) (la : Nat) :
    translateByte m (s.advance pc) kd la = translateByte m s kd la := rfl
@[simp] theorem State.advance_inProgram (s : State) (pc : Word) (la : Nat) :
    (s.advance pc).inProgram la = s.inProgram la := rfl
@[simp] theorem State.advance_mask (s : State) (pc : Word) (f : Form) : f.mask (s.advance pc) = f.mask s := rfl
@[simp] theorem State.writeV_ip (s : State) (n : VNum) (a : Vec) (m : Mode) : (s.writeV n a).ip m = s.ip m := rfl
@[simp] theorem State.setMem_ip (s : State) (mem : Memory) (m : Mode) : (s.setMem mem).ip m = s.ip m := rfl
@[simp] theorem State.setMem_readV (s : State) (mem : Memory) (r : VNum) : (s.setMem mem).readV r = s.readV r := rfl
@[simp] theorem State.advance_readV (s : State) (pc : Word) (r : VNum) : (s.advance pc).readV r = s.readV r := rfl

/-- Reading a vector register after writing one. -/
theorem State.readV_writeV (s : State) (n r : VNum) (a : Vec) :
    (s.writeV n a).readV r = if n = r then a else s.readV r := by
  simp [State.readV, State.writeV, Vector.getElem_set, BitVec.toNat_eq]

@[simp] theorem State.readV_writeV_same (s : State) (n : VNum) (a : Vec) : (s.writeV n a).readV n = a := by
  simp [State.readV_writeV]

theorem State.readV_writeV_ne (s : State) (n r : VNum) (a : Vec) (h : n ≠ r) :
    (s.writeV n a).readV r = s.readV r := by
  simp [State.readV_writeV, h]

/-- Two register files with equal reads are equal. -/
theorem State.v_ext (s t : State) (h : ∀ n, t.readV n = s.readV n) : t.v = s.v := by
  apply Vector.ext
  intro i hi
  have := h (BitVec.ofNat 5 i)
  simpa [State.readV, Nat.mod_eq_of_lt hi] using this

end Sys2Proof.Machine
end

