-- ==== Sys2Proof/Laws/Stages.lean ====
section
/-! SUPPORT. What each stage of R140 can do, said once, and what a form that completes does: the case lemmas of
exec from which frames, invariants and results follow. -/

namespace Sys2Proof.Machine

/-! ## Outcomes -/

@[simp] theorem outcome_ok (s : State) : outcome (.ok s) = .next s := rfl

@[simp] theorem outcome_fault (f : Fault) : outcome (.error (.fault f)) = .fault f := rfl

@[simp] theorem outcome_refused (r : Refusal) : outcome (.error (.refused r)) = .refused r := rfl

theorem outcome_next_iff (r : Except Stop State) (t : State) : outcome r = .next t ↔ r = .ok t := by
  rcases r with (f | r) | s <;> simp

theorem outcome_fault_iff (r : Except Stop State) (f : Fault) :
    outcome r = .fault f ↔ r = .error (.fault f) := by
  rcases r with (g | r) | s <;> simp

theorem bind_ok_iff {α β : Type} (x : Except Stop α) (f : α → Except Stop β) (b : β) :
    (x >>= f) = .ok b ↔ ∃ a, x = .ok a ∧ f a = .ok b := by
  cases x <;> simp [bind, Except.bind]

@[simp] theorem ok_bind {α β : Type} (a : α) (f : α → Except Stop β) : (Except.ok a >>= f) = f a := rfl

@[simp] theorem error_bind {α β : Type} (e : Stop) (f : α → Except Stop β) :
    ((Except.error e : Except Stop α) >>= f) = .error e := rfl

/-! ## The stages -/

theorem decodeChecks_ok (f : Form) (st : Bool) (m : Mode) :
    decodeChecks f st m = .ok () ↔
      ¬(m = .m32 ∧ f.rm.isMem = true ∧ f.ps.contains .addrSize = true) ∧ f.len ≤ 15 ∧ f.decodeUd st = false ∧
        ¬(m = .m32 ∧ (f.r || f.x || f.b || f.rHi) = true) := by
  unfold decodeChecks
  split
  · rename_i h
    simp only [refuse, reduceCtorEq, false_iff]
    exact fun hc => hc.1 h
  · rename_i h
    split
    · simp only [raise, reduceCtorEq, false_iff]
      intro hc
      omega
    · rename_i hlen
      split
      · rename_i hud
        simp only [raise, reduceCtorEq, false_iff]
        intro hc
        rw [hc.2.2.1] at hud
        exact absurd hud (by decide)
      · rename_i hud
        split
        · rename_i hext
          simp only [refuse, reduceCtorEq, false_iff]
          exact fun hc => hc.2.2.2 hext
        · rename_i hext
          simp only [true_iff]
          exact ⟨h, by omega, by simpa using hud, hext⟩

theorem enableChecks_ok (f : Form) (s : State) : enableChecks f s = .ok () ↔ f.enabled s = true := by
  unfold enableChecks
  split <;> simp_all [raise]

theorem taskSwitchCheck_ok (s : State) : taskSwitchCheck s = .ok () ↔ s.ts = false := by
  unfold taskSwitchCheck
  split <;> simp_all [raise]

/-- Stages 1 to 3 pass exactly when the launch is admitted, the encoding legal, the form enabled and CR0.TS clear. -/
theorem frontChecks_ok (f : Form) (st : Bool) (s : State) (m : Mode) :
    frontChecks f st s = .ok m ↔
      launchMode s = .ok m ∧ decodeChecks f st m = .ok () ∧ f.enabled s = true ∧ s.ts = false := by
  simp only [frontChecks, bind_ok_iff, Except.ok.injEq, ← enableChecks_ok, ← taskSwitchCheck_ok]
  constructor
  · rintro ⟨m', h1, _, h2, _, h3, _, h4, rfl⟩
    exact ⟨h1, h2, h3, h4⟩
  · rintro ⟨h1, h2, h3, h4⟩
    exact ⟨m, h1, _, h2, _, h3, _, h4, rfl⟩

/-- Stage 4 answers the operand's linear address, and only when every check passes. -/
theorem memAddress_ok (f : Form) (m : Mode) (s : State) (mf : MemForm) (la : Nat) :
    memAddress f m s mf = .ok la ↔
      f.wraps m s mf = false ∧ f.nonCanonical m s (f.linearAddr m s mf) = false ∧
        (f.misaligned m s mf && Config.acDraw s.draws) = false ∧ la = f.linearAddr m s mf := by
  unfold memAddress
  split
  · rename_i h; simp [refuse, h]
  · rename_i h
    split
    · rename_i h2
      split <;> simp [raise, h2]
    · rename_i h2
      split
      · rename_i h3; simp [raise, h3]
      · rename_i h3
        simp only [Except.ok.injEq]
        constructor
        · rintro rfl
          exact ⟨by simpa using h, by simpa using h2, by simpa using h3, rfl⟩
        · rintro ⟨_, _, _, rfl⟩
          rfl

theorem finish_ok (m : Mode) (f : Form) (s t : State) :
    finish m f s = .ok t ↔ ∃ pc, nextPc m s f.len = .ok pc ∧ t = s.advance pc := by
  unfold finish
  cases nextPc m s f.len <;> simp [eq_comm]

/-- Stage 6 answers when the instruction stays inside the address space and the next pc is canonical (R25). -/
theorem nextPc_ok (m : Mode) (s : State) (len : Nat) (pc : Word) :
    nextPc m s len = .ok pc ↔
      s.ip m + len ≤ 2 ^ addrBits m ∧
      (m = .m64 → canonical s.vaBits ((s.ip m + len) % 2 ^ addrBits m) = true) ∧
      pc = BitVec.ofNat 64 ((s.ip m + len) % 2 ^ addrBits m) := by
  unfold nextPc
  split
  · rename_i h; simp only [refuse, reduceCtorEq, false_iff]; intro hc; omega
  · rename_i h
    split
    · rename_i h2
      simp only [refuse, reduceCtorEq, false_iff]
      intro hc
      rw [hc.2.1 h2.1] at h2
      exact absurd h2.2 (by decide)
    · rename_i h2
      simp only [Except.ok.injEq]
      constructor
      · rintro rfl
        refine ⟨by omega, fun hm => ?_, rfl⟩
        by_contra hc
        exact h2 ⟨hm, by simpa using hc⟩
      · rintro ⟨_, _, rfl⟩; rfl

@[simp] theorem nextPc_writeV (m : Mode) (s : State) (n : VNum) (a : Vec) (len : Nat) :
    nextPc m (s.writeV n a) len = nextPc m s len := rfl

@[simp] theorem nextPc_setMem (m : Mode) (s : State) (mem : Memory) (len : Nat) :
    nextPc m (s.setMem mem) len = nextPc m s len := rfl

/-! ## The two patterns -/

/-- A form of opcode 10 that completes. -/
theorem loadOrCopy_ok (f : Form) (s t : State) (h : loadOrCopy f s = .ok t) :
    ∃ m pc src, frontChecks f false s = .ok m ∧ nextPc m s f.len = .ok pc ∧
      t = (s.writeV f.regNum (f.result s (s.readV f.regNum) src)).advance pc ∧
      ((∃ rm, f.rm = .reg rm ∧ src = s.readV (f.rmNum rm)) ∨
       (∃ mf la es, f.rm = .mem mf ∧ memAddress f m s mf = .ok la ∧
          readElems m s la (f.mask s) f.elems = .ok es ∧ src = vecOfElems es)) := by
  simp only [loadOrCopy, bind_ok_iff] at h
  obtain ⟨m, hm, h⟩ := h
  cases hrm : f.rm with
  | reg rm =>
    rw [hrm] at h
    obtain ⟨pc, hpc, rfl⟩ := (finish_ok _ _ _ _).1 h
    exact ⟨m, pc, _, hm, hpc, rfl, .inl ⟨rm, rfl, rfl⟩⟩
  | mem mf =>
    rw [hrm] at h
    simp only [bind_ok_iff] at h
    obtain ⟨la, hla, es, hes, h⟩ := h
    obtain ⟨pc, hpc, rfl⟩ := (finish_ok _ _ _ _).1 h
    exact ⟨m, pc, _, hm, hpc, rfl, .inr ⟨mf, la, es, rfl, hla, hes, rfl⟩⟩

/-- A form of opcode 11 that completes. -/
theorem storeOrCopy_ok (f : Form) (s t : State) (h : storeOrCopy f s = .ok t) :
    ∃ m pc, frontChecks f true s = .ok m ∧ nextPc m s f.len = .ok pc ∧
      ((∃ rm, f.rm = .reg rm ∧
          t = (s.writeV (f.rmNum rm) (f.result s (s.readV (f.rmNum rm)) (s.readV f.regNum))).advance pc) ∨
       (∃ mf la cells, f.rm = .mem mf ∧ memAddress f m s mf = .ok la ∧
          storeCells m s la (f.mask s) f.elems (s.readV f.regNum) = .ok cells ∧
          t = (s.setMem (s.mem.writeCells cells)).advance pc)) := by
  simp only [storeOrCopy, bind_ok_iff] at h
  obtain ⟨m, hm, h⟩ := h
  cases hrm : f.rm with
  | reg rm =>
    rw [hrm] at h
    obtain ⟨pc, hpc, rfl⟩ := (finish_ok _ _ _ _).1 h
    exact ⟨m, pc, hm, hpc, .inl ⟨rm, rfl, rfl⟩⟩
  | mem mf =>
    rw [hrm] at h
    simp only [bind_ok_iff] at h
    obtain ⟨la, hla, cells, hc, h⟩ := h
    obtain ⟨pc, hpc, rfl⟩ := (finish_ok _ _ _ _).1 h
    exact ⟨m, pc, hm, hpc, .inr ⟨mf, la, cells, rfl, hla, hc, rfl⟩⟩

/-- A reserved-length row never completes (R90 (d)). -/
theorem reservedLength_ne_ok (f : Form) (s t : State) : reservedLength f s ≠ .ok t := by
  intro h
  simp only [reservedLength, bind_ok_iff] at h
  obtain ⟨m, _, h⟩ := h
  split at h
  · simp [refuse] at h
  · split at h <;> simp [raise] at h

/-! ## exec -/

/-- What exec runs: one of the patterns on the instruction's form. -/
def runForm (i : Instr) (s : State) : Except Stop State :=
  match directionOf i with
  | .load => loadOrCopy (formOf i) s
  | .store => storeOrCopy (formOf i) s
  | .neither => reservedLength (formOf i) s

theorem exec_eq (i : Instr) (s : State) : exec i s = outcome (runForm i s) := by
  cases i <;> rfl

theorem exec_next_iff (i : Instr) (s t : State) : exec i s = .next t ↔ runForm i s = .ok t := by
  rw [exec_eq, outcome_next_iff]

/-- Everything an instruction that completes can do: it writes one vector register, or some bytes of memory, and
the next pc. -/
theorem exec_cases (i : Instr) (s t : State) (h : exec i s = .next t) :
    ∃ m pc, launchMode s = .ok m ∧ nextPc m s (formOf i).len = .ok pc ∧
      ((∃ n a, t = (s.writeV n a).advance pc) ∨ (∃ cells, t = (s.setMem (s.mem.writeCells cells)).advance pc)) := by
  rw [exec_next_iff] at h
  unfold runForm at h
  split at h
  · obtain ⟨m, pc, src, hf, hpc, rfl, _⟩ := loadOrCopy_ok _ _ _ h
    exact ⟨m, pc, ((frontChecks_ok _ _ _ _).1 hf).1, hpc, .inl ⟨_, _, rfl⟩⟩
  · obtain ⟨m, pc, hf, hpc, hcase⟩ := storeOrCopy_ok _ _ _ h
    refine ⟨m, pc, ((frontChecks_ok _ _ _ _).1 hf).1, hpc, ?_⟩
    rcases hcase with ⟨rm, _, rfl⟩ | ⟨mf, la, cells, _, _, _, rfl⟩
    · exact .inl ⟨_, _, rfl⟩
    · exact .inr ⟨_, rfl⟩
  · exact absurd h (reservedLength_ne_ok _ _ _)

end Sys2Proof.Machine
end

