-- ==== Sys2Proof/Laws/Ready.lean ====
section
/-! SUPPORT. The words of Safety.lean against the stages of exec: each condition of a statement is the stage check it
stands for, so that a proof about exec never unfolds a stage. -/

namespace Sys2Proof.Safety

open Sys2Proof.Machine

/-! ## Forms -/

@[simp] theorem formOf_len (i : Instr) : (formOf i).len = i.len := by
  cases i <;> rfl

/-- Whether the meaning passes the checks as an instruction that writes its r/m operand. -/
def isStore (i : Instr) : Bool := directionOf i == .store

theorem evexForm_mask (vl : VL) (ps : List LegacyPrefix) (rex : Option Rex) (e : Evex) (reg : BitVec 3)
    (rm : RegMem) (s : State) : (evexForm vl ps rex e reg rm).mask s = maskOf s e.aaa := rfl

@[simp] theorem legacyForm_mask (ps : List LegacyPrefix) (rex : Option Rex) (reg : BitVec 3) (rm : RegMem)
    (s : State) : (legacyForm ps rex reg rm).mask s = none := rfl

@[simp] theorem vex2Form_mask (vl : VL) (ps : List LegacyPrefix) (rex : Option Rex) (v : Vex2) (reg : BitVec 3)
    (rm : RegMem) (s : State) : (vex2Form vl ps rex v reg rm).mask s = none := rfl

@[simp] theorem vex3Form_mask (vl : VL) (ps : List LegacyPrefix) (rex : Option Rex) (v : Vex3) (reg : BitVec 3)
    (rm : RegMem) (s : State) : (vex3Form vl ps rex v reg rm).mask s = none := rfl

theorem vnum_eq (hi mid : Bool) (lo : BitVec 3) : vnum hi mid lo = BitVec.ofBool hi ++ BitVec.ofBool mid ++ lo := by
  revert hi mid lo; decide

/-! ## The checks at decode -/

theorem plainPrefixes_any (ps : List LegacyPrefix) (rex : Option Rex) (h : PlainPrefixes ps rex) :
    ps.contains .lock = false ∧ ps.any LegacyPrefix.isMandatory = false ∧ rex.isSome = false := by
  obtain ⟨rfl, hl, ho, hr, hn⟩ := h
  refine ⟨by simpa using hl, ?_, rfl⟩
  rw [Bool.eq_false_iff]
  intro hany
  obtain ⟨p, hp, hm⟩ := List.any_eq_true.1 hany
  cases p <;> simp_all [LegacyPrefix.isMandatory]

/-- R96: a well-formed operand is not one of 16-bit addressing. -/
theorem operandsWf_addressing16 (m : Mode) (ps : List LegacyPrefix) (rex : Option Rex) (rm : RegMem)
    (h : operandsWf m ps rex rm = true) : ¬(m = .m32 ∧ rm.isMem = true ∧ ps.contains .addrSize = true) := by
  rintro ⟨rfl, h1, h2⟩
  simp only [operandsWf, h1, h2, Bool.and_eq_true] at h
  simpa using h.2

theorem operandsWf_rex (ps : List LegacyPrefix) (rex : Option Rex) (rm : RegMem)
    (h : operandsWf .m32 ps rex rm = true) : rex = none := by
  simp only [operandsWf, Bool.and_eq_true] at h
  have := h.2
  simp at this
  exact this.1

theorem operandsWf_prefixes (m : Mode) (ps : List LegacyPrefix) (rex : Option Rex) (rm : RegMem)
    (h : operandsWf m ps rex rm = true) : prefixesOk ps = true := by
  simp only [operandsWf, Bool.and_eq_true] at h
  exact h.1.1

/-- Every shape's well-formedness holds that of prefixes, REX and operand. -/
theorem wf_operands (m : Mode) (i : Instr) (h : i.wf m = true) :
    ∃ rex, operandsWf m (formOf i).ps rex (formOf i).rm = true ∧ (formOf i).hasRex = rex.isSome := by
  cases i <;> simp only [Instr.wf, legacyWf, vex2Wf, vex3Wf, evexWf, Bool.and_eq_true] at h <;>
    exact ⟨_, h.1, rfl⟩

theorem wf_addressing16 (m : Mode) (i : Instr) (h : i.wf m = true) :
    ¬(m = .m32 ∧ (formOf i).rm.isMem = true ∧ (formOf i).ps.contains .addrSize = true) := by
  obtain ⟨rex, h, _⟩ := wf_operands m i h
  exact operandsWf_addressing16 m _ rex _ h

/-- None of the #UD causes of decoding (steps 5 and 6 of R112) and no extension bit in M32 (step 7). -/
def CleanForm (m : Mode) (f : Form) (st : Bool) : Prop :=
  f.decodeUd st = false ∧ ¬(m = .m32 ∧ (f.r || f.x || f.b || f.rHi) = true)

theorem legacy_clean (m : Mode) (st : Bool) (ps : List LegacyPrefix) (rex : Option Rex) (reg : BitVec 3)
    (rm : RegMem) (hw : legacyWf m ps rex rm = true) (hl : .lock ∉ ps) :
    CleanForm m (legacyForm ps rex reg rm) st := by
  refine ⟨by simp [Form.decodeUd, legacyForm, hl], ?_⟩
  rintro ⟨rfl, hx⟩
  simp only [legacyWf, Bool.and_eq_true] at hw
  obtain rfl := operandsWf_rex _ _ _ hw.1
  simp [legacyForm] at hx

theorem vex2_clean (m : Mode) (st : Bool) (vl : VL) (ps : List LegacyPrefix) (rex : Option Rex) (v : Vex2)
    (reg : BitVec 3) (rm : RegMem) (hw : vex2Wf m ps rex v rm = true) (hl : Vex2Legal ps rex v) :
    CleanForm m (vex2Form vl ps rex v reg rm) st := by
  obtain ⟨h1, h2, h3⟩ := plainPrefixes_any ps rex hl.1
  refine ⟨by simp only [Form.decodeUd, vex2Form, h1, h2, h3, hl.2]; simp, ?_⟩
  rintro ⟨rfl, hx⟩
  simp [vex2Wf] at hw
  simp [vex2Form, hw] at hx

theorem vex3_clean (m : Mode) (st : Bool) (vl : VL) (ps : List LegacyPrefix) (rex : Option Rex) (v : Vex3)
    (reg : BitVec 3) (rm : RegMem) (hw : vex3Wf m ps rex v rm = true) (hl : Vex3Legal m ps rex v) :
    CleanForm m (vex3Form vl ps rex v reg rm) st := by
  obtain ⟨h1, h2, h3⟩ := plainPrefixes_any ps rex hl.1
  refine ⟨by simp only [Form.decodeUd, vex3Form, h1, h2, h3, hl.2.1]; simp, ?_⟩
  rintro ⟨rfl, hx⟩
  simp [vex3Wf] at hw
  simp [vex3Form, hw, hl.2.2 rfl] at hx

theorem evex_clean (m : Mode) (st : Bool) (vl : VL) (ps : List LegacyPrefix) (rex : Option Rex) (e : Evex)
    (reg : BitVec 3) (rm : RegMem) (hw : evexWf m ps rex e rm = true) (hl : EvexLoadLegal m ps rex e)
    (hz : st = true → e.z = true → rm.isMem = false) : CleanForm m (evexForm vl ps rex e reg rm) st := by
  obtain ⟨h1, h2, h3⟩ := plainPrefixes_any ps rex hl.1
  obtain ⟨hv, hw', ho, hb, hh, hza, hm⟩ := hl.2
  refine ⟨?_, ?_⟩
  · simp only [Form.decodeUd, evexForm, h1, h2, h3, hv, evexBadField, hw', ho, hb, hh]
    cases hez : e.z
    · simp
    · have := hza hez
      cases st
      · simp [this]
      · simp [this, hz rfl hez]
  · rintro ⟨rfl, hx⟩
    simp [evexWf] at hw
    simp [evexForm, hw, hm rfl] at hx

/-- A legal encoding has none of the #UD causes of decoding and no extension bit in M32. -/
theorem clean_of_legal (m : Mode) (i : Instr) (hw : i.wf m = true) (hl : Legal m i) :
    CleanForm m (formOf i) (isStore i) := by
  cases i with
  | movupsLoad ps rex reg rm => exact legacy_clean m _ ps rex reg rm hw hl
  | movupsStore ps rex reg rm => exact legacy_clean m _ ps rex reg rm hw hl
  | vmovupsXmmLoadVex2 ps rex v reg rm => exact vex2_clean m _ .vl128 ps rex v reg rm hw hl
  | vmovupsXmmLoadVex3 ps rex v reg rm => exact vex3_clean m _ .vl128 ps rex v reg rm hw hl
  | vmovupsXmmStoreVex2 ps rex v reg rm => exact vex2_clean m _ .vl128 ps rex v reg rm hw hl
  | vmovupsXmmStoreVex3 ps rex v reg rm => exact vex3_clean m _ .vl128 ps rex v reg rm hw hl
  | vmovupsYmmLoadVex2 ps rex v reg rm => exact vex2_clean m _ .vl256 ps rex v reg rm hw hl
  | vmovupsYmmLoadVex3 ps rex v reg rm => exact vex3_clean m _ .vl256 ps rex v reg rm hw hl
  | vmovupsYmmStoreVex2 ps rex v reg rm => exact vex2_clean m _ .vl256 ps rex v reg rm hw hl
  | vmovupsYmmStoreVex3 ps rex v reg rm => exact vex3_clean m _ .vl256 ps rex v reg rm hw hl
  | vmovupsXmmLoadEvex ps rex e reg rm => exact evex_clean m _ .vl128 ps rex e reg rm hw hl (by simp [isStore, directionOf])
  | vmovupsYmmLoadEvex ps rex e reg rm => exact evex_clean m _ .vl256 ps rex e reg rm hw hl (by simp [isStore, directionOf])
  | vmovupsZmmLoadEvex ps rex e reg rm => exact evex_clean m _ .vl512 ps rex e reg rm hw hl (by simp [isStore, directionOf])
  | vmovupsXmmStoreEvex ps rex e reg rm => exact evex_clean m _ .vl128 ps rex e reg rm hw ⟨hl.1, hl.2.1⟩ (fun _ => hl.2.2)
  | vmovupsYmmStoreEvex ps rex e reg rm => exact evex_clean m _ .vl256 ps rex e reg rm hw ⟨hl.1, hl.2.1⟩ (fun _ => hl.2.2)
  | vmovupsZmmStoreEvex ps rex e reg rm => exact evex_clean m _ .vl512 ps rex e reg rm hw ⟨hl.1, hl.2.1⟩ (fun _ => hl.2.2)
  | vmovupsReservedLoad ps rex e reg rm => exact hl.elim
  | vmovupsReservedStore ps rex e reg rm => exact hl.elim

theorem decodeChecks_of_legal (m : Mode) (i : Instr) (hw : i.wf m = true) (hl : Legal m i) (hlen : i.len ≤ 15) :
    decodeChecks (formOf i) (isStore i) m = .ok () := by
  rw [decodeChecks_ok]
  obtain ⟨h1, h2⟩ := clean_of_legal m i hw hl
  exact ⟨wf_addressing16 m i hw, by simpa using hlen, h1, h2⟩

/-- Legal forms do something. -/
theorem direction_of_legal (m : Mode) (i : Instr) (hl : Legal m i) : directionOf i ≠ .neither := by
  cases i <;> first | exact hl.elim | simp [directionOf]

/-! ## The enable checks -/

theorem usable_iff (f : Form) (s : State) : Usable f s ↔ f.enabled s = true := by
  unfold Usable Form.enabled
  cases f.shape
  · simp [and_assoc]
  · simp [and_assoc]
  · by_cases h : f.vl = .vl512 <;> simp [h, and_assoc]

/-! ## The next pc -/

/-- R25: pc advances as Safety.AdvancesPc says. -/
theorem advancesPc_of_nextPc (m : Mode) (s t : State) (len : Nat) (pc : Word) (h : nextPc m s len = .ok pc)
    (ht : t.pc = pc) : AdvancesPc m s t len := by
  obtain ⟨_, _, rfl⟩ := (nextPc_ok m s len pc).1 h
  cases m
  · simp only [AdvancesPc, ht, State.ip, addrBits]
    apply BitVec.eq_of_toNat_eq
    simp [BitVec.toNat_add]
  · simp only [AdvancesPc, ht, State.ip, addrBits]
    apply BitVec.eq_of_toNat_eq
    simp only [BitVec.toNat_ofNat, BitVec.toNat_setWidth, BitVec.toNat_add]
    omega

theorem nextPc_of_fits (m : Mode) (s : State) (len : Nat) (h : NextPcFits m s len) :
    ∃ pc, nextPc m s len = .ok pc := by
  refine ⟨_, (nextPc_ok m s len _).2 ⟨?_, ?_, rfl⟩⟩
  · cases m
    · simp only [NextPcFits] at h
      simp only [State.ip, addrBits]; have := s.pc.isLt; omega
    · exact h
  · rintro rfl
    simp only [NextPcFits] at h
    simp only [State.ip, addrBits]
    rw [Nat.mod_eq_of_lt s.pc.isLt]
    exact h.2

theorem nextPc_error (m : Mode) (s : State) (len : Nat) (h : ¬ NextPcFits m s len) :
    nextPc m s len = .error (.refused .pcOutOfRange) := by
  unfold nextPc
  split
  · rfl
  · rename_i h1
    split
    · rfl
    · rename_i h2
      exfalso
      apply h
      cases m
      · simp only [State.ip, addrBits, Nat.mod_eq_of_lt s.pc.isLt, true_and, Bool.not_eq_false] at h1 h2
        exact ⟨by omega, h2⟩
      · simp only [State.ip, addrBits] at h1
        simp only [NextPcFits]; omega

/-! ## Stage 4 -/

theorem fits_iff (f : Form) (m : Mode) (s : State) (mf : MemForm) : Fits f m s mf ↔ f.wraps m s mf = false := by
  simp [Fits, Form.wraps]

theorem canonicalOperand_iff (f : Form) (m : Mode) (s : State) (mf : MemForm) :
    CanonicalOperand f m s mf ↔ f.nonCanonical m s (f.linearAddr m s mf) = false := by
  cases m <;> simp [CanonicalOperand, Form.nonCanonical]

theorem acPossible_iff (f : Form) (m : Mode) (s : State) (mf : MemForm) :
    AcPossible f m s mf ↔ f.misaligned m s mf = true := by
  simp only [AcPossible, Form.misaligned, State.alignmentChecked, Nat.dvd_iff_mod_eq_zero]
  simp [and_assoc]

/-- An addressable operand passes stage 4 at its linear address, whatever is drawn. -/
theorem memAddress_of_addressable (f : Form) (m : Mode) (s : State) (mf : MemForm) (h : Addressable f m s mf) :
    memAddress f m s mf = .ok (f.linearAddr m s mf) := by
  obtain ⟨h1, h2, h3⟩ := h
  rw [fits_iff] at h1
  rw [canonicalOperand_iff] at h2
  rw [acPossible_iff] at h3
  exact (memAddress_ok _ _ _ _ _).2 ⟨h1, h2, by simpa using h3, rfl⟩

/-! ## Stages 1 to 3 -/

theorem frontChecks_of_usable (i : Instr) (m : Mode) (s : State) (ha : Admitted i m s) (hu : Usable (formOf i) s)
    (ht : s.ts = false) : frontChecks (formOf i) (isStore i) s = .ok m := by
  rw [frontChecks_ok]
  exact ⟨ha.1, decodeChecks_of_legal m i ha.2.1 ha.2.2.1 ha.2.2.2, (usable_iff _ _).1 hu, ht⟩

/-- A legal form runs its pattern on the mode of the launch. -/
theorem runForm_of_legal (m : Mode) (i : Instr) (s : State) (hl : Legal m i) :
    (directionOf i = .load ∧ isStore i = false ∧ runForm i s = loadOrCopy (formOf i) s) ∨
    (directionOf i = .store ∧ isStore i = true ∧ runForm i s = storeOrCopy (formOf i) s) := by
  unfold runForm isStore
  cases h : directionOf i
  · simp
  · simp
  · exact absurd h (direction_of_legal m i hl)

/-! ## When the two patterns complete, and what they leave -/

theorem loadOrCopy_reg (f : Form) (m : Mode) (s : State) (rm : BitVec 3) (pc : Word) (hrm : f.rm = .reg rm)
    (hf : frontChecks f false s = .ok m) (hpc : nextPc m s f.len = .ok pc) :
    loadOrCopy f s =
      .ok ((s.writeV f.regNum (f.result s (s.readV f.regNum) (s.readV (f.rmNum rm)))).advance pc) := by
  simp only [loadOrCopy, hf, ok_bind, hrm, finish, nextPc_writeV, hpc]

theorem storeOrCopy_reg (f : Form) (m : Mode) (s : State) (rm : BitVec 3) (pc : Word) (hrm : f.rm = .reg rm)
    (hf : frontChecks f true s = .ok m) (hpc : nextPc m s f.len = .ok pc) :
    storeOrCopy f s =
      .ok ((s.writeV (f.rmNum rm) (f.result s (s.readV (f.rmNum rm)) (s.readV f.regNum))).advance pc) := by
  simp only [storeOrCopy, hf, ok_bind, hrm, finish, nextPc_writeV, hpc]

theorem loadOrCopy_mem (f : Form) (m : Mode) (s : State) (mf : MemForm) (pc : Word) (la : Nat) (es : List Elem)
    (hrm : f.rm = .mem mf) (hf : frontChecks f false s = .ok m) (hla : memAddress f m s mf = .ok la)
    (hes : readElems m s la (f.mask s) f.elems = .ok es) (hpc : nextPc m s f.len = .ok pc) :
    loadOrCopy f s =
      .ok ((s.writeV f.regNum (f.result s (s.readV f.regNum) (vecOfElems es))).advance pc) := by
  simp only [loadOrCopy, hf, ok_bind, hrm, hla, hes, finish, nextPc_writeV, hpc]

theorem storeOrCopy_mem (f : Form) (m : Mode) (s : State) (mf : MemForm) (pc : Word) (la : Nat)
    (cells : List Host.Cell) (hrm : f.rm = .mem mf) (hf : frontChecks f true s = .ok m)
    (hla : memAddress f m s mf = .ok la)
    (hc : storeCells m s la (f.mask s) f.elems (s.readV f.regNum) = .ok cells) (hpc : nextPc m s f.len = .ok pc) :
    storeOrCopy f s = .ok ((s.setMem (s.mem.writeCells cells)).advance pc) := by
  simp only [storeOrCopy, hf, ok_bind, hrm, hla, hc, finish, nextPc_setMem, hpc]

/-- A readable operand is read. -/
theorem readElems_of_readable (f : Form) (m : Mode) (s : State) (la : Nat) (mask : Option KMask)
    (h : Readable f.vl m s la mask) : ∃ es, readElems m s la mask f.elems = .ok es :=
  readElems_exists m s la mask _ fun j hj ha =>
    readElem_exists m s la j (h j (List.mem_range.1 hj) ha)

/-- Element `j` of a memory source, where it is active. -/
theorem fromMem_of_readElems (f : Form) (m : Mode) (s : State) (la : Nat) (mask : Option KMask) (es : List Elem)
    (h : readElems m s la mask f.elems = .ok es) (j : Fin 16) (hj : j.val < f.vl.elems)
    (ha : active mask j.val = true) : FromMem m s la j (vecOfElems es)[j] := by
  intro c hc
  have := readElem_ok m s la j.val _ (readElems_getD m s la mask _ es h j.val hj ha) c hc
  simpa [vecOfElems] using this

/-- A writable operand gets its byte writes. -/
theorem storeCells_of_writable (f : Form) (m : Mode) (s : State) (la : Nat) (mask : Option KMask) (src : Vec)
    (h : Writable f.vl m s la mask) : ∃ cells, storeCells m s la mask f.elems src = .ok cells := by
  have hmem : ∀ a ∈ storeAddrs la mask f.elems, s.inProgram a = false ∧ ∃ p, translateByte m s .write a = .ok p := by
    intro a ha
    obtain ⟨j, hj, hact, c, hc, rfl⟩ := (mem_storeAddrs la mask _ a).1 ha
    exact h j (List.mem_range.1 hj) hact c hc
  obtain ⟨ps, hps⟩ := translateAll_exists m s .write _ fun a ha => (hmem a ha).2
  exact ⟨_, (storeCells_ok m s la mask _ src _).2 ⟨fun a ha => (hmem a ha).1, ps, hps, rfl⟩⟩

/-- What a location holds after a store: a byte of an active element that has this location, where one does. -/
theorem byte_of_storeCells (f : Form) (m : Mode) (s : State) (la : Nat) (mask : Option KMask) (src : Vec)
    (cells : List Host.Cell) (h : storeCells m s la mask f.elems src = .ok cells) (p : Nat)
    (hp : ∃ j < f.vl.elems, active mask j = true ∧ ∃ c < 4, translateByte m s .write (la + 4 * j + c) = .ok p) :
    ∃ j : Fin 16, j.val < f.vl.elems ∧ active mask j.val = true ∧ ∃ c < 4,
      translateByte m s .write (la + 4 * j.val + c) = .ok p ∧
        (s.mem.writeCells cells).byte p = (src[j]).extractLsb' (8 * c) 8 := by
  obtain ⟨_, ps, hps, rfl⟩ := (storeCells_ok m s la mask _ src _).1 h
  obtain ⟨j, hj, ha, c, hc, ht⟩ := hp
  obtain ⟨b, hb, hf⟩ := Memory.find_store_some s.draws (ps.zip (storeBytes src mask f.elems)) s.mem p
    ⟨(p, _), (mem_zip_store m s la src mask _ ps hps p _).2 ⟨j, List.mem_range.2 hj, ha, c, hc, ht, rfl⟩, rfl⟩
  obtain ⟨j', hj', ha', c', hc', ht', rfl⟩ := (mem_zip_store m s la src mask _ ps hps p b).1 hb
  have hlt : j' < 16 := lt_of_lt_of_le (List.mem_range.1 hj') f.vl.elems_le
  refine ⟨⟨j', hlt⟩, List.mem_range.1 hj', ha', c', hc', ht', ?_⟩
  simp [Memory.byte, hf, Vector.getD, hlt]

/-- A store leaves every location alone that no byte of an active element has. -/
theorem byte_of_storeCells_other (f : Form) (m : Mode) (s : State) (la : Nat) (mask : Option KMask) (src : Vec)
    (cells : List Host.Cell) (h : storeCells m s la mask f.elems src = .ok cells) (p : Nat)
    (hp : ∀ j < f.vl.elems, active mask j = true → ∀ c < 4, translateByte m s .write (la + 4 * j + c) ≠ .ok p) :
    (s.mem.writeCells cells).byte p = s.mem.byte p := by
  obtain ⟨_, ps, hps, rfl⟩ := (storeCells_ok m s la mask _ src _).1 h
  have : (s.mem.writeCells (writeOrder s.draws (ps.zip (storeBytes src mask f.elems)))).find? p = s.mem.find? p := by
    apply Memory.find_store_other
    rintro ⟨q, b⟩ hc rfl
    obtain ⟨j, hj, ha, c, hc', ht, _⟩ := (mem_zip_store m s la src mask _ ps hps q b).1 hc
    exact hp j (List.mem_range.1 hj) ha c hc' ht
  simp [Memory.byte, this]

end Sys2Proof.Safety
end

