-- ==== Sys2Proof/Laws/Check.lean ====
section
/-! SUPPORT. Checks that decide the premises of Safety.lean on concrete states: a check that answers true gives the
premise. -/

namespace Sys2Proof.Safety

open Sys2Proof.Machine

theorem plainPrefixes_of_any (ps : List LegacyPrefix) (rex : Option Rex) (hl : ps.contains .lock = false)
    (hm : ps.any LegacyPrefix.isMandatory = false) (hr : rex.isSome = false) : PlainPrefixes ps rex := by
  simp only [List.any_eq_false, List.contains_eq_mem, decide_eq_false_iff_not, Option.isSome_eq_false_iff,
    Option.isNone_iff_eq_none] at hl hm hr
  exact ⟨hr, hl, fun h => hm _ h rfl, fun h => hm _ h rfl, fun h => hm _ h rfl⟩

theorem vex_plain (f : Form) (st : Bool) (hs : f.shape = .vex) (hu : f.decodeUd st = false) :
    f.hasRex = false ∧ f.ps.contains .lock = false ∧ f.ps.any LegacyPrefix.isMandatory = false ∧ f.vvvv = 0xF#4 := by
  simp only [Form.decodeUd, hs, Bool.or_eq_false_iff] at hu
  simp only [bne_eq_false_iff_eq] at hu
  obtain ⟨⟨⟨⟨⟨h1, h2⟩, h3⟩, _⟩, _⟩, _⟩ := hu
  simp at h2
  exact ⟨h2.1, h1, by simpa using h2.2, h3⟩

theorem evex_plain (f : Form) (st : Bool) (hs : f.shape = .evex) (hu : f.decodeUd st = false) :
    f.hasRex = false ∧ f.ps.contains .lock = false ∧ f.ps.any LegacyPrefix.isMandatory = false ∧
      f.vvvv = 0xF#4 ∧ f.badField = false ∧ (f.z = true → f.aaa ≠ 0#3) ∧
      (f.z = true → st = true → f.rm.isMem = false) := by
  simp only [Form.decodeUd, hs, Bool.or_eq_false_iff] at hu
  simp only [bne_eq_false_iff_eq] at hu
  obtain ⟨⟨⟨⟨⟨h1, h2⟩, h3⟩, h4⟩, h5⟩, h6⟩ := hu
  simp at h2 h5
  refine ⟨h2.1, h1, by simpa using h2.2, h3, h4, fun h => h5 h, fun hz hst => ?_⟩
  simpa [hz, hst] using h6

theorem vex2_legal (vl : VL) (st : Bool) (ps : List LegacyPrefix) (rex : Option Rex) (v : Vex2) (reg : BitVec 3)
    (rm : RegMem) (hu : (vex2Form vl ps rex v reg rm).decodeUd st = false) : Vex2Legal ps rex v := by
  obtain ⟨h1, h2, h3, h4⟩ := vex_plain _ st rfl hu
  exact ⟨plainPrefixes_of_any ps rex h2 h3 h1, h4⟩

theorem vex3_legal (m : Mode) (vl : VL) (st : Bool) (ps : List LegacyPrefix) (rex : Option Rex) (v : Vex3)
    (reg : BitVec 3) (rm : RegMem) (h : CleanForm m (vex3Form vl ps rex v reg rm) st) : Vex3Legal m ps rex v := by
  obtain ⟨h1, h2, h3, h4⟩ := vex_plain _ st rfl h.1
  refine ⟨plainPrefixes_of_any ps rex h2 h3 h1, h4, fun hm => ?_⟩
  have := h.2
  simp [vex3Form, hm] at this
  exact this.2

theorem evex_legal (m : Mode) (vl : VL) (st : Bool) (ps : List LegacyPrefix) (rex : Option Rex) (e : Evex)
    (reg : BitVec 3) (rm : RegMem) (h : CleanForm m (evexForm vl ps rex e reg rm) st) :
    EvexLoadLegal m ps rex e ∧ (e.z = true → st = true → rm.isMem = false) := by
  obtain ⟨h1, h2, h3, h4, h5, h6, h7⟩ := evex_plain _ st rfl h.1
  simp [evexForm, evexBadField] at h5
  refine ⟨⟨plainPrefixes_of_any ps rex h2 h3 h1, h4, h5.1.1.1, h5.1.1.2, h5.1.2, h5.2, h6, fun hm => ?_⟩, h7⟩
  have := h.2
  simp [evexForm, hm] at this
  exact ⟨this.1.2, this.2⟩

/-- `Legal` is what the decode checks of the machine let through. -/
theorem legal_of_clean (m : Mode) (i : Instr) (hd : directionOf i ≠ .neither)
    (h : CleanForm m (formOf i) (isStore i)) : Legal m i := by
  cases i with
  | movupsLoad ps rex reg rm => simpa [CleanForm, formOf, legacyForm, Form.decodeUd, Legal] using h.1
  | movupsStore ps rex reg rm => simpa [CleanForm, formOf, legacyForm, Form.decodeUd, Legal] using h.1
  | vmovupsXmmLoadVex2 ps rex v reg rm => exact vex2_legal .vl128 _ ps rex v reg rm h.1
  | vmovupsXmmLoadVex3 ps rex v reg rm => exact vex3_legal m .vl128 _ ps rex v reg rm h
  | vmovupsXmmStoreVex2 ps rex v reg rm => exact vex2_legal .vl128 _ ps rex v reg rm h.1
  | vmovupsXmmStoreVex3 ps rex v reg rm => exact vex3_legal m .vl128 _ ps rex v reg rm h
  | vmovupsYmmLoadVex2 ps rex v reg rm => exact vex2_legal .vl256 _ ps rex v reg rm h.1
  | vmovupsYmmLoadVex3 ps rex v reg rm => exact vex3_legal m .vl256 _ ps rex v reg rm h
  | vmovupsYmmStoreVex2 ps rex v reg rm => exact vex2_legal .vl256 _ ps rex v reg rm h.1
  | vmovupsYmmStoreVex3 ps rex v reg rm => exact vex3_legal m .vl256 _ ps rex v reg rm h
  | vmovupsXmmLoadEvex ps rex e reg rm => exact (evex_legal m .vl128 _ ps rex e reg rm h).1
  | vmovupsYmmLoadEvex ps rex e reg rm => exact (evex_legal m .vl256 _ ps rex e reg rm h).1
  | vmovupsZmmLoadEvex ps rex e reg rm => exact (evex_legal m .vl512 _ ps rex e reg rm h).1
  | vmovupsXmmStoreEvex ps rex e reg rm =>
    obtain ⟨h1, h2⟩ := evex_legal m .vl128 _ ps rex e reg rm h
    exact ⟨h1.1, h1.2, fun hz => h2 hz rfl⟩
  | vmovupsYmmStoreEvex ps rex e reg rm =>
    obtain ⟨h1, h2⟩ := evex_legal m .vl256 _ ps rex e reg rm h
    exact ⟨h1.1, h1.2, fun hz => h2 hz rfl⟩
  | vmovupsZmmStoreEvex ps rex e reg rm =>
    obtain ⟨h1, h2⟩ := evex_legal m .vl512 _ ps rex e reg rm h
    exact ⟨h1.1, h1.2, fun hz => h2 hz rfl⟩
  | vmovupsReservedLoad ps rex e reg rm => exact absurd rfl hd
  | vmovupsReservedStore ps rex e reg rm => exact absurd rfl hd

/-- The check for `Admitted`. -/
def admittedB (i : Instr) (m : Mode) (s : State) : Bool :=
  decide (launchMode s = .ok m) && i.wf m && directionOf i != .neither && !(formOf i).decodeUd (isStore i)
    && (m == .m64 || !((formOf i).r || (formOf i).x || (formOf i).b || (formOf i).rHi)) && decide (i.len ≤ 15)

theorem admitted_of (i : Instr) (m : Mode) (s : State) (h : admittedB i m s = true) : Admitted i m s := by
  simp only [admittedB, Bool.and_eq_true, decide_eq_true_eq] at h
  obtain ⟨⟨⟨⟨⟨h1, h2⟩, h3⟩, h4⟩, h5⟩, h6⟩ := h
  refine ⟨h1, h2, legal_of_clean m i (by simpa using h3) ⟨by simpa using h4, ?_⟩, h6⟩
  rintro ⟨rfl, hx⟩
  rw [hx] at h5
  simp at h5

/-- The check for `NextPcFits`. -/
def nextPcFitsB (m : Mode) (s : State) (len : Nat) : Bool :=
  match m with
  | .m64 => decide (s.pc.toNat + len ≤ 2 ^ 64) && canonical s.vaBits ((s.pc.toNat + len) % 2 ^ 64)
  | .m32 => decide (s.pc.toNat % 2 ^ 32 + len ≤ 2 ^ 32)

theorem nextPcFits_iff (m : Mode) (s : State) (len : Nat) : NextPcFits m s len ↔ nextPcFitsB m s len = true := by
  cases m <;> simp [NextPcFits, nextPcFitsB]

/-- The check for `Ready`. -/
def readyB (i : Instr) (m : Mode) (s : State) : Bool :=
  admittedB i m s && (formOf i).enabled s && !s.ts && nextPcFitsB m s i.len

theorem ready_of (i : Instr) (m : Mode) (s : State) (h : readyB i m s = true) : Ready i m s := by
  simp only [readyB, Bool.and_eq_true] at h
  exact ⟨admitted_of i m s h.1.1.1, (usable_iff _ _).2 h.1.1.2, by simpa using h.1.2, (nextPcFits_iff _ _ _).2 h.2⟩

/-- The check for `Addressable`. -/
def addressableB (f : Form) (m : Mode) (s : State) (mf : MemForm) : Bool :=
  !f.wraps m s mf && !f.nonCanonical m s (f.linearAddr m s mf) && !f.misaligned m s mf

theorem addressable_of (f : Form) (m : Mode) (s : State) (mf : MemForm) (h : addressableB f m s mf = true) :
    Addressable f m s mf := by
  simp only [addressableB, Bool.and_eq_true] at h
  exact ⟨(fits_iff _ _ _ _).2 (by simpa using h.1.1), (canonicalOperand_iff _ _ _ _).2 (by simpa using h.1.2),
    fun hp => by rw [acPossible_iff] at hp; rw [hp] at h; simp at h⟩

/-- Where no rule of Translate stands, every byte has a location. -/
theorem translateByte_identity (m : Mode) (s : State) (kd : AccessKind) (la : Nat) (h : s.translation = []) :
    translateByte m s kd la = .ok la := by
  simp [translateByte, h]

theorem readable_of_identity (vl : VL) (m : Mode) (s : State) (la : Nat) (mask : Option KMask)
    (h : s.translation = []) : Readable vl m s la mask :=
  fun _ _ _ _ _ => ⟨_, translateByte_identity m s _ _ h⟩

theorem writable_of_identity (vl : VL) (m : Mode) (s : State) (la : Nat) (mask : Option KMask)
    (h : s.translation = []) (hp : la + vl.bytes ≤ s.codeBase ∨ s.codeEnd ≤ la) : Writable vl m s la mask := by
  intro j hj _ c hc
  refine ⟨?_, _, translateByte_identity m s _ _ h⟩
  unfold VL.bytes at hp
  simp only [State.inProgram, Bool.and_eq_false_iff, decide_eq_false_iff_not]
  omega

end Sys2Proof.Safety
end

