-- ==== Sys2Proof/Laws/Decode.lean ====
section
/-! SUPPORT. Laws of the byte and field helpers and of the small readers of the decoder, each against the encoder's
piece it undoes. The round trip of whole instructions is a statement of its own. -/

namespace Sys2Proof.Laws

/-! ## Fields -/

theorem field_byte233 (a : BitVec 2) (b c : BitVec 3) :
    Byte.field (byte233 a b c) 6 2 = a ∧ Byte.field (byte233 a b c) 3 3 = b ∧ Byte.field (byte233 a b c) 0 3 = c := by
  revert a b c; decide

theorem byte233_field (b : Byte) : byte233 (Byte.field b 6 2) (Byte.field b 3 3) (Byte.field b 0 3) = b := by
  revert b; decide

@[simp] theorem ofByte_toByte_rex (x : Rex) : Rex.ofByte? x.toByte = some x := by
  rcases x with ⟨w, r, x, b⟩; revert w r x b; decide

theorem toByte_ofByte_rex (b : Byte) (x : Rex) (h : Rex.ofByte? b = some x) : x.toByte = b := by
  have key : ∀ b : Byte, (Rex.ofByte? b).map Rex.toByte = if Byte.field b 4 4 = 0x4#4 then some b else none := by
    decide
  have := key b
  rw [h] at this
  split at this <;> simp_all

@[simp] theorem ofByte_toByte_prefix (p : LegacyPrefix) : LegacyPrefix.ofByte? p.toByte = some p := by
  cases p <;> decide

theorem toByte_ofByte_prefix (b : Byte) (p : LegacyPrefix) (h : LegacyPrefix.ofByte? b = some p) : p.toByte = b := by
  have := List.find?_some h
  simpa using this

/-- No REX byte and no byte that begins a shape is a legacy prefix. -/
theorem ofByte_rex_none (x : Rex) : LegacyPrefix.ofByte? x.toByte = none := by
  rcases x with ⟨w, r, x, b⟩; revert w r x b; decide

theorem readLe32_le32 (d : BitVec 32) (rest : List Byte) : readLe32 (le32 d ++ rest) = .ok (d, rest) := by
  simp only [le32, List.cons_append, List.nil_append, readLe32]
  have : d.extractLsb' 24 8 ++ d.extractLsb' 16 8 ++ d.extractLsb' 8 8 ++ d.extractLsb' 0 8 = d := by
    ext i hi
    simp only [BitVec.getElem_append, BitVec.getElem_extractLsb']
    split
    · simp [BitVec.getLsbD_eq_getElem, hi]
    · split
      · rw [BitVec.getLsbD_eq_getElem (by omega)]; congr 1; omega
      · split
        · rw [BitVec.getLsbD_eq_getElem (by omega)]; congr 1; omega
        · rw [BitVec.getLsbD_eq_getElem (by omega)]; congr 1; omega
  exact congrArg (fun v => Except.ok (v, rest)) this

theorem readDisp_encode (d : Disp) (rest : List Byte) : readDisp d.mod (d.encode ++ rest) = .ok (d, rest) := by
  cases d with
  | none => rfl
  | d8 d => rfl
  | d32 d => simp [readDisp, Disp.mod, Disp.encode, readLe32_le32, bind, Except.bind]

theorem readOpcode_opcodeByte (st : Bool) (rest : List Byte) :
    readOpcode (opcodeByte st :: rest) = .ok (st, rest) := by
  cases st <;> simp [readOpcode, opcodeByte]

/-! ## Prefix bytes -/

theorem readPrefixes_encode (ps : List LegacyPrefix) (bs : List Byte)
    (h : ∀ b, bs.head? = some b → LegacyPrefix.ofByte? b = none) :
    readPrefixes (ps.map LegacyPrefix.toByte ++ bs) = (ps, bs) := by
  induction ps with
  | nil =>
    cases bs with
    | nil => rfl
    | cons b bs => simp [readPrefixes, h b rfl]
  | cons p ps ih => simp [readPrefixes, ih]

theorem readPrefixes_eq (bs : List Byte) :
    bs = (readPrefixes bs).1.map LegacyPrefix.toByte ++ (readPrefixes bs).2 := by
  induction bs with
  | nil => rfl
  | cons b bs ih =>
    simp only [readPrefixes]
    split
    · rename_i p hp
      simp only [List.map_cons, List.cons_append, toByte_ofByte_prefix b p hp]
      rw [← ih]
    · rfl

end Sys2Proof.Laws
end

