-- ==== Sys2Proof/Laws/Fetch.lean ====
section
/-! SUPPORT. What a fetch answers, and placing a program: it changes nothing but memory and the program's range, and
keeps the canonical form. -/

namespace Sys2Proof.Machine

/-! ## Fetching -/

/-- Where the bytes `bs` can be fetched, a fetch answers them and goes on after them. -/
theorem fetchBytes_append (m : Mode) (s : State) (bs : List Byte) (n la : Nat) (hn : bs.length ≤ n)
    (hla : la + bs.length ≤ 2 ^ addrBits m) (hend : la + bs.length ≤ s.codeEnd)
    (h : ∀ b (h : b < bs.length), ∃ p, translateByte m s .fetch (la + b) = .ok p ∧ s.mem.byte p = bs[b]) :
    fetchBytes m s n la = (bs ++ (fetchBytes m s (n - bs.length) (la + bs.length)).1,
      (fetchBytes m s (n - bs.length) (la + bs.length)).2) := by
  induction bs generalizing n la with
  | nil => simp
  | cons b bs ih =>
    cases n with
    | zero => simp at hn
    | succ n =>
      simp only [List.length_cons] at hn hla hend ⊢
      obtain ⟨p, hp, hb⟩ := h 0 (by simp)
      have ih := ih n (la + 1) (by omega) (by omega) (by omega) fun c hc => by
        obtain ⟨p, hp, hb⟩ := h (c + 1) (by simpa using hc)
        exact ⟨p, by rw [← hp]; congr 1; omega, by simpa using hb⟩
      simp only [Nat.add_zero] at hp
      simp only [List.getElem_cons_zero] at hb
      conv_lhs => unfold fetchBytes
      rw [if_neg (by omega), if_neg (by omega)]
      simp only [hp, ih, hb, Nat.add_sub_add_right, Nat.add_assoc, Nat.add_comm 1, List.cons_append]

/-- A byte that does not translate ends the fetch. -/
theorem fetchBytes_error (m : Mode) (s : State) (n la : Nat) (e : Stop) (hla : la < 2 ^ addrBits m)
    (hend : la < s.codeEnd) (h : translateByte m s .fetch la = .error e) : fetchBytes m s (n + 1) la = ([], e) := by
  unfold fetchBytes
  rw [if_neg (by omega), if_neg (by omega), h]

/-- The end of the program text ends the fetch. -/
theorem fetchBytes_end (m : Mode) (s : State) (n la : Nat) (hla : la < 2 ^ addrBits m) (hend : s.codeEnd ≤ la) :
    fetchBytes m s (n + 1) la = ([], .refused .cutInstruction) := by
  unfold fetchBytes
  rw [if_neg (by omega), if_pos hend]

/-- No byte at or past the end of the program text is fetched. -/
theorem fetchBytes_length (m : Mode) (s : State) (n la : Nat) (h : la ≤ s.codeEnd) :
    la + (fetchBytes m s n la).1.length ≤ s.codeEnd := by
  induction n generalizing la with
  | zero => exact h
  | succ n ih =>
    unfold fetchBytes
    split
    · exact h
    · split
      · exact h
      · split
        · exact h
        · have := ih (la + 1) (by omega)
          simp only [List.length_cons]
          omega

/-! ## Placing a program -/

theorem State.reset_mem_wf : State.reset.mem.wf = true := rfl

theorem wf_placeBytes (m : Mode) (s : State) (bs : List Byte) (la : Nat) (mem : Memory) (h : mem.wf = true) :
    (placeBytes m s la bs mem).wf = true := by
  induction bs generalizing la mem with
  | nil => exact h
  | cons b bs ih =>
    apply ih
    split
    · exact Memory.wf_write _ _ _ h
    · exact h

theorem State.placeProgram_mem_wf (s : State) (m : Mode) (bs : List Byte) (h : s.mem.wf = true) :
    (s.placeProgram m bs).mem.wf = true := wf_placeBytes m s _ _ _ h

theorem State.placeProgram_frame (s : State) (m : Mode) (bs : List Byte) :
    s.placeProgram m bs = { s with
      mem := (s.placeProgram m bs).mem
      codeBase := (s.placeProgram m bs).codeBase
      codeEnd := (s.placeProgram m bs).codeEnd } := rfl

/-- `launchWord` keeps the canonical form. -/
theorem State.launchWord_mem_wf (s : State) (bs : List Byte) (h : s.mem.wf = true) :
    (s.launchWord bs).mem.wf = true := by
  unfold State.launchWord
  split
  · exact State.placeProgram_mem_wf _ _ _ h
  · exact State.placeProgram_mem_wf _ _ _ h

end Sys2Proof.Machine
end

