-- ==== Sys2Proof/Laws/PerInstr.lean ====
section
/-! SUPPORT. Statements made per instruction. EncodedLength: an instruction's encoding has as many bytes as the
length rule R102 says. -/

namespace Sys2Proof.Laws

theorem le32_length (d : BitVec 32) : (le32 d).length = 4 := rfl

theorem disp_encode_length (d : Disp) : d.encode.length = d.len := by cases d <;> rfl

theorem regMem_encode_length (reg : BitVec 3) (rm : RegMem) : (rm.encode reg).length = rm.len := by
  cases rm with
  | reg n => rfl
  | mem m =>
    cases m with
    | base n d => simp [RegMem.encode, RegMem.len, disp_encode_length]; omega
    | sib s i b d => simp [RegMem.encode, RegMem.len, disp_encode_length]; omega
    | sibNoBase s i d => rfl
    | dispOnly d => rfl

theorem encodeWith_length (ps : List LegacyPrefix) (rex : Option Rex) (head : List Byte) (st : Bool)
    (reg : BitVec 3) (rm : RegMem) :
    (encodeWith ps rex head st reg rm).length = lenOf (head.length + 1) ps rex rm := by
  cases rex <;> simp [encodeWith, lenOf, regMem_encode_length] <;> omega

namespace EncodedLength

/-- The encoder writes as many bytes as R102 counts. -/
def Statement (i : Instr) : Prop := i.encode.length = i.len

theorem movupsLoad (ps : List LegacyPrefix) (rex : Option Rex) (reg : BitVec 3) (rm : RegMem) :
    Statement (.movupsLoad ps rex reg rm) := encodeWith_length ..

theorem movupsStore (ps : List LegacyPrefix) (rex : Option Rex) (reg : BitVec 3) (rm : RegMem) :
    Statement (.movupsStore ps rex reg rm) := encodeWith_length ..

theorem vmovupsXmmLoadVex2 (ps : List LegacyPrefix) (rex : Option Rex) (v : Vex2) (reg : BitVec 3) (rm : RegMem) :
    Statement (.vmovupsXmmLoadVex2 ps rex v reg rm) := encodeWith_length ..

theorem vmovupsXmmLoadVex3 (ps : List LegacyPrefix) (rex : Option Rex) (v : Vex3) (reg : BitVec 3) (rm : RegMem) :
    Statement (.vmovupsXmmLoadVex3 ps rex v reg rm) := encodeWith_length ..

theorem vmovupsXmmStoreVex2 (ps : List LegacyPrefix) (rex : Option Rex) (v : Vex2) (reg : BitVec 3) (rm : RegMem) :
    Statement (.vmovupsXmmStoreVex2 ps rex v reg rm) := encodeWith_length ..

theorem vmovupsXmmStoreVex3 (ps : List LegacyPrefix) (rex : Option Rex) (v : Vex3) (reg : BitVec 3) (rm : RegMem) :
    Statement (.vmovupsXmmStoreVex3 ps rex v reg rm) := encodeWith_length ..

theorem vmovupsYmmLoadVex2 (ps : List LegacyPrefix) (rex : Option Rex) (v : Vex2) (reg : BitVec 3) (rm : RegMem) :
    Statement (.vmovupsYmmLoadVex2 ps rex v reg rm) := encodeWith_length ..

theorem vmovupsYmmLoadVex3 (ps : List LegacyPrefix) (rex : Option Rex) (v : Vex3) (reg : BitVec 3) (rm : RegMem) :
    Statement (.vmovupsYmmLoadVex3 ps rex v reg rm) := encodeWith_length ..

theorem vmovupsYmmStoreVex2 (ps : List LegacyPrefix) (rex : Option Rex) (v : Vex2) (reg : BitVec 3) (rm : RegMem) :
    Statement (.vmovupsYmmStoreVex2 ps rex v reg rm) := encodeWith_length ..

theorem vmovupsYmmStoreVex3 (ps : List LegacyPrefix) (rex : Option Rex) (v : Vex3) (reg : BitVec 3) (rm : RegMem) :
    Statement (.vmovupsYmmStoreVex3 ps rex v reg rm) := encodeWith_length ..

theorem vmovupsXmmLoadEvex (ps : List LegacyPrefix) (rex : Option Rex) (v : Evex) (reg : BitVec 3) (rm : RegMem) :
    Statement (.vmovupsXmmLoadEvex ps rex v reg rm) := encodeWith_length ..

theorem vmovupsYmmLoadEvex (ps : List LegacyPrefix) (rex : Option Rex) (v : Evex) (reg : BitVec 3) (rm : RegMem) :
    Statement (.vmovupsYmmLoadEvex ps rex v reg rm) := encodeWith_length ..

theorem vmovupsZmmLoadEvex (ps : List LegacyPrefix) (rex : Option Rex) (v : Evex) (reg : BitVec 3) (rm : RegMem) :
    Statement (.vmovupsZmmLoadEvex ps rex v reg rm) := encodeWith_length ..

theorem vmovupsXmmStoreEvex (ps : List LegacyPrefix) (rex : Option Rex) (v : Evex) (reg : BitVec 3) (rm : RegMem) :
    Statement (.vmovupsXmmStoreEvex ps rex v reg rm) := encodeWith_length ..

theorem vmovupsYmmStoreEvex (ps : List LegacyPrefix) (rex : Option Rex) (v : Evex) (reg : BitVec 3) (rm : RegMem) :
    Statement (.vmovupsYmmStoreEvex ps rex v reg rm) := encodeWith_length ..

theorem vmovupsZmmStoreEvex (ps : List LegacyPrefix) (rex : Option Rex) (v : Evex) (reg : BitVec 3) (rm : RegMem) :
    Statement (.vmovupsZmmStoreEvex ps rex v reg rm) := encodeWith_length ..

theorem vmovupsReservedLoad (ps : List LegacyPrefix) (rex : Option Rex) (v : Evex) (reg : BitVec 3) (rm : RegMem) :
    Statement (.vmovupsReservedLoad ps rex v reg rm) := encodeWith_length ..

theorem vmovupsReservedStore (ps : List LegacyPrefix) (rex : Option Rex) (v : Evex) (reg : BitVec 3) (rm : RegMem) :
    Statement (.vmovupsReservedStore ps rex v reg rm) := encodeWith_length ..

end EncodedLength

end Sys2Proof.Laws
end

