-- ==== Sys2Proof/Tests/Slice0.lean ====
section
/-! SUPPORT. Tests. Expected results are those of the vectors of 95_test_vectors.md, whose names (D1, L3, X5, E9, ...)
the docstrings give. -/

namespace Sys2Proof.Tests

open Sys2Proof.Machine Sys2Proof.Safety

/-! ## Helpers -/

def isNext (o : Host.Outcome State Fault Refusal) : Bool :=
  match o with
  | .next _ => true
  | .fault _ => false
  | .refused _ => false

/-- The next state, or `d`. -/
def nextOr (d : State) (o : Host.Outcome State Fault Refusal) : State :=
  match o with
  | .next t => t
  | .fault _ => d
  | .refused _ => d

def stopOf (o : Host.Outcome State Fault Refusal) : Option Stop :=
  match o with
  | .next _ => none
  | .fault f => some (.fault f)
  | .refused r => some (.refused r)

theorem next_of (d : State) (o : Host.Outcome State Fault Refusal) (h : isNext o = true) : o = .next (nextOr d o) := by
  cases o <;> simp [isNext] at h; rfl

theorem fault_of (o : Host.Outcome State Fault Refusal) (f : Fault) (h : stopOf o = some (.fault f)) :
    o = .fault f := by
  cases o <;> simp [stopOf] at h; rw [h]

def regAfter (n : VNum) (o : Host.Outcome State Fault Refusal) : Option (List Elem) :=
  match o with
  | .next t => some (t.readV n).toList
  | .fault _ => none
  | .refused _ => none

/-- The listed bytes from `la` on after a step. -/
def bytesAfter (la n : Nat) (o : Host.Outcome State Fault Refusal) : Option (List (Option Byte)) :=
  match o with
  | .next t => some ((List.range n).map fun b => t.mem.find? (la + b))
  | .fault _ => none
  | .refused _ => none

/-- Element `j` is `b + j`. -/
def vecFrom (b : Nat) : Vec := Vector.ofFn fun j => BitVec.ofNat 32 (b + j.val)

/-- The elements `b` to `b + n - 1`, then as many zeros as are left of 16. -/
def elems (b n : Nat) : List Elem := ((List.range n).map fun j => BitVec.ofNat 32 (b + j)) ++ List.replicate (16 - n) 0#32

/-- The block `B` of 95_test_vectors.md part 3: `byte(2000H + b) = b`. -/
def blockB : Memory := (List.range 64).map fun b => (0x2000 + b, BitVec.ofNat 8 b)

/-- Element `j` of the block. -/
def blockElem (j : Nat) : Elem := BitVec.ofNat 32 (0x03020100 + 0x04040404 * j)

/-- M64, every form usable, `pc = 1000H`, `x[0] = 2000H`, `v[1] = O`, `v[2] = S`, the block at 2000H. -/
def base : State :=
  { State.reset.launch64 with
    pc := 0x1000#64
    x := (Vector.replicate 16 0#64).set 0 0x2000#64
    v := ((Vector.replicate 32 (Vector.replicate 16 0#32)).set 1 (vecFrom 0xA00)).set 2 (vecFrom 0x100)
    mem := blockB }

/-- The same in M32. -/
def base32 : State := { base with csL := false, csD := true, csBase := 0#64 }

def setX (s : State) (n : Fin 16) (w : Word) : State := { s with x := s.x.set n.val w n.isLt }

def setK (s : State) (n : Fin 8) (k : KMask) : State := { s with k := s.k.set n.val k n.isLt }

/-- One step on a one-instruction program at 1000H. -/
def stepOn (s : State) (bs : List Byte) : Host.Outcome State Fault Refusal := step (s.placeProgram .m64 bs)

def stepOn32 (s : State) (bs : List Byte) : Host.Outcome State Fault Refusal := step (s.placeProgram .m32 bs)

/-! ## Well-formedness: each check refuses a term -/

theorem test_wf_repeated_prefix : (Instr.movupsLoad [.fs, .fs] none 1#3 (.reg 2#3)).wf .m64 = false := by decide
theorem test_wf_two_segments : (Instr.movupsStore [.fs, .gs] none 1#3 (.reg 2#3)).wf .m64 = false := by decide
theorem test_wf_rep_repne :
    (Instr.vmovupsXmmLoadVex2 [.rep, .repne] none ⟨false, 0xF#4⟩ 1#3 (.reg 2#3)).wf .m64 = false := by decide
theorem test_wf_mandatory_prefix : (Instr.movupsLoad [.opSize] none 1#3 (.reg 2#3)).wf .m64 = false := by decide
theorem test_wf_rex_in_m32 :
    (Instr.movupsLoad [] (some ⟨false, false, false, false⟩) 1#3 (.reg 2#3)).wf .m32 = false := by decide
theorem test_wf_addressing16 : (Instr.movupsLoad [.addrSize] none 1#3 (.mem (.base 0#3 .none))).wf .m32 = false := by
  decide
theorem test_wf_base_needs_sib : (Instr.movupsLoad [] none 1#3 (.mem (.base 4#3 .none))).wf .m64 = false := by decide
theorem test_wf_base_needs_disp : (Instr.movupsLoad [] none 1#3 (.mem (.base 5#3 .none))).wf .m64 = false := by decide
theorem test_wf_sib_base_needs_disp :
    (Instr.movupsLoad [] none 1#3 (.mem (.sib 0#2 0#3 5#3 .none))).wf .m64 = false := by decide
theorem test_wf_vex2_lds : (Instr.vmovupsYmmStoreVex2 [] none ⟨true, 0xF#4⟩ 2#3 (.reg 1#3)).wf .m32 = false := by
  decide
theorem test_wf_vex2_lds_vvvv : (Instr.vmovupsYmmLoadVex2 [] none ⟨false, 7#4⟩ 2#3 (.reg 1#3)).wf .m32 = false := by
  decide
theorem test_wf_vex3_les :
    (Instr.vmovupsYmmLoadVex3 [] none ⟨false, true, false, false, 0xF#4⟩ 2#3 (.reg 1#3)).wf .m32 = false := by decide
theorem test_wf_evex_bound :
    (Instr.vmovupsZmmLoadEvex [] none ⟨true, false, false, false, false, 0xF#4, true, false, false, true, 0#3⟩ 2#3
      (.reg 1#3)).wf .m32 = false := by decide

/-! ## Decoding: one word of each constructor, and refusals -/

/-- EVEX fields with `z` and `aaa`, everything else as a legal form in M32 has it. -/
def evexZA (z : Bool) (aaa : BitVec 3) : Evex :=
  ⟨false, false, false, false, false, 0xF#4, true, z, false, true, aaa⟩

/-- The memory operand `[rax]`. -/
def atRax : RegMem := .mem (.base 0#3 .none)

/-- D1. -/
theorem test_decode_movupsLoad :
    decode .m64 [0x0F#8, 0x10#8, 0xCA#8] = .ok (.movupsLoad [] none 1#3 (.reg 2#3), []) := by decide
/-- D9. -/
theorem test_decode_movupsStore :
    decode .m64 [0x44#8, 0x0F#8, 0x11#8, 0x7C#8, 0x24#8, 0x08#8]
      = .ok (.movupsStore [] (some ⟨false, true, false, false⟩) 7#3 (.mem (.sib 0#2 4#3 4#3 (.d8 8#8))), []) := by
  decide
/-- D30. -/
theorem test_decode_xmmLoadVex2 :
    decode .m64 [0xC5#8, 0xF8#8, 0x10#8, 0xA0#8, 0x80#8, 0#8, 0#8, 0#8]
      = .ok (.vmovupsXmmLoadVex2 [] none ⟨false, 0xF#4⟩ 4#3 (.mem (.base 0#3 (.d32 0x80#32))), []) := by decide
/-- D23. -/
theorem test_decode_xmmLoadVex3 :
    decode .m32 [0xC4#8, 0xE1#8, 0x78#8, 0x10#8, 0xCA#8]
      = .ok (.vmovupsXmmLoadVex3 [] none ⟨false, false, false, false, 0xF#4⟩ 1#3 (.reg 2#3), []) := by decide
/-- X6. -/
theorem test_decode_xmmStoreVex2 :
    decode .m64 [0xC5#8, 0xF8#8, 0x11#8, 0xCA#8]
      = .ok (.vmovupsXmmStoreVex2 [] none ⟨false, 0xF#4⟩ 1#3 (.reg 2#3), []) := by decide
/-- R86: `C4`, R = X = 0, B = 1, map 1; W = 0, vvvv = 1111, L = 0, pp = 00. -/
theorem test_decode_xmmStoreVex3 :
    decode .m64 [0xC4#8, 0xC1#8, 0x78#8, 0x11#8, 0x08#8]
      = .ok (.vmovupsXmmStoreVex3 [] none ⟨false, false, true, false, 0xF#4⟩ 1#3 atRax, []) := by decide
/-- D35. -/
theorem test_decode_ymmLoadVex2 :
    decode .m32 [0xC5#8, 0xFC#8, 0x10#8, 0x7C#8, 0xB5#8, 0x20#8]
      = .ok (.vmovupsYmmLoadVex2 [] none ⟨false, 0xF#4⟩ 7#3 (.mem (.sib 2#2 6#3 5#3 (.d8 0x20#8))), []) := by decide
/-- D28. -/
theorem test_decode_ymmLoadVex3 :
    decode .m64 [0xC4#8, 0x01#8, 0x7C#8, 0x10#8, 0x64#8, 0x75#8, 0xF8#8]
      = .ok (.vmovupsYmmLoadVex3 [] none ⟨true, true, true, false, 0xF#4⟩ 4#3
          (.mem (.sib 1#2 6#3 5#3 (.d8 0xF8#8))), []) := by decide
/-- D25. -/
theorem test_decode_ymmStoreVex2 :
    decode .m64 [0xC5#8, 0x7C#8, 0x11#8, 0xD1#8]
      = .ok (.vmovupsYmmStoreVex2 [] none ⟨true, 0xF#4⟩ 2#3 (.reg 1#3), []) := by decide
/-- R86: `C4`, R = 1, X = B = 0, map 1; W = 1, vvvv = 1111, L = 1, pp = 00. -/
theorem test_decode_ymmStoreVex3 :
    decode .m64 [0xC4#8, 0x61#8, 0xFC#8, 0x11#8, 0xD1#8]
      = .ok (.vmovupsYmmStoreVex3 [] none ⟨true, false, false, true, 0xF#4⟩ 2#3 (.reg 1#3), []) := by decide
/-- D43. -/
theorem test_decode_xmmLoadEvex :
    decode .m64 [0x62#8, 0x61#8, 0x7C#8, 0x8F#8, 0x10#8, 0xF8#8]
      = .ok (.vmovupsXmmLoadEvex [] none
          ⟨true, false, false, true, false, 0xF#4, true, true, false, true, 7#3⟩ 7#3 (.reg 0#3), []) := by decide
/-- D40. -/
theorem test_decode_ymmLoadEvex :
    decode .m64 [0x62#8, 0xF1#8, 0x7C#8, 0x29#8, 0x10#8, 0x60#8, 0x80#8]
      = .ok (.vmovupsYmmLoadEvex [] none (evexZA false 1#3) 4#3 (.mem (.base 0#3 (.d8 0x80#8))), []) := by decide
/-- D64. -/
theorem test_decode_zmmLoadEvex :
    decode .m64 [0x64#8, 0x67#8, 0x62#8, 0xF1#8, 0x7C#8, 0x48#8, 0x10#8, 0x84#8, 0x88#8, 0x00#8, 0x01#8, 0#8, 0#8]
      = .ok (.vmovupsZmmLoadEvex [.fs, .addrSize] none (evexZA false 0#3) 0#3
          (.mem (.sib 2#2 1#3 0#3 (.d32 0x100#32))), []) := by decide
/-- E20. -/
theorem test_decode_xmmStoreEvex :
    decode .m32 [0x62#8, 0xF1#8, 0x7C#8, 0x09#8, 0x11#8, 0xCA#8]
      = .ok (.vmovupsXmmStoreEvex [] none (evexZA false 1#3) 1#3 (.reg 2#3), []) := by decide
/-- D57. -/
theorem test_decode_ymmStoreEvex :
    decode .m64 [0x62#8, 0xE1#8, 0x7C#8, 0x2D#8, 0x11#8, 0x24#8, 0xCB#8]
      = .ok (.vmovupsYmmStoreEvex [] none
          ⟨false, false, false, true, false, 0xF#4, true, false, false, true, 5#3⟩ 4#3
          (.mem (.sib 3#2 1#3 3#3 .none)), []) := by decide
/-- D42. -/
theorem test_decode_zmmStoreEvex :
    decode .m64 [0x62#8, 0x01#8, 0x7C#8, 0x48#8, 0x11#8, 0xFE#8]
      = .ok (.vmovupsZmmStoreEvex [] none
          ⟨true, true, true, true, false, 0xF#4, true, false, false, true, 0#3⟩ 7#3 (.reg 6#3), []) := by decide
/-- D46. -/
theorem test_decode_reservedLoad :
    decode .m32 [0x62#8, 0xF1#8, 0x7C#8, 0x68#8, 0x10#8, 0xCA#8]
      = .ok (.vmovupsReservedLoad [] none (evexZA false 0#3) 1#3 (.reg 2#3), []) := by decide
/-- R90 (d) with opcode 11 and every field but `L'L`, map and `pp` at its other value. -/
theorem test_decode_reservedStore :
    decode .m64 [0x62#8, 0x01#8, 0x80#8, 0xF7#8, 0x11#8, 0x08#8]
      = .ok (.vmovupsReservedStore [] none
          ⟨true, true, true, true, true, 0#4, false, true, true, false, 7#3⟩ 1#3 atRax, []) := by decide

/-- D10, D12: RIP-relative against the SIB form without base. -/
theorem test_decode_disp_forms :
    decode .m64 [0x0F#8, 0x10#8, 0x05#8, 0x00#8, 0x01#8, 0#8, 0#8]
      = .ok (.movupsLoad [] none 0#3 (.mem (.dispOnly 0x100#32)), []) ∧
    decode .m64 [0x0F#8, 0x10#8, 0x0C#8, 0x25#8, 0x00#8, 0x10#8, 0#8, 0#8]
      = .ok (.movupsLoad [] none 1#3 (.mem (.sibNoBase 0#2 4#3 0x1000#32)), []) := by decide

/-- D18, D19, D26, D33, D34, D53, D54, D59: other instructions. -/
theorem test_decode_not_movups :
    [decode .m64 [0x66#8, 0x0F#8, 0x10#8, 0xCA#8], decode .m32 [0x0F#8, 0x28#8, 0xCA#8],
      decode .m32 [0xC5#8, 0x7C#8, 0x11#8, 0xD1#8], decode .m64 [0xC5#8, 0xF9#8, 0x10#8, 0xCA#8],
      decode .m64 [0xC4#8, 0xE2#8, 0x78#8, 0x10#8, 0xCA#8],
      decode .m64 [0x62#8, 0xF5#8, 0x7C#8, 0x48#8, 0x10#8, 0xCA#8],
      decode .m64 [0x62#8, 0xF2#8, 0x7C#8, 0x48#8, 0x10#8, 0xCA#8],
      decode .m32 [0x62#8, 0x71#8, 0x7C#8, 0x48#8, 0x10#8, 0xCA#8]]
      = List.replicate 8 (.error .notMovups) := by decide

/-- D61, D63, D68, R84, R102: refusals, each by its name. -/
theorem test_decode_refusals :
    [decode .m32 [0x67#8, 0x0F#8, 0x10#8, 0x00#8], decode .m64 [0x64#8, 0x65#8, 0x0F#8, 0x10#8, 0x08#8],
      decode .m64 [0xF2#8, 0xF3#8, 0x0F#8, 0x10#8, 0xCA#8], decode .m64 [0x48#8, 0x66#8, 0x0F#8, 0x10#8, 0xCA#8],
      decode .m64 [0x0F#8, 0x10#8, 0x0C#8]]
      = [.error .addressing16, .error .prefixConflict, .error .prefixConflict, .error .misplacedRex,
        .error .truncated] := by decide

/-- R112 step 3 with no byte after the one that decides (log entry 18). -/
theorem test_decode_refuses_at_once :
    [decode .m64 [0x66#8, 0x0F#8], decode .m64 [0xC5#8, 0xF9#8], decode .m64 [0xC4#8, 0xE2#8],
      decode .m64 [0x62#8, 0xF2#8], decode .m64 [0x62#8, 0xF1#8, 0x7D#8]] = List.replicate 5 (.error .notMovups) := by
  decide

/-- Rows 1 and 3 (3-byte spelling) of the opcode table, numbered as the table numbers them. -/
theorem test_decodeTableWord :
    decodeTableWord 16 0x0F10 = some (.movupsLoad [] none 0#3 atRax) ∧
    decodeTableWord 32 0xC4E17810
      = some (.vmovupsXmmLoadVex3 [] none ⟨false, false, false, false, 0xF#4⟩ 0#3 atRax) := by decide

/-- A row's word runs as the first instruction after reset. -/
theorem test_withFetchWord :
    isNext (step (State.reset.withFetchWord 16 0x0F10)) = true ∧
    stopOf (step (State.reset.withFetchWord 40 0x62F17C6811)) = some (.fault .invalidOpcode) := by decide

/-! ## One step -/

/-- L1 (the elements above 3 keep their values). -/
theorem test_movupsLoad_merges :
    regAfter 1#5 (stepOn base [0x0F#8, 0x10#8, 0xCA#8])
      = some ((elems 0x100 4).take 4 ++ (vecFrom 0xA00).toList.drop 4) := by decide

/-- L3. -/
theorem test_movupsLoad_misaligned :
    (regAfter 1#5 (stepOn (setX base 0 0x2001#64) [0x0F#8, 0x10#8, 0x08#8])).map (List.take 5)
      = some [0x04030201#32, 0x08070605#32, 0x0C0B0A09#32, 0x100F0E0D#32, 0xA04#32] := by decide

/-- L4. -/
theorem test_movupsStore_bytes :
    bytesAfter 0x3002 18 (stepOn
        { setX base 0 0x3003#64 with
          v := base.v.set 1 (vecOfElems [0x33221100#32, 0x77665544#32, 0xBBAA9988#32, 0xFFEEDDCC#32, 5#32]) }
        [0x0F#8, 0x11#8, 0x08#8])
      = some (none :: ((List.range 16).map fun b => some (BitVec.ofNat 8 (0x11 * b))) ++ [none]) := by decide

/-- L7. -/
theorem test_movupsStore_register :
    regAfter 2#5 (stepOn base [0x0F#8, 0x11#8, 0xCA#8])
      = some ((elems 0xA00 4).take 4 ++ (vecFrom 0x100).toList.drop 4) := by decide

/-- X1. -/
theorem test_xmmLoadVex2_zeroes :
    regAfter 1#5 (stepOn base [0xC5#8, 0xF8#8, 0x10#8, 0xCA#8]) = some (elems 0x100 4) := by decide

/-- X12. -/
theorem test_xmmLoadVex2_address :
    (regAfter 4#5 (stepOn { setX base 3 1#64 with mem := [(0x2080, 0x99#8), (0x2081, 0x88#8), (0x2082, 0x77#8),
        (0x2083, 0x66#8)] } [0xC5#8, 0xF8#8, 0x10#8, 0x64#8, 0x18#8, 0x7F#8])).map (List.take 1)
      = some [0x66778899#32] := by decide

/-- D23 with `W = 1`: as X1. -/
theorem test_xmmLoadVex3_w_ignored :
    regAfter 1#5 (stepOn base [0xC4#8, 0xE1#8, 0xF8#8, 0x10#8, 0xCA#8]) = some (elems 0x100 4) := by decide

/-- X6. -/
theorem test_xmmStoreVex2_register :
    regAfter 2#5 (stepOn base [0xC5#8, 0xF8#8, 0x11#8, 0xCA#8]) = some (elems 0xA00 4) := by decide

/-- X7. -/
theorem test_xmmStoreVex2_memory :
    bytesAfter 0x300C 8 (stepOn (setX base 0 0x3000#64) [0xC5#8, 0xF8#8, 0x11#8, 0x08#8])
      = some [some 0x03#8, some 0x0A#8, some 0#8, some 0#8, none, none, none, none] := by decide

/-- As X7 through `r8` (R86 `B`). -/
theorem test_xmmStoreVex3_base_r8 :
    bytesAfter 0x300C 5 (stepOn (setX base 8 0x3000#64) [0xC4#8, 0xC1#8, 0x78#8, 0x11#8, 0x08#8])
      = some [some 0x03#8, some 0x0A#8, some 0#8, some 0#8, none] := by decide

/-- X3. -/
theorem test_ymmLoadVex2_memory :
    regAfter 1#5 (stepOn base [0xC5#8, 0xFC#8, 0x10#8, 0x08#8])
      = some ((List.range 8).map blockElem ++ List.replicate 8 0#32) := by decide

/-- D27: `ymm9, [r8 + r9*4 + 0x10]`. -/
theorem test_ymmLoadVex3_sib :
    regAfter 9#5 (stepOn (setX (setX base 8 0x1FF4#64) 9 1#64)
        [0xC4#8, 0x01#8, 0x7C#8, 0x10#8, 0x4C#8, 0x88#8, 0x10#8])
      = some ((List.range 8).map (fun j => blockElem (j + 2)) ++ List.replicate 8 0#32) := by decide

/-- X4. -/
theorem test_ymmStoreVex2_memory :
    bytesAfter 0x301C 6 (stepOn (setX base 0 0x3001#64) [0xC5#8, 0xFC#8, 0x11#8, 0x08#8])
      = some [some 0#8, some 0x07#8, some 0x0A#8, some 0#8, some 0#8, none] := by decide

/-- X5. -/
theorem test_ymmStoreVex2_register :
    regAfter 1#5 (stepOn { base with v := base.v.set 10 (vecFrom 1) } [0xC5#8, 0x7C#8, 0x11#8, 0xD1#8])
      = some (elems 1 8) := by decide

/-- D28 with opcode 11: `[r13 + r14*2 - 8], ymm12`. -/
theorem test_ymmStoreVex3_sib :
    bytesAfter 0x3000 5 (stepOn { setX (setX base 13 0x3000#64) 14 4#64 with
        v := base.v.set 12 (vecFrom 0x55667788) } [0xC4#8, 0x01#8, 0x7C#8, 0x11#8, 0x64#8, 0x75#8, 0xF8#8])
      = some [some 0x88#8, some 0x77#8, some 0x66#8, some 0x55#8, some 0x89#8] := by decide

/-- E4. -/
theorem test_xmmLoadEvex_zeroing :
    regAfter 1#5 (stepOn (setK base 1 5#64) [0x62#8, 0xF1#8, 0x7C#8, 0x89#8, 0x10#8, 0xCA#8])
      = some ([0x100#32, 0#32, 0x102#32] ++ List.replicate 13 0#32) := by decide

/-- E6. -/
theorem test_xmmLoadEvex_none_active :
    regAfter 1#5 (stepOn (setK base 1 0xFFF0#64) [0x62#8, 0xF1#8, 0x7C#8, 0x09#8, 0x10#8, 0xCA#8])
      = some (elems 0xA00 4) := by decide

/-- E7. -/
theorem test_ymmLoadEvex_merging :
    regAfter 1#5 (stepOn (setK base 1 0xFFFFFFFFFFFFFF0F#64) [0x62#8, 0xF1#8, 0x7C#8, 0x29#8, 0x10#8, 0xCA#8])
      = some ((elems 0x100 4).take 4 ++ (elems 0xA04 4).take 4 ++ List.replicate 8 0#32) := by decide

/-- D40: `[rax - 0x1000]`, disp8 times 32. -/
theorem test_ymmLoadEvex_disp8 :
    (regAfter 4#5 (stepOn (setK (setX base 0 0x3000#64) 1 1#64)
        [0x62#8, 0xF1#8, 0x7C#8, 0x29#8, 0x10#8, 0x60#8, 0x80#8])).map (List.take 2)
      = some [0x03020100#32, 0#32] := by decide

/-- E2. -/
theorem test_zmmLoadEvex_merging :
    regAfter 1#5 (stepOn (setK base 1 0xFF#64) [0x62#8, 0xF1#8, 0x7C#8, 0x49#8, 0x10#8, 0xCA#8])
      = some ((elems 0x100 8).take 8 ++ (elems 0xA08 8).take 8) := by decide

/-- E9, the block one element higher: disp8 times 64, elements 0 and 15 alone read. -/
theorem test_zmmLoadEvex_memory :
    regAfter 1#5 (stepOn (setK (setX base 0 0x1FC0#64) 2 0x8001#64)
        [0x62#8, 0xF1#8, 0x7C#8, 0x4A#8, 0x10#8, 0x48#8, 0x01#8])
      = some ([0x03020100#32] ++ (vecFrom 0xA00).toList.tail.take 14 ++ [0x3F3E3D3C#32]) := by decide

/-- E15. -/
theorem test_xmmStoreEvex_memory :
    bytesAfter 0x3010 16 (stepOn { setK (setX base 0 0x3000#64) 1 0xA#64 with
        v := base.v.set 1 (vecFrom 0x100) } [0x62#8, 0xF1#8, 0x7C#8, 0x09#8, 0x11#8, 0x48#8, 0x01#8])
      = some [none, none, none, none, some 1#8, some 1#8, some 0#8, some 0#8,
          none, none, none, none, some 3#8, some 1#8, some 0#8, some 0#8] := by decide

/-- E20, the registers exchanged. -/
theorem test_xmmStoreEvex_register :
    regAfter 2#5 (stepOn (setK base 1 3#64) [0x62#8, 0xF1#8, 0x7C#8, 0x09#8, 0x11#8, 0xCA#8])
      = some ([0xA00#32, 0xA01#32, 0x102#32, 0x103#32] ++ List.replicate 12 0#32) := by decide

/-- E16. -/
theorem test_ymmStoreEvex_memory :
    bytesAfter 0x301F 6 (stepOn { setK (setX base 0 0x3040#64) 1 1#64 with
        v := base.v.set 1 (vecFrom 0x100) } [0x62#8, 0xF1#8, 0x7C#8, 0x29#8, 0x11#8, 0x48#8, 0xFF#8])
      = some [none, some 0#8, some 1#8, some 0#8, some 0#8, none] := by decide

/-- E14. -/
theorem test_zmmStoreEvex_memory :
    bytesAfter 0x30B8 8 (stepOn { setK (setX base 0 0x3000#64) 3 0x8001#64 with
        v := base.v.set 1 (vecFrom 0x100), mem := [(0x30BB, 0xEE#8), (0x30BC, 0xEE#8)] }
        [0x62#8, 0xF1#8, 0x7C#8, 0x4B#8, 0x11#8, 0x48#8, 0x02#8])
      = some [none, none, none, some 0xEE#8, some 0x0F#8, some 1#8, some 0#8, some 0#8] := by decide

/-- E21. -/
theorem test_zmmStoreEvex_high_registers :
    regAfter 30#5 (stepOn { base with v := base.v.set 31 (vecFrom 0x100) }
      [0x62#8, 0x01#8, 0x7C#8, 0x48#8, 0x11#8, 0xFE#8]) = some (elems 0x100 16) := by decide

/-- D46 and its opcode 11. -/
theorem test_reserved_length :
    stopOf (stepOn base [0x62#8, 0xF1#8, 0x7C#8, 0x68#8, 0x10#8, 0xCA#8]) = some (.fault .invalidOpcode) ∧
    stopOf (stepOn base [0x62#8, 0xF1#8, 0x7C#8, 0x68#8, 0x11#8, 0xCA#8]) = some (.fault .invalidOpcode) := by decide

/-- D20, D58, L11, L13, L14, L20: stops seen through a step. -/
theorem test_stops :
    stopOf (stepOn base [0xC5#8, 0xF0#8, 0x10#8, 0xCA#8]) = some (.fault .invalidOpcode) ∧
    stopOf (stepOn32 base32 [0x62#8, 0xE1#8, 0x7C#8, 0x2D#8, 0x11#8, 0x24#8, 0xCB#8])
      = some (.refused .extensionBit) ∧
    stopOf (stepOn (setX base 0 0x0000800000000000#64) [0x0F#8, 0x10#8, 0x08#8])
      = some (.fault .generalProtection) ∧
    stopOf (stepOn (setX base 4 0x0000800000000000#64) [0x0F#8, 0x10#8, 0x1C#8, 0x24#8])
      = some (.fault .stackSegment) ∧
    stopOf (stepOn (setX base 0 0xFFFFFFFFFFFFFFF8#64) [0x0F#8, 0x10#8, 0x08#8])
      = some (.refused .operandWraps) ∧
    stopOf (stepOn (setX base 0 0xFF1#64) [0x0F#8, 0x11#8, 0x08#8]) = some (.refused .storeToProgram) := by
  decide

/-- The first step of P5 (M32). -/
theorem test_m32_load :
    (regAfter 0#5 (stepOn32 (setX base32 0 0xFFFFFFFF00002002#64) [0x0F#8, 0x10#8, 0x00#8])).map (List.take 1)
      = some [0x05040302#32] := by decide

/-! ## Witnesses: states and operands that meet the hypotheses of each statement -/

def axEA : MemForm := .base 0#3 .none

def legacyLoads (rm : RegMem) : List Instr := [.movupsLoad [] none 1#3 rm]

def legacyStores (rm : RegMem) : List Instr := [.movupsStore [] none 1#3 rm]

def vexLoads (rm : RegMem) : List Instr :=
  [.vmovupsXmmLoadVex2 [] none ⟨false, 0xF#4⟩ 1#3 rm, .vmovupsYmmLoadVex2 [] none ⟨false, 0xF#4⟩ 1#3 rm,
    .vmovupsXmmLoadVex3 [] none ⟨false, false, false, true, 0xF#4⟩ 1#3 rm,
    .vmovupsYmmLoadVex3 [] none ⟨false, false, false, true, 0xF#4⟩ 1#3 rm]

def vexStores (rm : RegMem) : List Instr :=
  [.vmovupsXmmStoreVex2 [] none ⟨false, 0xF#4⟩ 1#3 rm, .vmovupsYmmStoreVex2 [] none ⟨false, 0xF#4⟩ 1#3 rm,
    .vmovupsXmmStoreVex3 [] none ⟨false, false, false, true, 0xF#4⟩ 1#3 rm,
    .vmovupsYmmStoreVex3 [] none ⟨false, false, false, true, 0xF#4⟩ 1#3 rm]

def evexLoads (z : Bool) (aaa : BitVec 3) (rm : RegMem) : List Instr :=
  [.vmovupsXmmLoadEvex [] none (evexZA z aaa) 1#3 rm, .vmovupsYmmLoadEvex [] none (evexZA z aaa) 1#3 rm,
    .vmovupsZmmLoadEvex [] none (evexZA z aaa) 1#3 rm]

def evexStores (z : Bool) (aaa : BitVec 3) (rm : RegMem) : List Instr :=
  [.vmovupsXmmStoreEvex [] none (evexZA z aaa) 1#3 rm, .vmovupsYmmStoreEvex [] none (evexZA z aaa) 1#3 rm,
    .vmovupsZmmStoreEvex [] none (evexZA z aaa) 1#3 rm]

def allForms (rm : RegMem) : List Instr :=
  legacyLoads rm ++ legacyStores rm ++ vexLoads rm ++ vexStores rm ++ evexLoads false 1#3 rm ++ evexStores false 1#3 rm

/-- Every instruction of the list is ready, in both modes. -/
theorem ready_all (l : List Instr) (h : (l.all fun i => readyB i .m64 base && readyB i .m32 base32) = true) :
    ∀ i ∈ l, Ready i .m64 base ∧ Ready i .m32 base32 := by
  intro i hi
  have := List.all_eq_true.1 h i hi
  simp only [Bool.and_eq_true] at this
  exact ⟨ready_of _ _ _ this.1, ready_of _ _ _ this.2⟩

/-- Every instruction of the list is ready in `s`, with a reachable operand. -/
theorem reachable_all (l : List Instr) (s : State) (mf : MemForm)
    (h : (l.all fun i => readyB i .m64 s && addressableB (formOf i) .m64 s mf) = true) :
    ∀ i ∈ l, Ready i .m64 s ∧ Addressable (formOf i) .m64 s mf := by
  intro i hi
  have := List.all_eq_true.1 h i hi
  simp only [Bool.and_eq_true] at this
  exact ⟨ready_of _ _ _ this.1, addressable_of _ _ _ _ this.2⟩

theorem witness_DecodeInvertsEncode : ∀ i ∈ allForms (.reg 2#3) ++ allForms atRax, i.wf .m64 = true ∧ i.wf .m32 = true := by
  decide

theorem witness_EncodeInvertsDecode :
    decode .m64 [0x0F#8, 0x10#8, 0xCA#8] = .ok (.movupsLoad [] none 1#3 (.reg 2#3), []) := by decide

/-- The 16 bytes of D65. -/
def tooLong : Instr :=
  .vmovupsZmmLoadEvex [.lock, .rep, .fs, .opSize, .addrSize] none (evexZA false 0#3) 0#3
    (.mem (.sib 2#2 1#3 0#3 (.d32 0x100#32)))

/-- The 13 bytes of D64. -/
def longest : Instr :=
  .vmovupsZmmLoadEvex [.fs, .addrSize] none (evexZA false 0#3) 0#3 (.mem (.sib 2#2 1#3 0#3 (.d32 0x100#32)))

theorem witness_LengthRule :
    decode .m64 [0xF0#8, 0xF3#8, 0x64#8, 0x66#8, 0x67#8, 0x62#8, 0xF1#8, 0x7C#8, 0x48#8, 0x10#8, 0x84#8, 0x88#8,
      0x00#8, 0x01#8, 0#8, 0#8] = .ok (tooLong, []) ∧ tooLong.len = 16 ∧ launchMode base = .ok .m64 := by decide

theorem witness_LegalEncodingsAreShort : longest.wf .m64 = true ∧ Legal .m64 longest ∧ longest.len = 13 :=
  ⟨by decide, legal_of_clean _ _ (by decide) ⟨by decide, by decide⟩, by decide⟩

theorem witness_NeighboursAreRefused :
    (Opening .m64 [.opSize] (some ⟨true, false, false, false⟩) [0x66#8, 0x48#8] ∧ Opening .m32 [.rep] none [0xF3#8] ∧
      Opening .m64 [] none []) ∧
    prefixesOk [.opSize] = true ∧ prefixesOk [.rep] = true ∧ prefixesOk [.repne] = true ∧
    (0x12#8 ≠ 0x10#8 ∧ 0x12#8 ≠ 0x11#8) ∧ (0xF9#8).extractLsb' 0 2 ≠ 0#2 ∧ (0xE2#8).extractLsb' 0 5 ≠ 1#5 ∧
    (0x79#8).extractLsb' 0 2 ≠ 0#2 ∧ (0xF5#8).extractLsb' 0 4 ≠ 1#4 ∧ (0x7D#8).extractLsb' 0 2 ≠ 0#2 :=
  ⟨⟨⟨by decide, by decide, by decide⟩, ⟨by decide, by decide, by decide⟩, ⟨by decide, by decide, by decide⟩⟩, by decide⟩

theorem witness_PrefixConflictIsRefused :
    ¬ ([LegacyPrefix.fs, .fs]).Nodup ∧
    (∃ p ∈ [LegacyPrefix.fs, .gs], ∃ q ∈ [LegacyPrefix.fs, .gs], p ≠ q ∧ p.isSegment = true ∧ q.isSegment = true) ∧
    (LegacyPrefix.rep ∈ [LegacyPrefix.repne, .rep] ∧ LegacyPrefix.repne ∈ [LegacyPrefix.repne, .rep]) := by decide

theorem witness_M32OtherInstructionsAreRefused :
    Opening .m32 [.es, .addrSize] none [0x26#8, 0x67#8] ∧ (0x7C#8).extractLsb' 6 2 ≠ 3#2 ∧ (0xBF#8).extractLsb' 6 2 ≠ 3#2 ∧ (0x40#8).extractLsb' 4 4 = 4#4 ∧
    (0x4F#8).extractLsb' 4 4 = 4#4 := ⟨⟨by decide, by decide, by decide⟩, by decide⟩

/-- D58 (`R' = 1`), and `B = 1` in the 3-byte VEX spelling. -/
def extended : List Instr :=
  [.vmovupsYmmStoreEvex [] none ⟨false, false, false, true, false, 0xF#4, true, false, false, true, 5#3⟩ 4#3
      (.mem (.sib 3#2 1#3 3#3 .none)),
    .vmovupsXmmLoadVex3 [] none ⟨false, false, true, false, 0xF#4⟩ 1#3 (.reg 2#3)]

theorem witness_M32ExtensionBitsAreRefused :
    launchMode base32 = .ok .m32 ∧ ∀ i ∈ extended, i.wf .m32 = true ∧ Legal .m64 i ∧ i.len ≤ 15 ∧
      ((formOf i).b = true ∨ (formOf i).rHi = true) := by
  have h : ∀ i ∈ extended, (i.wf .m32 = true ∧ i.len ≤ 15 ∧ ((formOf i).b = true ∨ (formOf i).rHi = true)) ∧
      admittedB i .m64 base = true := by decide
  exact ⟨by decide, fun i hi => ⟨(h i hi).1.1, (admitted_of _ _ _ (h i hi).2).2.2.1, (h i hi).1.2⟩⟩

theorem witness_MisplacedRexIsRefused :
    Opening .m64 [.fs] none [0x64#8] ∧
    (0x48#8).extractLsb' 4 4 = 4#4 ∧ 0x66#8 ≠ 0x0F#8 ∧ 0x66#8 ≠ 0xC5#8 ∧ 0x66#8 ≠ 0xC4#8 ∧ 0x66#8 ≠ 0x62#8 :=
  ⟨⟨by decide, by decide, by decide⟩, by decide⟩

def copy12 : Instr := .movupsLoad [] none 1#3 (.reg 2#3)

def placed : State := base.placeProgram .m64 [0x0F#8, 0x10#8, 0xCA#8]

theorem witness_StepRunsDecodedInstruction :
    launchMode placed = .ok .m64 ∧ canonical placed.vaBits (placed.ip .m64) = true ∧
    placed.inProgram (placed.ip .m64) = true ∧ copy12.wf .m64 = true ∧
    (placed.ip .m64 + copy12.len ≤ 2 ^ addrBits .m64 ∧ placed.ip .m64 + copy12.len ≤ placed.codeEnd) ∧
    ∀ b (h : b < copy12.encode.length), ∃ p, translateByte .m64 placed .fetch (placed.ip .m64 + b) = .ok p ∧
      placed.mem.byte p = copy12.encode[b] := by
  refine ⟨by decide, by decide, by decide, by decide, by decide, fun b h => ⟨_, translateByte_identity _ _ _ _ rfl, ?_⟩⟩
  revert b
  decide

/-- The last byte of the instruction is on a page that cannot be fetched from. -/
def unfetchable : State :=
  { placed with translation := [⟨0x1002, 0x1FFF, [.fetch], [0#2, 1#2, 2#2, 3#2], .pageFault 0x10#32⟩] }

theorem witness_FetchPageFaultIsReported :
    (copy12.wf .m64 = true ∧ unfetchable.ip .m64 + copy12.len ≤ 2 ^ addrBits .m64 ∧ 2 < copy12.len ∧
      unfetchable.ip .m64 + 2 < unfetchable.codeEnd) ∧
    copy12.encode = [0x0F#8, 0x10#8, 0xCA#8] ∧
    launchMode unfetchable = .ok .m64 ∧ canonical unfetchable.vaBits (unfetchable.ip .m64) = true ∧
    unfetchable.inProgram (unfetchable.ip .m64) = true ∧
    (translateByte .m64 unfetchable .fetch 0x1000 = .ok 0x1000 ∧ unfetchable.mem.byte 0x1000 = 0x0F#8) ∧
    (translateByte .m64 unfetchable .fetch 0x1001 = .ok 0x1001 ∧ unfetchable.mem.byte 0x1001 = 0x10#8) ∧
    translateByte .m64 unfetchable .fetch 0x1002 = .error (.fault (.pageFault 0x10#32 0x1002#64)) ∧
    stopOf (step unfetchable) = some (.fault (.pageFault 0x10#32 0x1002#64)) := by decide

/-- The same bytes, the program text ending before the last of them. -/
def cut : State := { placed with codeEnd := 0x1002 }

theorem witness_CutInstructionIsRefused :
    launchMode cut = .ok .m64 ∧ canonical cut.vaBits (cut.ip .m64) = true ∧ cut.inProgram (cut.ip .m64) = true ∧
    (copy12.wf .m64 = true ∧ cut.ip .m64 + copy12.len ≤ 2 ^ addrBits .m64 ∧ cut.codeEnd < cut.ip .m64 + copy12.len) ∧
    ∀ b (h : b < copy12.encode.length), cut.ip .m64 + b < cut.codeEnd →
      ∃ p, translateByte .m64 cut .fetch (cut.ip .m64 + b) = .ok p ∧ cut.mem.byte p = copy12.encode[b] := by
  refine ⟨by decide, by decide, by decide, by decide, fun b h _ => ⟨_, translateByte_identity _ _ _ _ rfl, ?_⟩⟩
  revert b
  decide

/-- R266, R8: it is refused, and so is the end of a program that ends at the top of the address space. -/
theorem test_program_end :
    stopOf (step cut) = some (.refused .cutInstruction) ∧
    stopOf (step { base with pc := 0#64, codeBase := 2 ^ 64 - 3, codeEnd := 2 ^ 64 }) = some (.refused .runComplete) ∧
    stopOf (step { base32 with pc := 0#64, codeBase := 2 ^ 32 - 3, codeEnd := 2 ^ 32 }) = some (.refused .runComplete) := by
  decide

theorem witness_StepStopsOutsideTheProgram :
    (launchMode placed = .ok .m64 ∧ canonical placed.vaBits 0x0000800000000000 = false) ∧
    (placed.inProgram 0x1003 = false ∧ placed.codeEnd = 0x1003) ∧ placed.inProgram 0x0FFF = false ∧
    stopOf (step { placed with pc := 0x0000800000000000#64 }) = some (.refused .pcOutOfRange) ∧
    stopOf (step { placed with pc := 0x1003#64 }) = some (.refused .runComplete) ∧
    stopOf (step { placed with pc := 0x0FFF#64 }) = some (.refused .outsideProgram) := by decide

theorem witness_StepStaysInTheProgram :
    ProgramInv .m64 placed ∧ step placed = .next (nextOr placed (step placed)) :=
  ⟨⟨by decide, by decide, by decide, by decide⟩, next_of _ _ (by decide)⟩

theorem witness_RunAdvancesThroughTheProgram :
    run 1 placed = .next (nextOr placed (step placed)) ∧ launchMode placed = .ok .m64 ∧
    placed.codeEnd < 2 ^ addrBits .m64 := by
  refine ⟨?_, by decide, by decide⟩
  rw [run, next_of placed (step placed) (by decide)]
  rfl

/-- A store beside its own program. -/
def storing : State := (setX base 0 0x3000#64).placeProgram .m64 [0x0F#8, 0x11#8, 0x08#8]

theorem witness_ProgramTextIsNotWritten :
    step storing = .next (nextOr storing (step storing)) ∧
    ∀ m la, launchMode storing = .ok m → translateByte m storing .write la = .ok 0x1000 →
      storing.inProgram la = true := by
  refine ⟨next_of _ _ (by decide), fun m la _ h => ?_⟩
  rw [translateByte_identity _ _ _ _ rfl] at h
  cases h
  decide

/-- Reset's CR4 under a launch that is admitted otherwise. -/
theorem witness_NoFormRunsOutOfReset :
    Admitted copy12 .m64 { base with cr4 := State.reset.cr4 } := admitted_of _ _ _ (by decide)

theorem witness_StepKeepsInvariant : StateInv placed ∧ step placed = .next (nextOr placed (step placed)) := by
  refine ⟨⟨by decide, fun n j hj => ?_, fun h => ?_, by decide, fun _ => by decide, fun h => ?_⟩, next_of _ _ (by decide)⟩
  · have h16 : placed.features.maxElems = 16 := by decide
    omega
  · exact absurd h (by decide)
  · exact absurd h (by decide)

theorem witness_CompletedFormChangesOnlyItsDestination :
    ∀ i ∈ allForms (.reg 2#3) ++ allForms atRax, exec i base = .next (nextOr base (exec i base)) := by
  have h : ((allForms (.reg 2#3) ++ allForms atRax).all fun i => isNext (exec i base)) = true := by decide
  exact fun i hi => next_of _ _ (List.all_eq_true.1 h i hi)

def nearTop : State := { base with pc := 0xFFFFFFFFFFFFFFFE#64 }
def nearHole : State := { base with pc := 0x00007FFFFFFFFFFD#64 }
def nearTop32 : State := { base32 with pc := 0xFFFFFFFE#64 }

/-- Every form with a memory operand, where the next pc is not canonical. -/
theorem witness_NextPcOutOfRangeIsRefused_memory :
    ∀ i ∈ allForms atRax, Admitted i .m64 nearHole ∧ Usable (formOf i) nearHole ∧ nearHole.ts = false ∧
      OperandReady i .m64 nearHole ∧ ¬ NextPcFits .m64 nearHole i.len := by
  have h : ((allForms atRax).all fun i => admittedB i .m64 nearHole && (formOf i).enabled nearHole &&
      addressableB (formOf i) .m64 nearHole axEA && !nextPcFitsB .m64 nearHole i.len && (formOf i).rm == atRax) = true := by
    decide
  intro i hi
  have := List.all_eq_true.1 h i hi
  simp only [Bool.and_eq_true, beq_iff_eq] at this
  obtain ⟨⟨⟨⟨h1, h2⟩, h3⟩, h4⟩, h5⟩ := this
  refine ⟨admitted_of _ _ _ h1, (usable_iff _ _).2 h2, by decide, fun mf hmf => ?_, ?_⟩
  · rw [h5] at hmf
    cases hmf
    exact ⟨addressable_of _ _ _ _ h3, fun _ => readable_of_identity _ _ _ _ _ rfl,
      fun _ => writable_of_identity _ _ _ _ _ rfl (.inr (Nat.zero_le _))⟩
  · rw [nextPcFits_iff]
    simpa using h4

/-- A register copy has no memory operand to be ready. -/
theorem operandReady_copy (m : Mode) (s : State) : OperandReady copy12 m s := by
  intro mf h
  cases h

theorem witness_NextPcOutOfRangeIsRefused :
    (Admitted copy12 .m64 nearTop ∧ Usable (formOf copy12) nearTop ∧ nearTop.ts = false ∧ ¬ NextPcFits .m64 nearTop 3) ∧
    (Admitted copy12 .m64 nearHole ∧ Usable (formOf copy12) nearHole ∧ ¬ NextPcFits .m64 nearHole 3) ∧
    (Admitted copy12 .m32 nearTop32 ∧ Usable (formOf copy12) nearTop32 ∧ ¬ NextPcFits .m32 nearTop32 3) ∧
    NextPcFits .m64 { base with pc := 0xFFFFFFFFFFFFFFFD#64 } 3 := by
  simp only [nextPcFits_iff, usable_iff]
  exact ⟨⟨admitted_of _ _ _ (by decide), by decide⟩, ⟨admitted_of _ _ _ (by decide), by decide⟩,
    ⟨admitted_of _ _ _ (by decide), by decide⟩, by decide⟩

theorem witness_LegacyFormsCopyRegisters :
    ∀ i ∈ legacyLoads (.reg 2#3) ++ legacyStores (.reg 2#3), Ready i .m64 base ∧ Ready i .m32 base32 :=
  ready_all _ (by decide)

/-- Registers 15 and 8 (REX). -/
theorem witness_LegacyFormsCopyRegisters_rex :
    Ready (.movupsLoad [] (some ⟨true, true, true, true⟩) 7#3 (.reg 0#3)) .m64 base := ready_of _ _ _ (by decide)

theorem witness_LegacyLoadReadsMemory :
    ∀ i ∈ legacyLoads atRax, (Ready i .m64 base ∧ Addressable (formOf i) .m64 base axEA) ∧
      Readable .vl128 .m64 base ((formOf i).linearAddr .m64 base axEA) none :=
  fun i hi => ⟨reachable_all _ base axEA (by decide) i hi, readable_of_identity _ _ _ _ _ rfl⟩

theorem witness_LegacyStoreWritesMemory :
    ∀ i ∈ legacyStores atRax, (Ready i .m64 base ∧ Addressable (formOf i) .m64 base axEA) ∧
      Writable .vl128 .m64 base ((formOf i).linearAddr .m64 base axEA) none :=
  fun i hi => ⟨reachable_all _ base axEA (by decide) i hi, writable_of_identity _ _ _ _ _ rfl (.inr (Nat.zero_le _))⟩

theorem witness_VexFormsCopyRegisters :
    ∀ i ∈ vexLoads (.reg 2#3) ++ vexStores (.reg 2#3), Ready i .m64 base ∧ Ready i .m32 base32 :=
  ready_all _ (by decide)

theorem witness_VexLoadsReadMemory :
    ∀ i ∈ vexLoads atRax, (Ready i .m64 base ∧ Addressable (formOf i) .m64 base axEA) ∧
      ∀ vl, Readable vl .m64 base ((formOf i).linearAddr .m64 base axEA) none :=
  fun i hi => ⟨reachable_all _ base axEA (by decide) i hi, fun _ => readable_of_identity _ _ _ _ _ rfl⟩

theorem witness_VexStoresWriteMemory :
    ∀ i ∈ vexStores atRax, (Ready i .m64 base ∧ Addressable (formOf i) .m64 base axEA) ∧
      ∀ vl, Writable vl .m64 base ((formOf i).linearAddr .m64 base axEA) none :=
  fun i hi => ⟨reachable_all _ base axEA (by decide) i hi,
    fun _ => writable_of_identity _ _ _ _ _ rfl (.inr (Nat.zero_le _))⟩

theorem witness_EvexFormsCopyRegisters :
    ∀ i ∈ evexLoads true 1#3 (.reg 2#3) ++ evexStores true 7#3 (.reg 2#3) ++ evexLoads false 0#3 (.reg 2#3),
      Ready i .m64 base ∧ Ready i .m32 base32 := ready_all _ (by decide)

theorem witness_EvexLoadsReadMemory :
    ∀ i ∈ evexLoads true 1#3 atRax ++ evexLoads false 0#3 atRax,
      (Ready i .m64 base ∧ Addressable (formOf i) .m64 base axEA) ∧
      ∀ vl aaa, Readable vl .m64 base ((formOf i).linearAddr .m64 base axEA) (maskOf base aaa) :=
  fun i hi => ⟨reachable_all _ base axEA (by decide) i hi, fun _ _ => readable_of_identity _ _ _ _ _ rfl⟩

theorem witness_EvexStoresWriteMemory :
    ∀ i ∈ evexStores false 1#3 atRax ++ evexStores false 0#3 atRax,
      (Ready i .m64 base ∧ Addressable (formOf i) .m64 base axEA) ∧
      ∀ vl aaa, Writable vl .m64 base ((formOf i).linearAddr .m64 base axEA) (maskOf base aaa) :=
  fun i hi => ⟨reachable_all _ base axEA (by decide) i hi,
    fun _ _ => writable_of_identity _ _ _ _ _ rfl (.inr (Nat.zero_le _))⟩

/-- E12, E17: no byte of the operand translates, no element is active (mask bits at `KL` and above are set). -/
def unmapped : State :=
  { setK base 1 0xFFFFFFFFFFFF0000#64 with
    translation := [⟨0x2000, 0xFFFF, [.read, .write], [0#2, 1#2, 2#2, 3#2], .pageFault 6#32⟩] }

theorem witness_InactiveElementsAreNotAccessed :
    ∀ i ∈ evexLoads false 1#3 atRax ++ evexLoads true 1#3 atRax ++ evexStores false 1#3 atRax,
      (Ready i .m64 unmapped ∧ Addressable (formOf i) .m64 unmapped axEA) ∧
      (formOf i).mask unmapped = some 0xFFFFFFFFFFFF0000#64 ∧
      ∀ j < (formOf i).vl.elems, (0xFFFFFFFFFFFF0000#64).getLsbD j = false := by
  refine fun i hi => ⟨reachable_all _ unmapped axEA (by decide) i hi, ?_⟩
  revert i
  decide

/-! ### Faults -/

theorem witness_ReservedLengthRowsRaiseUd :
    launchMode base = .ok .m64 ∧ evexWf .m64 [] none (evexZA false 0#3) atRax = true ∧ lenOf 5 [] none atRax ≤ 15 := by
  decide

/-- D17, D32, D55. -/
theorem witness_IllegalPrefixesRaiseUd :
    ∀ i ∈ [Instr.movupsStore [.lock] none 1#3 atRax,
        .vmovupsXmmLoadVex2 [] (some ⟨true, false, false, false⟩) ⟨false, 0xF#4⟩ 1#3 (.reg 2#3),
        .vmovupsXmmLoadVex3 [.opSize] none ⟨false, false, false, false, 0xF#4⟩ 1#3 (.reg 2#3),
        .vmovupsZmmLoadEvex [.rep] none (evexZA false 0#3) 1#3 (.reg 2#3),
        .vmovupsYmmStoreEvex [.repne] none (evexZA false 0#3) 1#3 (.reg 2#3)],
      launchMode base = .ok .m64 ∧ i.wf .m64 = true ∧ i.len ≤ 15 ∧
      (.lock ∈ (formOf i).ps ∨ ((formOf i).shape ≠ .legacy ∧
        ((formOf i).hasRex = true ∨ .opSize ∈ (formOf i).ps ∨ .rep ∈ (formOf i).ps ∨ .repne ∈ (formOf i).ps))) := by
  decide

/-- D20, D21, D44, in both modes. -/
theorem witness_VvvvMustBeOnes :
    launchMode base = .ok .m64 ∧ launchMode base32 = .ok .m32 ∧
    ∀ i ∈ [vex2Instr false false [] none ⟨false, 0xE#4⟩ 1#3 (.reg 2#3),
        vex3Instr true true [] none ⟨false, false, false, false, 7#4⟩ 1#3 atRax,
        evexInstr 2#2 false [] none { evexZA false 0#3 with vvvv := 0xE#4 } 1#3 (.reg 2#3)],
      i.wf .m64 = true ∧ i.wf .m32 = true ∧ i.len ≤ 15 := by decide

/-- D45, D47 to D51, in both modes. -/
theorem witness_EvexReservedFieldsRaiseUd :
    ∀ e ∈ [{ evexZA false 0#3 with w := true }, { evexZA false 0#3 with one := false },
        { evexZA false 0#3 with bc := true }, { evexZA false 0#3 with vHi := false }, evexZA true 0#3, evexZA true 1#3],
      evexWf .m64 [] none e atRax = true ∧ evexWf .m32 [] none e atRax = true ∧ lenOf 5 [] none atRax ≤ 15 ∧
      (e.w = true ∨ e.one = false ∨ e.bc = true ∨ e.vHi = false ∨ (e.z = true ∧ e.aaa = 0#3) ∨
        (e.z = true ∧ true = true ∧ atRax.isMem = true)) := by decide

/-- D65; D67 has 15 bytes. -/
theorem witness_TooLongRaisesGp :
    launchMode base = .ok .m64 ∧ tooLong.wf .m64 = true ∧ 15 < tooLong.len ∧
    (Instr.vmovupsXmmLoadVex3 [.lock, .rep, .fs, .opSize, .addrSize] none ⟨false, false, false, false, 0xF#4⟩ 0#3
      (.mem (.sib 2#2 1#3 0#3 (.d32 0x100#32)))).len = 15 := by decide

/-- L8, L9, L19, X9, E22, E23: each enable off. -/
def disabled : List (Instr × State) :=
  [(copy12, { base with cr0 := setBits base.cr0 [2] }), (copy12, { base with cr4 := clearBits base.cr4 [9] }),
    (copy12, { base with features := ⟨false, true, true, true⟩ }),
    (vex2Instr false false [] none ⟨false, 0xF#4⟩ 1#3 (.reg 2#3), { base with cr4 := clearBits base.cr4 [18] }),
    (vex2Instr false false [] none ⟨false, 0xF#4⟩ 1#3 (.reg 2#3), { base with xcr0 := 3#64 }),
    (vex2Instr false false [] none ⟨false, 0xF#4⟩ 1#3 (.reg 2#3), { base with features := ⟨true, false, false, false⟩ }),
    (evexInstr 0#2 false [] none (evexZA false 0#3) 1#3 (.reg 2#3), { base with features := ⟨true, true, true, false⟩ }),
    (evexInstr 2#2 false [] none (evexZA false 0#3) 1#3 (.reg 2#3), { base with xcr0 := 7#64 })]

theorem witness_DisabledFormsRaiseUd :
    ∀ p ∈ disabled, Admitted p.1 .m64 p.2 ∧ ¬ Usable (formOf p.1) p.2 := by
  have h : (disabled.all fun p => admittedB p.1 .m64 p.2 && !(formOf p.1).enabled p.2) = true := by decide
  intro p hp
  have := List.all_eq_true.1 h p hp
  simp only [Bool.and_eq_true] at this
  exact ⟨admitted_of _ _ _ this.1, by rw [usable_iff]; simpa using this.2⟩

/-- E22 (second half): the 512-bit form on a part without AVX512VL. -/
theorem witness_zmm_without_vl :
    Ready (evexInstr 2#2 false [] none (evexZA false 0#3) 1#3 (.reg 2#3)) .m64
      { base with features := ⟨true, true, true, false⟩ } := ready_of _ _ _ (by decide)

def switched : State := { base with cr0 := setBits base.cr0 [3] }

/-- L10, L8, E24: a register form, a memory form, and one with `EM` set too. -/
theorem witness_TaskSwitchedRaisesNm :
    (Admitted copy12 .m64 switched ∧ switched.ts = true ∧ Usable (formOf copy12) switched) ∧
    (Admitted (evexInstr 2#2 true [] none (evexZA false 1#3) 1#3 atRax) .m64 switched ∧
      Usable (formOf (evexInstr 2#2 true [] none (evexZA false 1#3) 1#3 atRax)) switched) ∧
    (Admitted copy12 .m64 { base with cr0 := setBits base.cr0 [2, 3] } ∧
      ¬ Usable (formOf copy12) { base with cr0 := setBits base.cr0 [2, 3] }) := by
  simp only [usable_iff]
  exact ⟨⟨admitted_of _ _ _ (by decide), by decide⟩, ⟨admitted_of _ _ _ (by decide), by decide⟩,
    ⟨admitted_of _ _ _ (by decide), by decide⟩⟩

/-- `[rsp]`. -/
def rspEA : MemForm := .sib 0#2 4#3 4#3 .none

def load (mf : MemForm) : Instr := .movupsLoad [] none 3#3 (.mem mf)

/-- The premises that the statements about a non-canonical operand share. -/
def nonCanonicalB (i : Instr) (s : State) (mf : MemForm) : Bool :=
  admittedB i .m64 s && (formOf i).enabled s && !s.ts && !(formOf i).wraps .m64 s mf
    && (formOf i).nonCanonical .m64 s ((formOf i).linearAddr .m64 s mf)

theorem nonCanonical_of (i : Instr) (s : State) (mf : MemForm) (h : nonCanonicalB i s mf = true) :
    Admitted i .m64 s ∧ Usable (formOf i) s ∧ s.ts = false ∧ Fits (formOf i) .m64 s mf ∧
      ¬ CanonicalOperand (formOf i) .m64 s mf := by
  simp only [nonCanonicalB, Bool.and_eq_true] at h
  rw [usable_iff, fits_iff, canonicalOperand_iff]
  exact ⟨admitted_of _ _ _ h.1.1.1.1, h.1.1.1.2, by simpa using h.1.1.2, by simpa using h.1.2, by simp [h.2]⟩

/-- L13; the last byte of the operand alone non-canonical. -/
theorem witness_StackSegmentFaultRule :
    ([0x0000800000000000#64, 0x00007FFFFFFFFFF1#64].all fun w => nonCanonicalB (load rspEA) (setX base 4 w) rspEA)
      = true ∧
    (formOf (load rspEA)).segment .m64 rspEA = .ss ∧
    exec (load rspEA) (setX base 4 0x0000800000000000#64) = .fault .stackSegment :=
  ⟨by decide, by decide, fault_of _ _ (by decide)⟩

/-- L11, L12, E13 (whatever the mask); the last canonical operand. -/
theorem witness_GeneralProtectionRule :
    ([0x0000800000000000#64, 0x00007FFFFFFFFFF8#64, 0xFFFF7FFFFFFFFFFF#64].all fun w =>
      nonCanonicalB (load axEA) (setX base 0 w) axEA) = true ∧
    nonCanonicalB (.vmovupsZmmLoadEvex [] none (evexZA false 1#3) 1#3 atRax) (setX base 0 0x0000800000000000#64) axEA
      = true ∧
    (formOf (load axEA)).segment .m64 axEA ≠ .ss ∧
    exec (load axEA) (setX base 0 0x0000800000000000#64) = .fault .generalProtection ∧
    addressableB (formOf (load axEA)) .m64 (setX base 0 0x00007FFFFFFFFFF0#64) axEA = true ∧
    (tooLong.wf .m64 = true ∧ 15 < tooLong.len) :=
  ⟨by decide, by decide, by decide, fault_of _ _ (by decide), by decide, by decide⟩

/-- L17, X13: alignment checking on at CPL 3. -/
def checking (w : Word) : State :=
  { setX base 0 w with cr0 := setBits base.cr0 [18], rflags := setBits base.rflags [18], cpl := 3#2 }

theorem witness_AlignmentCheckIsADraw :
    ∀ i ∈ [Instr.movupsLoad [] none 1#3 atRax, .vmovupsYmmStoreVex2 [] none ⟨false, 0xF#4⟩ 1#3 atRax],
      Ready i .m64 (checking 0x2001#64) ∧ Fits (formOf i) .m64 (checking 0x2001#64) axEA ∧
      CanonicalOperand (formOf i) .m64 (checking 0x2001#64) axEA ∧ AcPossible (formOf i) .m64 (checking 0x2001#64) axEA ∧
      Readable (formOf i).vl .m64 (checking 0x2001#64) ((formOf i).linearAddr .m64 (checking 0x2001#64) axEA) none ∧
      Writable (formOf i).vl .m64 (checking 0x2001#64) ((formOf i).linearAddr .m64 (checking 0x2001#64) axEA) none := by
  intro i hi
  rw [fits_iff, canonicalOperand_iff, acPossible_iff]
  have h : ∀ i ∈ [Instr.movupsLoad [] none 1#3 atRax, .vmovupsYmmStoreVex2 [] none ⟨false, 0xF#4⟩ 1#3 atRax],
      readyB i .m64 (checking 0x2001#64) = true ∧ (formOf i).wraps .m64 (checking 0x2001#64) axEA = false ∧
      (formOf i).nonCanonical .m64 (checking 0x2001#64)
        ((formOf i).linearAddr .m64 (checking 0x2001#64) axEA) = false ∧
      (formOf i).misaligned .m64 (checking 0x2001#64) axEA = true := by decide
  obtain ⟨h1, h2⟩ := h i hi
  exact ⟨ready_of _ _ _ h1, h2.1, h2.2.1, h2.2.2, readable_of_identity _ _ _ _ _ rfl,
    writable_of_identity _ _ _ _ _ rfl (.inr (Nat.zero_le _))⟩

/-- The draw decides: the fault of the second clause is reached when it says so. -/
theorem witness_AlignmentCheckIsADraw_fault (h : Config.acDraw 0 = true) :
    exec (.movupsLoad [] none 1#3 atRax) (checking 0x2001#64) = .fault .alignmentCheck := by
  have hm : memAddress (formOf (.movupsLoad [] none 1#3 atRax)) .m64 (checking 0x2001#64) axEA
      = raise .alignmentCheck := by
    have h1 : (formOf (.movupsLoad [] none 1#3 atRax)).wraps .m64 (checking 0x2001#64) axEA = false := by decide
    have h2 : (formOf (.movupsLoad [] none 1#3 atRax)).nonCanonical .m64 (checking 0x2001#64)
        ((formOf (.movupsLoad [] none 1#3 atRax)).linearAddr .m64 (checking 0x2001#64) axEA) = false := by decide
    have h3 : (formOf (.movupsLoad [] none 1#3 atRax)).misaligned .m64 (checking 0x2001#64) axEA = true := by decide
    have h4 : Config.acDraw (checking 0x2001#64).draws = true := h
    simp [memAddress, h1, h2, h3, h4]
  have hf : frontChecks (formOf (.movupsLoad [] none 1#3 atRax)) false (checking 0x2001#64) = .ok .m64 := by decide
  rw [exec_eq]
  change outcome (loadOrCopy (formOf (.movupsLoad [] none 1#3 atRax)) (checking 0x2001#64)) = _
  simp only [loadOrCopy, hf, ok_bind]
  change outcome ((memAddress (formOf (.movupsLoad [] none 1#3 atRax)) .m64 (checking 0x2001#64) axEA) >>= _) = _
  rw [hm]
  rfl

/-- Where `#AC` is possible and not drawn the operand is addressable: the premise of the result statements. -/
theorem witness_Addressable_not_drawn (h : Config.acDraw 0 = false) :
    AcPossible (formOf (.movupsLoad [] none 1#3 atRax)) .m64 (checking 0x2001#64) axEA ∧
    Addressable (formOf (.movupsLoad [] none 1#3 atRax)) .m64 (checking 0x2001#64) axEA := by
  have h1 := witness_AlignmentCheckIsADraw _ (List.mem_cons_self)
  exact ⟨h1.2.2.2.1, h1.2.1, h1.2.2.1, fun _ => h⟩

/-- M32 with paging off and one rule of Translate. -/
def unpaged (r : XlateResult) : State :=
  { base32 with
    cr0 := clearBits base32.cr0 [31]
    translation := [⟨0x2000, 0x2FFF, [.read], [0#2], r⟩] }

/-- R58, R61: with paging off in M32 the page-fault rules do not count, and memory that is not ordinary is refused. -/
theorem test_paging_off :
    translateByte .m32 (unpaged .notOrdinary) .read 0x2000 = .error (.refused .notOrdinaryMemory) ∧
    translateByte .m32 (unpaged (.pageFault 0#32)) .read 0x2000 = .ok 0x2000 ∧
    stopOf (stepOn32 (unpaged .notOrdinary) [0x0F#8, 0x10#8, 0x00#8]) = some (.refused .notOrdinaryMemory) := by decide

/-- L15, L16: page 3000H not mapped. -/
def split : State :=
  { setX base 0 0x2FF8#64 with
    translation := [⟨0x3000, 0x3FFF, [.read, .write], [0#2, 1#2, 2#2, 3#2], .pageFault 6#32⟩] }

theorem witness_OperandPageFault :
    (∀ i ∈ [Instr.movupsLoad [] none 1#3 atRax, .movupsStore [] none 1#3 atRax],
      Ready i .m64 split ∧ Addressable (formOf i) .m64 split axEA) ∧
    (formOf (.movupsStore [] none 1#3 atRax)).linearAddr .m64 split axEA = 0x2FF8 ∧
    (∀ a < 16, split.inProgram (0x2FF8 + a) = false) ∧
    (∀ kd ∈ [AccessKind.read, .write], ∀ b < 8, translateByte .m64 split kd (0x2FF8 + b) = .ok (0x2FF8 + b)) ∧
    (∀ kd ∈ [AccessKind.read, .write],
      translateByte .m64 split kd (0x2FF8 + 4 * 2 + 0) = .error (.fault (.pageFault 6#32 0x3000#64))) :=
  ⟨reachable_all _ split axEA (by decide), by decide, by decide, by decide, by decide⟩

/-- L14; the first operand that fits. -/
theorem witness_WrappingOperandIsRefused :
    Admitted (load axEA) .m64 (setX base 0 0xFFFFFFFFFFFFFFF8#64) ∧
    ¬ Fits (formOf (load axEA)) .m64 (setX base 0 0xFFFFFFFFFFFFFFF8#64) axEA ∧
    ¬ Fits (formOf (load axEA)) .m32 (setX base32 0 0xFFFFFFF1#64) axEA ∧
    Fits (formOf (load axEA)) .m64 (setX base 0 0xFFFFFFFFFFFFFFF0#64) axEA := by
  simp only [fits_iff]
  exact ⟨admitted_of _ _ _ (by decide), by decide, by decide, by decide⟩

/-- L20: the last byte of the store, and the first, in the program. -/
theorem witness_StoreToProgramIsRefused :
    ([0x0FF1#64, 0x1002#64].all fun w => readyB (.movupsStore [] none 1#3 atRax) .m64 (setX placed 0 w) &&
      addressableB (formOf (.movupsStore [] none 1#3 atRax)) .m64 (setX placed 0 w) axEA) = true ∧
    placed.inProgram (0x0FF1 + 4 * 3 + 3) = true ∧ placed.inProgram (0x1002 + 4 * 0 + 0) = true ∧
    placed.inProgram 0x1003 = false := by decide

/-! ### What an instruction does not depend on, and the rest -/

theorem witness_FlagsAreReadOnlyThroughAcAndVm :
    (0xFFFFFFFFFFFBFEFF#64 &&& ~~~0x20000#64).getLsbD 18 = base.rflags.getLsbD 18 ∧
    (0xFFFFFFFFFFFBFEFF#64 &&& ~~~0x20000#64).getLsbD 17 = base.rflags.getLsbD 17 ∧
    (0xFFFFFFFFFFFBFEFF#64 &&& ~~~0x20000#64).getLsbD 8 = base.rflags.getLsbD 8 := by decide

/-- Mask bits 16 and above differ for a form of 16 elements. -/
theorem witness_MaskBitsAboveKlAreIgnored :
    ∀ (n : Fin 8) (j : Nat), j < 16 → ((Vector.replicate 8 0xFFFFFFFFFFFF0000#64)[n]).getLsbD j = (base.k[n]).getLsbD j := by
  decide

theorem witness_VexAndEvexIgnoreEmAndOsfxsr :
    (formOf (vex2Instr true false [] none ⟨false, 0xF#4⟩ 1#3 (.reg 2#3))).shape ≠ .legacy ∧
    (∀ n, n ≠ 2 → (setBits base.cr0 [2]).getLsbD n = base.cr0.getLsbD n) ∧
    (∀ n, n ≠ 9 → (clearBits base.cr4 [9]).getLsbD n = base.cr4.getLsbD n) := by
  have h0 : ∀ n < 64, n ≠ 2 → (setBits base.cr0 [2]).getLsbD n = base.cr0.getLsbD n := by decide
  have h4 : ∀ n < 64, n ≠ 9 → (clearBits base.cr4 [9]).getLsbD n = base.cr4.getLsbD n := by decide
  refine ⟨by decide, fun n hn => ?_, fun n hn => ?_⟩
  · by_cases h : n < 64
    · exact h0 n h hn
    · rw [BitVec.getLsbD_of_ge _ _ (by omega), BitVec.getLsbD_of_ge _ _ (by omega)]
  · by_cases h : n < 64
    · exact h4 n h hn
    · rw [BitVec.getLsbD_of_ge _ _ (by omega), BitVec.getLsbD_of_ge _ _ (by omega)]

theorem witness_PrivilegeMattersOnlyToAcAndTranslate :
    split.am = false ∧ ∀ r ∈ split.translation, r.cpls.contains 3#2 = r.cpls.contains split.cpl := by decide

theorem witness_M32IgnoresUpperHalves :
    launchMode base32 = .ok .m32 ∧
    ∀ n : Fin 16, ((setX base32 0 0xFFFFFFFF00002000#64).x[n]).setWidth 32 = (base32.x[n]).setWidth 32 := by decide

theorem witness_VexSpellingsAgree :
    exec (vex2Instr true false [] none ⟨true, 0xF#4⟩ 1#3 (.reg 2#3)) base
      = .next (nextOr base (exec (vex2Instr true false [] none ⟨true, 0xF#4⟩ 1#3 (.reg 2#3)) base)) ∧
    exec (vex3Instr true false [] none ⟨true, false, false, true, 0xF#4⟩ 1#3 (.reg 2#3)) base
      = .next (nextOr base (exec (vex3Instr true false [] none ⟨true, false, false, true, 0xF#4⟩ 1#3 (.reg 2#3)) base)) :=
  ⟨next_of _ _ (by decide), next_of _ _ (by decide)⟩

/-- L5, X2, E26. -/
theorem witness_CopyToItself :
    ∀ i ∈ [Instr.movupsLoad [] none 1#3 (.reg 1#3), .vmovupsXmmLoadVex2 [] none ⟨false, 0xF#4⟩ 1#3 (.reg 1#3),
        .vmovupsZmmLoadEvex [] none (evexZA true 1#3) 1#3 (.reg 1#3)],
      (formOf i).regNum = (formOf i).rmNum 1#3 ∧ (formOf i).rm = .reg 1#3 ∧ isNext (exec i base) = true := by decide

theorem witness_LinearAddressAddsTheSegmentBase :
    prefixesOk [.fs, .addrSize] = true ∧ prefixesOk [.gs] = true ∧ prefixesOk [.cs] = true := by decide

/-- An override in M32, FS in M64; none, and an ignored one in M64. -/
theorem witness_SegmentSelection :
    (prefixesOk [.es] = true ∧ ∀ p ∈ [LegacyPrefix.es], p.isSegment = true → (Mode.m32 = .m64 → p = .fs ∨ p = .gs)) ∧
    (prefixesOk [.fs] = true ∧ ∀ p ∈ [LegacyPrefix.fs], p.isSegment = true → (Mode.m64 = .m64 → p = .fs ∨ p = .gs)) ∧
    (prefixesOk [.addrSize] = true ∧
      ∀ p ∈ [LegacyPrefix.addrSize], p.isSegment = true → Mode.m32 = .m64 ∧ p ≠ .fs ∧ p ≠ .gs) ∧
    (prefixesOk [.ss] = true ∧ ∀ p ∈ [LegacyPrefix.ss], p.isSegment = true → Mode.m64 = .m64 ∧ p ≠ .fs ∧ p ≠ .gs) ∧
    (baseReg (formOf (load rspEA)) rspEA = some 4#4 ∧ baseReg (formOf (load axEA)) axEA = some 0#4) := by decide

def stored : State := nextOr base (exec (.vmovupsYmmStoreVex2 [] none ⟨false, 0xF#4⟩ 1#3 atRax) base)

theorem witness_StoreThenLoadReadsTheStoredElements :
    exec (.vmovupsYmmStoreVex2 [] none ⟨false, 0xF#4⟩ 1#3 atRax) base = .next stored ∧
    exec (.vmovupsYmmLoadEvex [] none (evexZA false 0#3) 3#3 atRax) stored
      = .next (nextOr stored (exec (.vmovupsYmmLoadEvex [] none (evexZA false 0#3) 3#3 atRax) stored)) ∧
    ((formOf (.vmovupsYmmLoadEvex [] none (evexZA false 0#3) 3#3 atRax)).vl
        = (formOf (.vmovupsYmmStoreVex2 [] none ⟨false, 0xF#4⟩ 1#3 atRax)).vl ∧
      (formOf (.vmovupsYmmLoadEvex [] none (evexZA false 0#3) 3#3 atRax)).aaa = 0#3 ∧ launchMode base = .ok .m64) ∧
    (formOf (.vmovupsYmmStoreVex2 [] none ⟨false, 0xF#4⟩ 1#3 atRax)).linearAddr .m64 base axEA = 0x2000 ∧
    (formOf (.vmovupsYmmLoadEvex [] none (evexZA false 0#3) 3#3 atRax)).linearAddr .m64 stored axEA = 0x2000 ∧
    (∀ b, translateByte .m64 base .read (0x2000 + b) = translateByte .m64 base .write (0x2000 + b)) ∧
    (∀ b b', translateByte .m64 base .write (0x2000 + b) = translateByte .m64 base .write (0x2000 + b') → b = b') := by
  refine ⟨next_of _ _ (by decide), next_of _ _ (by decide), by decide, by decide, by decide, fun b => rfl,
    fun b b' h => ?_⟩
  simp only [translateByte_identity _ base _ _ rfl, Except.ok.injEq] at h
  omega

end Sys2Proof.Tests
end

section
/-! PROOFS for 10_state.md: what a completed instruction leaves unchanged (R33), and that MXCSR bears on none (R27). -/

namespace Sys2Proof.Proofs

open Sys2Proof.Machine Sys2Proof.Safety

/-! ## The frame of a completed form (R33) -/

theorem onlyVectorChanged_writeV_advance (s : State) (n : VNum) (a : Vec) (pc : Word) :
    OnlyVectorChanged s ((s.writeV n a).advance pc) n :=
  ⟨rfl, fun r hr => s.readV_writeV_ne n r a hr.symm⟩

theorem onlyMemoryChanged_setMem_advance (s : State) (mem : Memory) (pc : Word) :
    OnlyMemoryChanged s ((s.setMem mem).advance pc) := rfl

/-- A form of opcode 10 changes its `reg` register and pc only. -/
theorem loadOrCopy_frame (f : Form) (s t : State) (h : loadOrCopy f s = .ok t) :
    ∃ m, launchMode s = .ok m ∧ AdvancesPc m s t f.len ∧ OnlyVectorChanged s t f.regNum := by
  obtain ⟨m, pc, src, hfront, hpc, rfl, _⟩ := loadOrCopy_ok f s t h
  obtain ⟨hm, _⟩ := (frontChecks_ok f false s m).1 hfront
  exact ⟨m, hm, advancesPc_of_nextPc m s _ f.len pc hpc rfl, onlyVectorChanged_writeV_advance s _ _ pc⟩

/-- What a form of opcode 11 changes besides pc: its `r/m` register, or the bytes of the active elements of its
memory operand. -/
def StoreFrame (f : Form) (m : Mode) (s t : State) : Prop :=
  match f.rm with
  | .reg rm => OnlyVectorChanged s t (f.rmNum rm)
  | .mem mf =>
    OnlyMemoryChanged s t ∧
    ∀ p, (∀ j < f.vl.elems, active (f.mask s) j = true → ∀ c < 4,
        translateByte m s .write (f.linearAddr m s mf + 4 * j + c) ≠ .ok p) →
      t.mem.byte p = s.mem.byte p

theorem storeOrCopy_frame (f : Form) (s t : State) (h : storeOrCopy f s = .ok t) :
    ∃ m, launchMode s = .ok m ∧ AdvancesPc m s t f.len ∧ StoreFrame f m s t := by
  obtain ⟨m, pc, hfront, hpc, hcase⟩ := storeOrCopy_ok f s t h
  obtain ⟨hm, _⟩ := (frontChecks_ok f true s m).1 hfront
  have hadv (ht : t.pc = pc) : AdvancesPc m s t f.len := advancesPc_of_nextPc m s t f.len pc hpc ht
  rcases hcase with ⟨rm, hrm, rfl⟩ | ⟨mf, la, cells, hrm, hla, hcells, rfl⟩
  · refine ⟨m, hm, hadv rfl, ?_⟩
    simp only [StoreFrame, hrm]
    exact onlyVectorChanged_writeV_advance s _ _ pc
  · obtain ⟨_, _, _, rfl⟩ := (memAddress_ok f m s mf la).1 hla
    refine ⟨m, hm, hadv rfl, ?_⟩
    simp only [StoreFrame, hrm]
    exact ⟨onlyMemoryChanged_setMem_advance s _ pc,
      fun p hp => byte_of_storeCells_other f m s _ _ _ cells hcells p hp⟩

/-- Settles O22: by the pattern that the instruction's direction runs. -/
theorem completedFormChangesOnlyItsDestination : Obligations.CompletedFormChangesOnlyItsDestination := by
  intro i s t h
  rw [exec_next_iff, runForm] at h
  rw [← formOf_len]
  cases hd : directionOf i with
  | load =>
    rw [hd] at h
    exact loadOrCopy_frame _ s t h
  | store =>
    rw [hd] at h
    obtain ⟨m, hm, hpc, hframe⟩ := storeOrCopy_frame _ s t h
    refine ⟨m, hm, hpc, ?_⟩
    cases hrm : (formOf i).rm <;> simpa only [StoreFrame, hrm] using hframe
  | neither =>
    rw [hd] at h
    exact absurd h (reservedLength_ne_ok _ s t)

/-! ## State that a form does not read

Two states that agree on what the stages of R140 read of them pass the stages alike. `Unread f g s` says this of `s`
and `g s`, with `g` a change that the three updates of a completed form leave standing. -/

/-- The change `g` alters nothing in `s` that form `f` reads, and nothing that an update writes. -/
structure Unread (f : Form) (g : State → State) (s : State) : Prop where
  launchMode : launchMode (g s) = launchMode s
  enabled : f.enabled (g s) = f.enabled s
  ts : (g s).ts = s.ts
  alignmentChecked : (g s).alignmentChecked = s.alignmentChecked
  vaBits : (g s).vaBits = s.vaBits
  pc : (g s).pc = s.pc
  v : (g s).v = s.v
  mask : f.mask (g s) = f.mask s
  mem : (g s).mem = s.mem
  draws : (g s).draws = s.draws
  inProgram : (g s).inProgram = s.inProgram
  segBase : (g s).segBase = s.segBase
  effAddr : ∀ m, Machine.launchMode s = .ok m → f.effAddr m (g s) (f.addrSize m) = f.effAddr m s (f.addrSize m)
  translateByte : ∀ m, Machine.launchMode s = .ok m → translateByte m (g s) = translateByte m s
  writeV : ∀ t n a, g (t.writeV n a) = (g t).writeV n a
  setMem : ∀ t mem, g (t.setMem mem) = (g t).setMem mem
  advance : ∀ t pc, g (t.advance pc) = (g t).advance pc

/-! ### The memory primitives see a state through its translation, memory, program range and draws -/

theorem translateAll_congr {m : Mode} {s s' : State} {kd : AccessKind}
    (h : translateByte m s' kd = translateByte m s kd) (las : List Nat) :
    translateAll m s' kd las = translateAll m s kd las := by
  induction las with
  | nil => rfl
  | cons la las ih => simp only [translateAll, h, ih]

theorem readElems_congr {m : Mode} {s s' : State} (htr : translateByte m s' .read = translateByte m s .read)
    (hmem : s'.mem = s.mem) (la : Nat) (mask : Option KMask) (js : List Nat) :
    readElems m s' la mask js = readElems m s la mask js := by
  have helem (j : Nat) : readElem m s' la j = readElem m s la j := by
    simp only [readElem, translateAll_congr htr, hmem]
  induction js with
  | nil => rfl
  | cons j js ih => simp only [readElems, helem, ih]

theorem storeCells_congr {m : Mode} {s s' : State} (htr : translateByte m s' .write = translateByte m s .write)
    (hprog : s'.inProgram = s.inProgram) (hdraws : s'.draws = s.draws) (la : Nat) (mask : Option KMask)
    (js : List Nat) (src : Vec) : storeCells m s' la mask js src = storeCells m s la mask js src := by
  simp only [storeCells, translateAll_congr htr, hprog, hdraws]

/-! ### The stages -/

section
variable {f : Form} {g : State → State} {s : State}

theorem Unread.frontChecks_eq (h : Unread f g s) (st : Bool) : frontChecks f st (g s) = frontChecks f st s := by
  simp only [frontChecks, enableChecks, taskSwitchCheck, h.launchMode, h.enabled, h.ts]

theorem Unread.nextPc_eq (h : Unread f g s) (m : Mode) (len : Nat) : nextPc m (g s) len = nextPc m s len := by
  have hip : (g s).ip m = s.ip m := by rw [State.ip, h.pc, State.ip]
  rw [nextPc, hip, h.vaBits, nextPc]

theorem Unread.readV_eq (h : Unread f g s) (n : VNum) : (g s).readV n = s.readV n := by
  simp only [State.readV, h.v]

theorem Unread.result_eq (h : Unread f g s) (old src : Vec) : f.result (g s) old src = f.result s old src := by
  simp only [Form.result, h.mask]

theorem Unread.linearAddr_eq (h : Unread f g s) {m : Mode} (hm : Machine.launchMode s = .ok m) (mf : MemForm) :
    f.linearAddr m (g s) mf = f.linearAddr m s mf := by
  simp only [Form.linearAddr, h.effAddr m hm, h.segBase]

theorem Unread.memAddress_eq (h : Unread f g s) {m : Mode} (hm : Machine.launchMode s = .ok m) (mf : MemForm) :
    memAddress f m (g s) mf = memAddress f m s mf := by
  have hla := h.linearAddr_eq hm mf
  have hwraps : f.wraps m (g s) mf = f.wraps m s mf := by simp only [Form.wraps, h.effAddr m hm, hla]
  have hcanon (la : Nat) : f.nonCanonical m (g s) la = f.nonCanonical m s la := by
    simp only [Form.nonCanonical, h.vaBits]
  have hmis : f.misaligned m (g s) mf = f.misaligned m s mf := by
    simp only [Form.misaligned, h.alignmentChecked, hla]
  rw [memAddress, hwraps, hla, hcanon, hmis, h.draws, memAddress]

theorem Unread.finish_writeV (h : Unread f g s) (m : Mode) (n : VNum) (a : Vec) :
    finish m f ((g s).writeV n a) = (finish m f (s.writeV n a)).map g := by
  simp only [finish, nextPc_writeV, h.nextPc_eq]
  cases nextPc m s f.len with
  | error e => rfl
  | ok pc => simp only [Except.map, h.advance, h.writeV]

theorem Unread.finish_setMem (h : Unread f g s) (m : Mode) (mem : Memory) :
    finish m f ((g s).setMem mem) = (finish m f (s.setMem mem)).map g := by
  simp only [finish, nextPc_setMem, h.nextPc_eq]
  cases nextPc m s f.len with
  | error e => rfl
  | ok pc => simp only [Except.map, h.advance, h.setMem]

/-! ### The patterns and exec -/

theorem Unread.loadOrCopy_map (h : Unread f g s) : loadOrCopy f (g s) = (loadOrCopy f s).map g := by
  simp only [loadOrCopy, h.frontChecks_eq, h.result_eq, h.readV_eq, h.mask]
  cases hfront : frontChecks f false s with
  | error e => rfl
  | ok m =>
    obtain ⟨hm, _⟩ := (frontChecks_ok f false s m).1 hfront
    simp only [ok_bind]
    cases f.rm with
    | reg rm => exact h.finish_writeV m _ _
    | mem mf =>
      simp only [h.memAddress_eq hm, readElems_congr (congrFun (h.translateByte m hm) .read) h.mem]
      cases memAddress f m s mf with
      | error e => rfl
      | ok la =>
        simp only [ok_bind]
        cases readElems m s la (f.mask s) f.elems with
        | error e => rfl
        | ok es => exact h.finish_writeV m _ _

theorem Unread.storeOrCopy_map (h : Unread f g s) : storeOrCopy f (g s) = (storeOrCopy f s).map g := by
  simp only [storeOrCopy, h.frontChecks_eq, h.result_eq, h.readV_eq, h.mask, h.mem]
  cases hfront : frontChecks f true s with
  | error e => rfl
  | ok m =>
    obtain ⟨hm, _⟩ := (frontChecks_ok f true s m).1 hfront
    simp only [ok_bind]
    cases f.rm with
    | reg rm => exact h.finish_writeV m _ _
    | mem mf =>
      simp only [h.memAddress_eq hm, storeCells_congr (congrFun (h.translateByte m hm) .write) h.inProgram h.draws]
      cases memAddress f m s mf with
      | error e => rfl
      | ok la =>
        simp only [ok_bind]
        cases storeCells m s la (f.mask s) f.elems (s.readV f.regNum) with
        | error e => rfl
        | ok cells => exact h.finish_setMem m _

theorem Unread.reservedLength_map (h : Unread f g s) : reservedLength f (g s) = (reservedLength f s).map g := by
  simp only [reservedLength, h.launchMode]
  cases Machine.launchMode s with
  | error e => rfl
  | ok m =>
    simp only [ok_bind]
    split
    · rfl
    · split <;> rfl

end

theorem outcome_map (g : State → State) (r : Except Stop State) : outcome (r.map g) = mapNext g (outcome r) := by
  rcases r with (e | e) | t <;> rfl

/-- An instruction does the same whether or not state that it does not read is changed first. -/
theorem Unread.exec_mapNext {i : Instr} {g : State → State} {s : State} (h : Unread (formOf i) g s) :
    exec i (g s) = mapNext g (exec i s) := by
  have hrun : runForm i (g s) = (runForm i s).map g := by
    unfold runForm
    cases directionOf i with
    | load => exact h.loadOrCopy_map
    | store => exact h.storeOrCopy_map
    | neither => exact h.reservedLength_map
  rw [exec_eq, exec_eq, hrun, outcome_map]

/-! ## MXCSR (R27) -/

/-- The state with another MXCSR. -/
def withMxcsr (x : BitVec 32) (s : State) : State := { s with mxcsr := x }

/-- No stage consults MXCSR and no update writes it. -/
theorem unread_withMxcsr (f : Form) (x : BitVec 32) (s : State) : Unread f (withMxcsr x) s where
  launchMode := rfl
  enabled := rfl
  ts := rfl
  alignmentChecked := rfl
  vaBits := rfl
  pc := rfl
  v := rfl
  mask := rfl
  mem := rfl
  draws := rfl
  inProgram := rfl
  segBase := rfl
  effAddr m _ := by funext mf; cases mf <;> rfl
  translateByte _ _ := rfl
  writeV _ _ _ := rfl
  setMem _ _ := rfl
  advance _ _ := rfl

theorem exec_mxcsr_eq (i : Instr) (s t : State) (h : exec i s = .next t) : t.mxcsr = s.mxcsr := by
  obtain ⟨m, pc, _, _, ⟨n, a, rfl⟩ | ⟨cells, rfl⟩⟩ := exec_cases i s t h
  · simp
  · simp

/-- Settles O47: MXCSR is not read, as `unread_withMxcsr` says, and not written. -/
theorem mxcsrIsNeitherReadNorWritten : Obligations.MxcsrIsNeitherReadNorWritten :=
  fun i s x => ⟨(unread_withMxcsr (formOf i) x s).exec_mapNext, exec_mxcsr_eq i s⟩

end Sys2Proof.Proofs
end

section
/-! PROOFS for 30_encoding.md: the length of an instruction (R102), and the field `vvvv` (R87). -/

namespace Sys2Proof.Proofs

open Sys2Proof.Machine Sys2Proof.Safety Sys2Proof.Laws

/-! ## What the readers consume

Each reader of the decoder against the length rule R102: the bytes it is given are as many as its part counts and
those it leaves. -/

theorem except_bind_ok_iff {α β : Type} (x : Except DecodeRefusal α) (f : α → Except DecodeRefusal β) (b : β) :
    (x >>= f) = .ok b ↔ ∃ a, x = .ok a ∧ f a = .ok b := by
  cases x <;> simp [bind, Except.bind]

/-- A refusing check that was passed. -/
theorem guard_ok_iff {α : Type} (c : Prop) [Decidable c] (e : DecodeRefusal) (x : Except DecodeRefusal α) (a : α) :
    (if c then .error e else x) = .ok a ↔ ¬c ∧ x = .ok a := by
  by_cases hc : c <;> simp [hc]

theorem readLe32_length (bs rest : List Byte) (d : BitVec 32) (h : readLe32 bs = .ok (d, rest)) :
    bs.length = 4 + rest.length := by
  unfold readLe32 at h
  split at h
  · cases h
    simp only [List.length_cons]
    omega
  · cases h

theorem readDisp_length (mod : BitVec 2) (bs rest : List Byte) (d : Disp) (h : readDisp mod bs = .ok (d, rest)) :
    bs.length = d.len + rest.length := by
  unfold readDisp at h
  split at h
  · cases h
    simp [Disp.len]
  · split at h
    · cases bs with
      | nil => cases h
      | cons b bs =>
        cases h
        simp only [List.length_cons, Disp.len]
        omega
    · obtain ⟨⟨d, bs'⟩, hd, h⟩ := (except_bind_ok_iff _ _ _).1 h
      cases h
      exact readLe32_length bs _ d hd

theorem readSib_length (mod : BitVec 2) (bs rest : List Byte) (mf : MemForm) (h : readSib mod bs = .ok (mf, rest)) :
    1 + bs.length = (RegMem.mem mf).len + rest.length := by
  cases bs with
  | nil => cases h
  | cons s bs =>
    rw [readSib] at h
    split at h
    · obtain ⟨⟨d, bs'⟩, hd, h⟩ := (except_bind_ok_iff _ _ _).1 h
      cases h
      have := readLe32_length bs _ d hd
      simp only [RegMem.len, List.length_cons]
      omega
    · obtain ⟨⟨d, bs'⟩, hd, h⟩ := (except_bind_ok_iff _ _ _).1 h
      cases h
      have := readDisp_length mod bs _ d hd
      simp only [RegMem.len, List.length_cons]
      omega

theorem readMem_length (mod : BitVec 2) (rm : BitVec 3) (bs rest : List Byte) (mf : MemForm)
    (h : readMem mod rm bs = .ok (mf, rest)) : 1 + bs.length = (RegMem.mem mf).len + rest.length := by
  unfold readMem at h
  split at h
  · exact readSib_length mod bs rest mf h
  · split at h
    · obtain ⟨⟨d, bs'⟩, hd, h⟩ := (except_bind_ok_iff _ _ _).1 h
      cases h
      have := readLe32_length bs _ d hd
      simp only [RegMem.len]
      omega
    · obtain ⟨⟨d, bs'⟩, hd, h⟩ := (except_bind_ok_iff _ _ _).1 h
      cases h
      have := readDisp_length mod bs _ d hd
      simp only [RegMem.len]
      omega

/-- The operand read is as long as R102 counts, and it is none of 16-bit addressing (R96). -/
theorem readRegMem_ok (m : Mode) (ps : List LegacyPrefix) (bs rest : List Byte) (reg : BitVec 3) (rm : RegMem)
    (h : readRegMem m ps bs = .ok (reg, rm, rest)) :
    bs.length = rm.len + rest.length ∧ ¬(m = .m32 ∧ rm.isMem = true ∧ ps.contains .addrSize = true) := by
  cases bs with
  | nil => cases h
  | cons b bs =>
    rw [readRegMem] at h
    split at h
    · cases h
      refine ⟨?_, fun hc => Bool.false_ne_true hc.2.1⟩
      simp only [List.length_cons, RegMem.len]
      omega
    · obtain ⟨h16, h⟩ := (guard_ok_iff _ _ _ _).1 h
      obtain ⟨⟨mf, bs'⟩, hmf, h⟩ := (except_bind_ok_iff _ _ _).1 h
      cases h
      have := readMem_length _ _ bs _ mf hmf
      refine ⟨?_, fun hc => h16 ⟨hc.1, hc.2.2⟩⟩
      simp only [List.length_cons]
      omega

theorem readOpcode_length (bs rest : List Byte) (st : Bool) (h : readOpcode bs = .ok (st, rest)) :
    bs.length = 1 + rest.length := by
  cases bs with
  | nil => cases h
  | cons b bs =>
    rw [readOpcode] at h
    split at h
    · cases h
      exact Nat.add_comm _ _
    · split at h
      · cases h
        exact Nat.add_comm _ _
      · cases h

theorem readPrefixes_length (bs : List Byte) :
    bs.length = (readPrefixes bs).1.length + (readPrefixes bs).2.length := by
  have := congrArg List.length (readPrefixes_eq bs)
  simpa using this

/-- The bytes of a REX prefix that is or is not there. -/
def rexLen (rex : Option Rex) : Nat := if rex.isSome then 1 else 0

theorem readRex_length (m : Mode) (bs : List Byte) :
    bs.length = rexLen (readRex m bs).1 + (readRex m bs).2.length := by
  cases bs with
  | nil => rfl
  | cons b bs =>
    simp only [readRex]
    split
    · exact Nat.add_comm _ _
    · exact (Nat.zero_add _).symm

/-! ## What the decoder answers -/

/-- The instruction `i` stands in the bytes `ps`, `rex`, `head` bytes of its shape, and `bs` up to `rest`; it has as
many bytes as R102 counts, and no operand of 16-bit addressing (R96). -/
structure ReadFrom (m : Mode) (ps : List LegacyPrefix) (rex : Option Rex) (head : Nat) (bs : List Byte) (i : Instr)
    (rest : List Byte) : Prop where
  length : ps.length + rexLen rex + head + bs.length = i.len + rest.length
  not16 : ¬(m = .m32 ∧ (formOf i).rm.isMem = true ∧ (formOf i).ps.contains .addrSize = true)

theorem ReadFrom.cons {m : Mode} {ps : List LegacyPrefix} {rex : Option Rex} {head : Nat} {bs : List Byte}
    {i : Instr} {rest : List Byte} (b : Byte) (h : ReadFrom m ps rex (head + 1) bs i rest) :
    ReadFrom m ps rex head (b :: bs) i rest := by
  refine ⟨?_, h.not16⟩
  have := h.length
  simp only [List.length_cons]
  omega

/-- The parts of an instruction that its length and its addressing depend on. -/
def HasParts (i : Instr) (ps : List LegacyPrefix) (rex : Option Rex) (head : Nat) (rm : RegMem) : Prop :=
  (formOf i).ps = ps ∧ (formOf i).rm = rm ∧ i.len = lenOf head ps rex rm

section
variable (st : Bool) (ps : List LegacyPrefix) (rex : Option Rex) (reg : BitVec 3) (rm : RegMem)

theorem legacyInstr_parts : HasParts (legacyInstr st ps rex reg rm) ps rex 2 rm := by
  cases st <;> exact ⟨rfl, rfl, rfl⟩

theorem vex2Instr_parts (l : Bool) (v : Vex2) : HasParts (vex2Instr l st ps rex v reg rm) ps rex 3 rm := by
  cases l <;> cases st <;> exact ⟨rfl, rfl, rfl⟩

theorem vex3Instr_parts (l : Bool) (v : Vex3) : HasParts (vex3Instr l st ps rex v reg rm) ps rex 4 rm := by
  cases l <;> cases st <;> exact ⟨rfl, rfl, rfl⟩

/-- The rows that `evexInstr` chooses from share one form but for the vector length. -/
theorem evexInstr_form (ll : BitVec 2) (e : Evex) :
    ∃ vl, formOf (evexInstr ll st ps rex e reg rm) = evexForm vl ps rex e reg rm := by
  unfold evexInstr
  split_ifs <;> exact ⟨_, rfl⟩

theorem evexInstr_parts (ll : BitVec 2) (e : Evex) : HasParts (evexInstr ll st ps rex e reg rm) ps rex 5 rm := by
  obtain ⟨vl, hform⟩ := evexInstr_form st ps rex reg rm ll e
  rw [HasParts, ← formOf_len, hform]
  exact ⟨rfl, rfl, rfl⟩

end

/-- What every shape reads after its own bytes: the opcode byte and the operands. -/
def readOperands (m : Mode) (ps : List LegacyPrefix) (mk : Bool → BitVec 3 → RegMem → Instr) (bs : List Byte) :
    Except DecodeRefusal (Instr × List Byte) := do
  let (st, bs) ← readOpcode bs
  let (reg, rm, bs) ← readRegMem m ps bs
  .ok (mk st reg rm, bs)

section
variable {m : Mode} {ps : List LegacyPrefix} {rex : Option Rex} {bs : List Byte} {i : Instr} {rest : List Byte}

theorem readOperands_ok {head : Nat} {mk : Bool → BitVec 3 → RegMem → Instr}
    (hmk : ∀ st reg rm, HasParts (mk st reg rm) ps rex (head + 1) rm)
    (h : readOperands m ps mk bs = .ok (i, rest)) : ReadFrom m ps rex head bs i rest := by
  obtain ⟨⟨st, bs'⟩, hst, h⟩ := (except_bind_ok_iff _ _ _).1 h
  obtain ⟨⟨reg, rm, bs''⟩, hrm, h⟩ := (except_bind_ok_iff _ _ _).1 h
  cases h
  obtain ⟨hps, hop, hlen⟩ := hmk st reg rm
  obtain ⟨hbytes, h16⟩ := readRegMem_ok m ps bs' _ reg rm hrm
  have hopcode := readOpcode_length bs bs' st hst
  refine ⟨?_, by rwa [hps, hop]⟩
  simp only [hlen, lenOf, rexLen]
  omega

theorem decodeLegacy_ok (h : decodeLegacy m ps rex bs = .ok (i, rest)) : ReadFrom m ps rex 1 bs i rest := by
  obtain ⟨_, h⟩ := (guard_ok_iff _ _ _ _).1 h
  exact readOperands_ok (fun st reg rm => legacyInstr_parts st ps rex reg rm) h

theorem decodeVex2_ok (h : decodeVex2 m ps rex bs = .ok (i, rest)) : ReadFrom m ps rex 1 bs i rest := by
  cases bs with
  | nil => cases h
  | cons b bs =>
    obtain ⟨_, h⟩ := (guard_ok_iff _ _ _ _).1 h
    obtain ⟨_, h⟩ := (guard_ok_iff _ _ _ _).1 h
    exact (readOperands_ok (fun st reg rm => vex2Instr_parts st ps rex reg rm _ _) h).cons b

theorem decodeVex3_ok (h : decodeVex3 m ps rex bs = .ok (i, rest)) : ReadFrom m ps rex 1 bs i rest := by
  cases bs with
  | nil => cases h
  | cons b bs =>
    obtain ⟨_, h⟩ := (guard_ok_iff _ _ _ _).1 h
    obtain ⟨_, h⟩ := (guard_ok_iff _ _ _ _).1 h
    cases bs with
    | nil => cases h
    | cons c bs =>
      obtain ⟨_, h⟩ := (guard_ok_iff _ _ _ _).1 h
      exact ((readOperands_ok (fun st reg rm => vex3Instr_parts st ps rex reg rm _ _) h).cons c).cons b

theorem decodeEvex_ok (h : decodeEvex m ps rex bs = .ok (i, rest)) : ReadFrom m ps rex 1 bs i rest := by
  cases bs with
  | nil => cases h
  | cons p0 bs =>
    obtain ⟨_, h⟩ := (guard_ok_iff _ _ _ _).1 h
    obtain ⟨_, h⟩ := (guard_ok_iff _ _ _ _).1 h
    cases bs with
    | nil => cases h
    | cons p1 bs =>
      obtain ⟨_, h⟩ := (guard_ok_iff _ _ _ _).1 h
      cases bs with
      | nil => cases h
      | cons p2 bs =>
        exact (((readOperands_ok (fun st reg rm => evexInstr_parts st ps rex reg rm _ _) h).cons p2).cons p1).cons p0

theorem decodeShape_ok (h : decodeShape m ps rex bs = .ok (i, rest)) : ReadFrom m ps rex 0 bs i rest := by
  cases bs with
  | nil => cases h
  | cons b bs =>
    refine ReadFrom.cons b ?_
    rw [decodeShape] at h
    split at h
    · exact decodeLegacy_ok h
    · split at h
      · exact decodeVex2_ok h
      · split at h
        · exact decodeVex3_ok h
        · split at h
          · exact decodeEvex_ok h
          · cases h

/-- What the decoder accepts has as many bytes as R102 counts, and no operand of 16-bit addressing (R96). -/
theorem decode_ok (h : decode m bs = .ok (i, rest)) :
    bs.length = i.len + rest.length ∧
      ¬(m = .m32 ∧ (formOf i).rm.isMem = true ∧ (formOf i).ps.contains .addrSize = true) := by
  obtain ⟨_, h⟩ := (guard_ok_iff _ _ _ _).1 h
  have hshape : ReadFrom m (readPrefixes bs).1 (readRex m (readPrefixes bs).2).1 0 (readRex m (readPrefixes bs).2).2 i
      rest := decodeShape_ok h
  have hps := readPrefixes_length bs
  have hrex := readRex_length m (readPrefixes bs).2
  have hlen := hshape.length
  exact ⟨by omega, hshape.not16⟩

end

/-! ## The length rule (R102) -/

theorem three_le_lenOf (head : Nat) (ps : List LegacyPrefix) (rex : Option Rex) (rm : RegMem) (h : 2 ≤ head) :
    3 ≤ lenOf head ps rex rm := by
  have hrm : 1 ≤ rm.len := by
    cases rm with
    | reg _ => exact Nat.le_refl 1
    | mem mf => cases mf <;> simp only [RegMem.len] <;> omega
  unfold lenOf
  omega

theorem three_le_len (i : Instr) : 3 ≤ i.len := by
  cases i <;> exact three_le_lenOf _ _ _ _ (by decide)

/-! ## The stops of decoding (R112, R220) -/

section
variable {f : Form} {st : Bool} {i : Instr} {m : Mode} {s : State}

/-- R80, R220 (2): a length above 15 comes before the #UD causes. -/
theorem decodeChecks_of_long (h16 : ¬(m = .m32 ∧ f.rm.isMem = true ∧ f.ps.contains .addrSize = true))
    (hlen : 15 < f.len) : decodeChecks f st m = .error (.fault .generalProtection) := by
  rw [decodeChecks, if_neg h16, if_pos hlen, raise]

theorem decodeChecks_of_ud (h16 : ¬(m = .m32 ∧ f.rm.isMem = true ∧ f.ps.contains .addrSize = true))
    (hlen : f.len ≤ 15) (hud : f.decodeUd st = true) : decodeChecks f st m = .error (.fault .invalidOpcode) := by
  rw [decodeChecks, if_neg h16, if_neg (Nat.not_lt.2 hlen), if_pos hud, raise]

/-- R90 (d): the reserved length has #UD without another cause, after the length check. -/
theorem reservedLength_eq (hm : launchMode s = .ok m)
    (h16 : ¬(m = .m32 ∧ f.rm.isMem = true ∧ f.ps.contains .addrSize = true)) :
    reservedLength f s = .error (.fault (if 15 < f.len then .generalProtection else .invalidOpcode)) := by
  simp only [reservedLength, hm, ok_bind, if_neg h16, raise]
  split <;> rfl

theorem frontChecks_of_decodeChecks {e : Stop} (hm : launchMode s = .ok m) (h : decodeChecks f st m = .error e) :
    frontChecks f st s = .error e := by
  simp only [frontChecks, hm, ok_bind, h, error_bind]

/-- A fault of the checks at decode is the outcome of the instruction, in every state of the mode. -/
theorem exec_of_decodeChecks {fault : Fault} (hm : launchMode s = .ok m)
    (h : decodeChecks (formOf i) (isStore i) m = .error (.fault fault))
    (hreserved : reservedLength (formOf i) s = .error (.fault fault)) : exec i s = .fault fault := by
  rw [exec_eq, outcome_fault_iff, runForm]
  have hfront := frontChecks_of_decodeChecks hm h
  rw [isStore] at hfront
  cases hd : directionOf i with
  | load =>
    rw [hd] at hfront
    exact congrArg (· >>= _) hfront
  | store =>
    rw [hd] at hfront
    exact congrArg (· >>= _) hfront
  | neither => exact hreserved

/-- R102: an instruction with more than 15 bytes. -/
theorem exec_of_long (hm : launchMode s = .ok m)
    (h16 : ¬(m = .m32 ∧ (formOf i).rm.isMem = true ∧ (formOf i).ps.contains .addrSize = true))
    (hlen : 15 < i.len) : exec i s = .fault .generalProtection := by
  rw [← formOf_len] at hlen
  refine exec_of_decodeChecks hm (decodeChecks_of_long h16 hlen) ?_
  rw [reservedLength_eq hm h16, if_pos hlen]

/-- R112 steps 5 and 6: an instruction of at most 15 bytes with a #UD cause. -/
theorem exec_of_decodeUd (hm : launchMode s = .ok m) (hw : i.wf m = true) (hlen : i.len ≤ 15)
    (hud : (formOf i).decodeUd (isStore i) = true) : exec i s = .fault .invalidOpcode := by
  rw [← formOf_len] at hlen
  have h16 := wf_addressing16 m i hw
  refine exec_of_decodeChecks hm (decodeChecks_of_ud h16 hlen hud) ?_
  rw [reservedLength_eq hm h16, if_neg (Nat.not_lt.2 hlen)]

end

/-- Settles O3: by what each reader of the decoder consumes, and the length check of decoding. -/
theorem lengthRule : Obligations.LengthRule := by
  refine ⟨fun m bs i rest h => ?_, by decide, by decide⟩
  obtain ⟨hlen, h16⟩ := decode_ok h
  exact ⟨hlen, three_le_len i, fun hlong s hm => exec_of_long hm h16 hlong⟩

/-! ## The field vvvv (R87) -/

/-- Bits 6:3 of a byte put together as the last byte of VEX and byte 2 of EVEX are. -/
theorem extractLsb'_vvvv (top : BitVec 1) (vvvv : BitVec 4) (bit : BitVec 1) (pp : BitVec 2) :
    (top ++ vvvv ++ bit ++ pp).extractLsb' 3 4 = vvvv := by
  revert top vvvv bit pp
  decide

theorem vex2_vvvv_stored (l : Bool) (v : Vex2) :
    ((v.bytes l).getLast?.map fun b => b.extractLsb' 3 4) = some v.vvvv :=
  congrArg some (extractLsb'_vvvv _ _ _ _)

theorem vex3_vvvv_stored (l : Bool) (v : Vex3) :
    ((v.bytes l).getLast?.map fun b => b.extractLsb' 3 4) = some v.vvvv :=
  congrArg some (extractLsb'_vvvv _ _ _ _)

theorem evex_vvvv_stored (ll : BitVec 2) (e : Evex) :
    ((e.bytes ll)[2]?.map fun b => b.extractLsb' 3 4) = some e.vvvv :=
  congrArg some (extractLsb'_vvvv _ _ _ _)

theorem vex2Instr_vvvv (l st : Bool) (ps : List LegacyPrefix) (rex : Option Rex) (v : Vex2) (reg : BitVec 3)
    (rm : RegMem) : (formOf (vex2Instr l st ps rex v reg rm)).vvvv = v.vvvv := by
  cases l <;> cases st <;> rfl

theorem vex3Instr_vvvv (l st : Bool) (ps : List LegacyPrefix) (rex : Option Rex) (v : Vex3) (reg : BitVec 3)
    (rm : RegMem) : (formOf (vex3Instr l st ps rex v reg rm)).vvvv = v.vvvv := by
  cases l <;> cases st <;> rfl

theorem evexInstr_vvvv (ll : BitVec 2) (st : Bool) (ps : List LegacyPrefix) (rex : Option Rex) (e : Evex)
    (reg : BitVec 3) (rm : RegMem) : (formOf (evexInstr ll st ps rex e reg rm)).vvvv = e.vvvv := by
  obtain ⟨vl, hform⟩ := evexInstr_form st ps rex reg rm ll e
  rw [hform]
  rfl

theorem decodeUd_of_vvvv (f : Form) (st : Bool) (h : f.vvvv ≠ 0xF#4) : f.decodeUd st = true := by
  simp [Form.decodeUd, h]

/-- Settles O36: a field `vvvv` other than 1111 is a #UD cause of the form, of a reserved-length row too. -/
theorem vvvvMustBeOnes : Obligations.VvvvMustBeOnes := by
  refine ⟨vex2_vvvv_stored, vex3_vvvv_stored, evex_vvvv_stored, ?_⟩
  intro m s ps rex reg rm i hm hw hlen hcase
  have hvvvv : (formOf i).vvvv ≠ 0xF#4 := by
    rcases hcase with ⟨l, st, v, rfl, hv⟩ | ⟨l, st, v, rfl, hv⟩ | ⟨ll, st, e, rfl, hv⟩
    · rwa [vex2Instr_vvvv]
    · rwa [vex3Instr_vvvv]
    · rwa [evexInstr_vvvv]
  exact exec_of_decodeUd hm hw hlen (decodeUd_of_vvvv _ _ hvvvv)

end Sys2Proof.Proofs
end

section
/-! PROOFS for 60_exceptions.md: the task-switch check (R213), and the alignment check (R217). -/

namespace Sys2Proof.Proofs

open Sys2Proof.Machine Sys2Proof.Safety

/-! ## Which faults there are

Each stage of R140 against the faults of R210: which it reports, and when. -/

theorem bind_error_iff {α β : Type} (x : Except Stop α) (f : α → Except Stop β) (e : Stop) :
    (x >>= f) = .error e ↔ x = .error e ∨ ∃ a, x = .ok a ∧ f a = .error e := by
  cases x <;> simp

theorem launchMode_ne_fault (s : State) (flt : Fault) : launchMode s ≠ .error (.fault flt) := by
  unfold launchMode
  split
  · simp [refuse]
  · split_ifs <;> simp [refuse]

theorem nextPc_ne_fault (m : Mode) (s : State) (len : Nat) (flt : Fault) : nextPc m s len ≠ .error (.fault flt) := by
  unfold nextPc
  split_ifs <;> simp [refuse]

theorem finish_ne_fault (m : Mode) (f : Form) (s : State) (flt : Fault) : finish m f s ≠ .error (.fault flt) := by
  unfold finish
  split
  next hpc =>
    rintro ⟨⟩
    exact nextPc_ne_fault m s f.len flt hpc
  next => exact nofun

/-- A fault that no operand has a part in: #UD, #NM, or #GP(0) for the length (R212, R213, R220 (2)). -/
def FrontFault (f : Form) (flt : Fault) : Prop :=
  flt = .invalidOpcode ∨ flt = .deviceNotAvailable ∨ (flt = .generalProtection ∧ 15 < f.len)

/-- A fault that the address of a memory operand has at stage 4, or one of its bytes in translation. -/
def OperandFault (f : Form) (s : State) (flt : Fault) : Prop :=
  ∃ m mf, launchMode s = .ok m ∧ f.rm = .mem mf ∧
    (memAddress f m s mf = .error (.fault flt) ∨ ∃ kd a, translateByte m s kd a = .error (.fault flt))

section
variable {f : Form} {st : Bool} {m : Mode} {s : State} {flt : Fault}

theorem decodeChecks_fault (h : decodeChecks f st m = .error (.fault flt)) : FrontFault f flt := by
  unfold decodeChecks at h
  split_ifs at h with _ hlen
  · cases h
  · cases h
    exact .inr (.inr ⟨rfl, hlen⟩)
  · cases h
    exact .inl rfl
  · cases h

theorem enableChecks_fault (h : enableChecks f s = .error (.fault flt)) : FrontFault f flt := by
  unfold enableChecks at h
  split_ifs at h
  cases h
  exact .inl rfl

theorem taskSwitchCheck_fault (h : taskSwitchCheck s = .error (.fault flt)) : FrontFault f flt := by
  unfold taskSwitchCheck at h
  split_ifs at h
  cases h
  exact .inr (.inl rfl)

theorem frontChecks_fault (h : frontChecks f st s = .error (.fault flt)) : FrontFault f flt := by
  simp only [frontChecks, bind_error_iff] at h
  rcases h with h | ⟨m, -, h | ⟨-, -, h | ⟨-, -, h | ⟨-, -, h⟩⟩⟩⟩
  · exact absurd h (launchMode_ne_fault s flt)
  · exact decodeChecks_fault h
  · exact enableChecks_fault h
  · exact taskSwitchCheck_fault h
  · cases h

theorem reservedLength_fault (h : reservedLength f s = .error (.fault flt)) : FrontFault f flt := by
  simp only [reservedLength, bind_error_iff] at h
  rcases h with h | ⟨m, -, h⟩
  · exact absurd h (launchMode_ne_fault s flt)
  · split_ifs at h with _ hlen
    · cases h
    · cases h
      exact .inr (.inr ⟨rfl, hlen⟩)
    · cases h
      exact .inl rfl

/-- R61, R216: translation reports page faults only. -/
theorem translateByte_fault {kd : AccessKind} {a : Nat} (h : translateByte m s kd a = .error (.fault flt)) :
    ∃ code, flt = .pageFault code (BitVec.ofNat 64 a) := by
  unfold translateByte at h
  split at h
  · cases h
  · unfold XlateRule.answer at h
    split at h
    · cases h
    · cases h
      exact ⟨_, rfl⟩
    · cases h

/-- What stops the translation of several bytes stops that of one of them. -/
theorem translateAll_error_byte {kd : AccessKind} {e : Stop} {las : List Nat}
    (h : translateAll m s kd las = .error e) : ∃ a, translateByte m s kd a = .error e := by
  induction las with
  | nil => cases h
  | cons la las ih =>
    rw [translateAll] at h
    split at h
    next hla =>
      cases h
      exact ⟨la, hla⟩
    next =>
      split at h
      next hlas =>
        cases h
        exact ih hlas
      next => cases h

theorem readElem_error_byte {la j : Nat} {e : Stop} (h : readElem m s la j = .error e) :
    ∃ a, translateByte m s .read a = .error e := by
  unfold readElem at h
  split at h
  next hps =>
    cases h
    exact translateAll_error_byte hps
  next => cases h

theorem readElems_error_byte {la : Nat} {mask : Option KMask} {js : List Nat} {e : Stop}
    (h : readElems m s la mask js = .error e) : ∃ a, translateByte m s .read a = .error e := by
  induction js with
  | nil => cases h
  | cons j js ih =>
    rw [readElems] at h
    split at h
    · split at h
      next he =>
        cases h
        exact readElem_error_byte he
      next =>
        split at h
        next hes =>
          cases h
          exact ih hes
        next => cases h
    · split at h
      next hes =>
        cases h
        exact ih hes
      next => cases h

theorem storeCells_fault {la : Nat} {mask : Option KMask} {js : List Nat} {src : Vec}
    (h : storeCells m s la mask js src = .error (.fault flt)) :
    ∃ a, translateByte m s .write a = .error (.fault flt) := by
  unfold storeCells at h
  split at h
  · cases h
  · split at h
    next hps =>
      cases h
      exact translateAll_error_byte hps
    next => cases h

theorem loadOrCopy_fault (h : loadOrCopy f s = .error (.fault flt)) : FrontFault f flt ∨ OperandFault f s flt := by
  simp only [loadOrCopy, bind_error_iff] at h
  rcases h with h | ⟨m, hm, h⟩
  · exact .inl (frontChecks_fault h)
  · obtain ⟨hm, -⟩ := (frontChecks_ok f false s m).1 hm
    cases hrm : f.rm with
    | reg rm =>
      rw [hrm] at h
      exact absurd h (finish_ne_fault _ _ _ _)
    | mem mf =>
      rw [hrm] at h
      simp only [bind_error_iff] at h
      refine .inr ⟨m, mf, hm, hrm, ?_⟩
      rcases h with h | ⟨la, -, h | ⟨es, -, h⟩⟩
      · exact .inl h
      · exact .inr ⟨.read, readElems_error_byte h⟩
      · exact absurd h (finish_ne_fault _ _ _ _)

theorem storeOrCopy_fault (h : storeOrCopy f s = .error (.fault flt)) : FrontFault f flt ∨ OperandFault f s flt := by
  simp only [storeOrCopy, bind_error_iff] at h
  rcases h with h | ⟨m, hm, h⟩
  · exact .inl (frontChecks_fault h)
  · obtain ⟨hm, -⟩ := (frontChecks_ok f true s m).1 hm
    cases hrm : f.rm with
    | reg rm =>
      rw [hrm] at h
      exact absurd h (finish_ne_fault _ _ _ _)
    | mem mf =>
      rw [hrm] at h
      simp only [bind_error_iff] at h
      refine .inr ⟨m, mf, hm, hrm, ?_⟩
      rcases h with h | ⟨la, -, h | ⟨cells, -, h⟩⟩
      · exact .inl h
      · exact .inr ⟨.write, storeCells_fault h⟩
      · exact absurd h (finish_ne_fault _ _ _ _)

/-- Every fault of an instruction comes from the checks before its operand or from its memory operand. -/
theorem exec_fault_cases {i : Instr} (h : exec i s = .fault flt) :
    FrontFault (formOf i) flt ∨ OperandFault (formOf i) s flt := by
  rw [exec_eq, outcome_fault_iff, runForm] at h
  cases hd : directionOf i with
  | load =>
    rw [hd] at h
    exact loadOrCopy_fault h
  | store =>
    rw [hd] at h
    exact storeOrCopy_fault h
  | neither =>
    rw [hd] at h
    exact .inl (reservedLength_fault h)

end

/-! ## The checks before the operand (R212, R213) -/

section
variable {i : Instr} {m : Mode} {s : State} {flt : Fault}

/-- An admitted encoding passes stage 1: what stages 1 to 3 answer, the enable and task-switch checks decide. -/
theorem frontChecks_of_admitted (ha : Admitted i m s) :
    frontChecks (formOf i) (isStore i) s =
      (do enableChecks (formOf i) s; taskSwitchCheck s; .ok m : Except Stop Mode) := by
  obtain ⟨hm, hw, hl, hlen⟩ := ha
  simp only [frontChecks, hm, ok_bind, decodeChecks_of_legal m i hw hl hlen]

/-- R220 (3): a form that is not enabled stops with #UD, whatever CR0.TS. -/
theorem frontChecks_of_not_usable (ha : Admitted i m s) (hu : ¬ Usable (formOf i) s) :
    frontChecks (formOf i) (isStore i) s = .error (.fault .invalidOpcode) := by
  rw [usable_iff] at hu
  rw [frontChecks_of_admitted ha, enableChecks, if_neg hu, raise, error_bind]

theorem frontChecks_of_ts (ha : Admitted i m s) (hu : Usable (formOf i) s) (hts : s.ts = true) :
    frontChecks (formOf i) (isStore i) s = .error (.fault .deviceNotAvailable) := by
  rw [usable_iff] at hu
  rw [frontChecks_of_admitted ha, enableChecks, if_pos hu, ok_bind, taskSwitchCheck, if_pos hts, raise, error_bind]

/-- A fault of stages 1 to 3 is the outcome of a legal form, whatever its operand. -/
theorem exec_of_frontChecks_fault (hl : Legal m i)
    (h : frontChecks (formOf i) (isStore i) s = .error (.fault flt)) : exec i s = .fault flt := by
  rw [exec_eq, outcome_fault_iff]
  rcases runForm_of_legal m i s hl with ⟨-, hst, hrun⟩ | ⟨-, hst, hrun⟩
  · rw [hst] at h
    rw [hrun, loadOrCopy, h, error_bind]
  · rw [hst] at h
    rw [hrun, storeOrCopy, h, error_bind]

end

/-- Settles O40: the enable check comes before the check of CR0.TS, and both before the operand. -/
theorem taskSwitchedRaisesNm : Obligations.TaskSwitchedRaisesNm := by
  refine ⟨fun i m s ha hts => ?_, rfl⟩
  have hl : Legal m i := ha.2.2.1
  exact ⟨fun hu => exec_of_frontChecks_fault hl (frontChecks_of_ts ha hu hts),
    fun hu => exec_of_frontChecks_fault hl (frontChecks_of_not_usable ha hu)⟩

/-! ## The alignment check (R54, R217) -/

/-- Stage 4 reports #AC exactly where the range checks pass, it is possible, and it is drawn. -/
theorem memAddress_alignmentCheck_iff (f : Form) (m : Mode) (s : State) (mf : MemForm) :
    memAddress f m s mf = .error (.fault .alignmentCheck) ↔
      Fits f m s mf ∧ CanonicalOperand f m s mf ∧ AcPossible f m s mf ∧ Config.acDraw s.draws = true := by
  rw [fits_iff, canonicalOperand_iff, acPossible_iff, memAddress]
  split_ifs with hwraps hcanon hss hac
  · simp [refuse, hwraps]
  · simp [raise, hcanon]
  · simp [raise, hcanon]
  · simpa [raise, hwraps, hcanon] using hac
  · simpa [hwraps, hcanon] using hac

section
variable {i : Instr} {m : Mode} {s : State} {mf : MemForm}

/-- A fault of stage 4 is the outcome of a form that passes stages 1 to 3. -/
theorem exec_of_memAddress_fault {flt : Fault} (hr : Ready i m s) (hrm : (formOf i).rm = .mem mf)
    (h : memAddress (formOf i) m s mf = .error (.fault flt)) : exec i s = .fault flt := by
  obtain ⟨ha, hu, hts, -⟩ := hr
  have hfront := frontChecks_of_usable i m s ha hu hts
  rw [exec_eq, outcome_fault_iff]
  rcases runForm_of_legal m i s ha.2.2.1 with ⟨-, hst, hrun⟩ | ⟨-, hst, hrun⟩
  · rw [hst] at hfront
    simp only [hrun, loadOrCopy, hfront, ok_bind, hrm, h, error_bind]
  · rw [hst] at hfront
    simp only [hrun, storeOrCopy, hfront, ok_bind, hrm, h, error_bind]

/-- A ready form with an addressable operand that can be read or written as it asks completes. -/
theorem exec_completes_of_operandReady (hr : Ready i m s) (hrm : (formOf i).rm = .mem mf) (hop : OperandReady i m s) :
    ∃ t, exec i s = .next t := by
  obtain ⟨ha, hu, hts, hnext⟩ := hr
  obtain ⟨haddr, hread, hwrite⟩ := hop mf hrm
  have hfront := frontChecks_of_usable i m s ha hu hts
  have hla := memAddress_of_addressable _ m s mf haddr
  rw [← formOf_len] at hnext
  obtain ⟨pc, hpc⟩ := nextPc_of_fits m s _ hnext
  simp only [exec_next_iff]
  rcases runForm_of_legal m i s ha.2.2.1 with ⟨hd, hst, hrun⟩ | ⟨hd, hst, hrun⟩
  · rw [hst] at hfront
    obtain ⟨es, hes⟩ := readElems_of_readable _ m s _ _ (hread hd)
    exact ⟨_, hrun.trans (loadOrCopy_mem _ m s mf pc _ es hrm hfront hla hes hpc)⟩
  · rw [hst] at hfront
    obtain ⟨cells, hcells⟩ := storeCells_of_writable _ m s _ _ _ (hwrite hd)
    exact ⟨_, hrun.trans (storeOrCopy_mem _ m s mf pc _ cells hrm hfront hla hcells hpc)⟩

/-- No stage but stage 4 reports #AC. -/
theorem memAddress_of_exec_alignmentCheck (h : exec i s = .fault .alignmentCheck) :
    ∃ m mf, launchMode s = .ok m ∧ (formOf i).rm = .mem mf ∧
      memAddress (formOf i) m s mf = .error (.fault .alignmentCheck) := by
  rcases exec_fault_cases h with hfront | ⟨m, mf, hm, hrm, hla | ⟨kd, a, hbyte⟩⟩
  · rcases hfront with h | h | ⟨h, -⟩ <;> cases h
  · exact ⟨m, mf, hm, hrm, hla⟩
  · obtain ⟨code, h⟩ := translateByte_fault hbyte
    cases h

end

/-- Settles O43: by the draw, and for the conditions of #AC by the one stage that reports it. -/
theorem alignmentCheckIsADraw : Obligations.AlignmentCheckIsADraw := by
  refine ⟨fun i m s mf hr hrm hfits hcanon hac hread hwrite => ?_, fun i s h => ?_, rfl⟩
  · split_ifs with hdraw
    · exact exec_of_memAddress_fault hr hrm
        ((memAddress_alignmentCheck_iff _ m s mf).2 ⟨hfits, hcanon, hac, hdraw⟩)
    · have haddr : Addressable (formOf i) m s mf := ⟨hfits, hcanon, fun _ => by simpa using hdraw⟩
      refine exec_completes_of_operandReady hr hrm fun mf' hrm' => ?_
      obtain rfl : mf = mf' := RegMem.mem.inj (hrm.symm.trans hrm')
      exact ⟨haddr, hread, hwrite⟩
  · obtain ⟨m, mf, hm, hrm, hla⟩ := memAddress_of_exec_alignmentCheck h
    obtain ⟨-, -, hac, -⟩ := (memAddress_alignmentCheck_iff _ m s mf).1 hla
    exact ⟨m, mf, hm, hrm, hac⟩

end Sys2Proof.Proofs
end

section
/-! PROOFS for 30_encoding.md: the round trip of the decoder and the encoder (R80 to R112). -/

namespace Sys2Proof.Proofs

open Sys2Proof.Machine Sys2Proof.Safety Sys2Proof.Laws

/-! ## The bytes before the shape -/

/-- The bytes `0F`, `C5`, `C4` and `62`, each of which begins a shape (R112 step 2). -/
def isEscape (b : Byte) : Bool := b == 0x0F#8 || b == 0xC5#8 || b == 0xC4#8 || b == 0x62#8

theorem escape_not_prefix (b : Byte) (h : isEscape b = true) :
    LegacyPrefix.ofByte? b = none ∧ Rex.ofByte? b = none := by
  revert b
  decide

/-- After legacy prefixes without a conflict, a byte that is none of them goes to the REX byte and the shape. -/
theorem decode_prefixes (m : Mode) (ps : List LegacyPrefix) (b : Byte) (bs : List Byte)
    (hps : prefixesOk ps = true) (hb : LegacyPrefix.ofByte? b = none) :
    decode m (ps.map LegacyPrefix.toByte ++ b :: bs)
      = decodeShape m ps (readRex m (b :: bs)).1 (readRex m (b :: bs)).2 := by
  have hread : readPrefixes (ps.map LegacyPrefix.toByte ++ b :: bs) = (ps, b :: bs) :=
    readPrefixes_encode ps (b :: bs) (by simpa using hb)
  simp [decode, hread, hps]

theorem readRex_of_not_rex (m : Mode) (b : Byte) (bs : List Byte) (h : Rex.ofByte? b = none) :
    readRex m (b :: bs) = (none, b :: bs) := by
  cases m <;> simp [readRex, h]

theorem readRex_m32 (bs : List Byte) : readRex .m32 bs = (none, bs) := by
  cases bs <;> simp [readRex]

/-- R112 steps 1 and 2: after an opening the shape is read from its first byte on. -/
theorem decode_opening {m : Mode} {ps : List LegacyPrefix} {rex : Option Rex} {pre : List Byte}
    (h : Opening m ps rex pre) (b : Byte) (bs : List Byte) (hb : isEscape b = true) :
    decode m (pre ++ b :: bs) = decodeShape m ps rex (b :: bs) := by
  obtain ⟨hps, hrex, rfl⟩ := h
  obtain ⟨hprefix, hnorex⟩ := escape_not_prefix b hb
  cases rex with
  | none => simp [decode_prefixes m ps b bs hps hprefix, readRex_of_not_rex m b bs hnorex]
  | some x =>
    cases m with
    | m32 => cases hrex rfl
    | m64 => simp [decode_prefixes .m64 ps x.toByte (b :: bs) hps (ofByte_rex_none x), readRex]

theorem opening_of_operandsWf {m : Mode} {ps : List LegacyPrefix} {rex : Option Rex} {rm : RegMem}
    (h : operandsWf m ps rex rm = true) :
    Opening m ps rex (ps.map LegacyPrefix.toByte ++ (rex.map Rex.toByte).toList) := by
  refine ⟨operandsWf_prefixes m ps rex rm h, ?_, rfl⟩
  rintro rfl
  exact operandsWf_rex ps rex rm h

theorem operandsWf_iff (m : Mode) (ps : List LegacyPrefix) (rex : Option Rex) (rm : RegMem) :
    operandsWf m ps rex rm = true ↔ prefixesOk ps = true ∧ rm.wf = true ∧ (m = .m32 → rex = none) ∧
      ¬(m = .m32 ∧ rm.isMem = true ∧ ps.contains .addrSize = true) := by
  cases m with
  | m64 => simp [operandsWf]
  | m32 => simp [operandsWf, and_assoc, imp_iff_or_not]

/-! ## The operands: what the encoder writes is read back -/

theorem disp_mod_ne_three (d : Disp) : d.mod ≠ 3#2 := by
  cases d <;> simp [Disp.mod]

theorem disp_mod_eq_zero (d : Disp) : d.mod = 0#2 ↔ d = .none := by
  cases d <;> simp [Disp.mod]

/-- R94: ModRM of a memory operand goes on to the operand's own bytes. -/
theorem readRegMem_mem {m : Mode} {ps : List LegacyPrefix} (md : BitVec 2) (reg rm : BitVec 3) (bs : List Byte)
    (hmd : md ≠ 3#2) (h16 : ¬(m = .m32 ∧ ps.contains .addrSize = true)) :
    readRegMem m ps (byte233 md reg rm :: bs)
      = (do let (f, bs) ← readMem md rm bs; .ok (reg, .mem f, bs)) := by
  obtain ⟨h6, h3, h0⟩ := field_byte233 md reg rm
  simp only [readRegMem, h6, h3, h0, if_neg hmd, if_neg h16]

theorem readMem_encode (mf : MemForm) (hw : mf.wf = true) (reg : BitVec 3) (rest : List Byte) :
    ∃ md rm bs, (RegMem.mem mf).encode reg = byte233 md reg rm :: bs ∧ md ≠ 3#2 ∧
      readMem md rm (bs ++ rest) = .ok (mf, rest) := by
  cases mf with
  | base rm d =>
    simp [MemForm.wf] at hw
    refine ⟨d.mod, rm, d.encode, rfl, disp_mod_ne_three d, ?_⟩
    have hdisp : ¬(d.mod = 0#2 ∧ rm = 5#3) := by
      rw [disp_mod_eq_zero]
      tauto
    simp [readMem, hw.1, hdisp, readDisp_encode, bind, Except.bind]
  | sib scale index base d =>
    simp [MemForm.wf] at hw
    refine ⟨d.mod, 4#3, byte233 scale index base :: d.encode, rfl, disp_mod_ne_three d, ?_⟩
    obtain ⟨h6, h3, h0⟩ := field_byte233 scale index base
    have hbase : ¬(d.mod = 0#2 ∧ base = 5#3) := by
      rw [disp_mod_eq_zero]
      tauto
    simp [readMem, readSib, h6, h3, h0, hbase, readDisp_encode, bind, Except.bind]
  | sibNoBase scale index d =>
    refine ⟨0#2, 4#3, byte233 scale index 5#3 :: le32 d, rfl, by decide, ?_⟩
    obtain ⟨h6, h3, h0⟩ := field_byte233 scale index 5#3
    simp [readMem, readSib, h6, h3, h0, readLe32_le32, bind, Except.bind]
  | dispOnly d =>
    refine ⟨0#2, 5#3, le32 d, rfl, by decide, ?_⟩
    simp [readMem, readLe32_le32, bind, Except.bind]

theorem readRegMem_encode (m : Mode) (ps : List LegacyPrefix) (reg : BitVec 3) (rm : RegMem) (rest : List Byte)
    (hw : rm.wf = true) (h16 : ¬(m = .m32 ∧ rm.isMem = true ∧ ps.contains .addrSize = true)) :
    readRegMem m ps (rm.encode reg ++ rest) = .ok (reg, rm, rest) := by
  cases rm with
  | reg n =>
    obtain ⟨h6, h3, h0⟩ := field_byte233 3#2 reg n
    simp [RegMem.encode, readRegMem, h6, h3, h0]
  | mem mf =>
    obtain ⟨md, rm, bs, henc, hmd, hread⟩ := readMem_encode mf hw reg rest
    rw [henc, List.cons_append, readRegMem_mem md reg rm _ hmd (by simpa [RegMem.isMem] using h16), hread]
    rfl

/-- What stands after the bytes of a shape: the opcode byte and the operands. -/
def operandBytes (st : Bool) (reg : BitVec 3) (rm : RegMem) : List Byte := opcodeByte st :: rm.encode reg

theorem readOperands_encode {m : Mode} {ps : List LegacyPrefix} {rex : Option Rex} {rm : RegMem}
    (hw : operandsWf m ps rex rm = true) (mk : Bool → BitVec 3 → RegMem → Instr) (st : Bool) (reg : BitVec 3)
    (rest : List Byte) :
    readOperands m ps mk (operandBytes st reg rm ++ rest) = .ok (mk st reg rm, rest) := by
  obtain ⟨_, hrm, _, h16⟩ := (operandsWf_iff m ps rex rm).1 hw
  simp [readOperands, operandBytes, readOpcode_opcodeByte, readRegMem_encode m ps reg rm rest hrm h16, bind,
    Except.bind]

/-! ## The shapes: what the encoder writes is read back -/

/-- An encoding is an opening, the bytes of its shape, and its operands. -/
theorem decode_encodeWith {m : Mode} {ps : List LegacyPrefix} {rex : Option Rex} {rm : RegMem}
    (hw : operandsWf m ps rex rm = true) (b : Byte) (head : List Byte) (hb : isEscape b = true) (st : Bool)
    (reg : BitVec 3) (rest : List Byte) :
    decode m (encodeWith ps rex (b :: head) st reg rm ++ rest)
      = decodeShape m ps rex (b :: (head ++ (operandBytes st reg rm ++ rest))) := by
  rw [← decode_opening (opening_of_operandsWf hw) b _ hb]
  simp [encodeWith, operandBytes]

/-- The fields of a byte put together as the last byte of VEX and byte 2 of EVEX are (R85, R86, R89). -/
theorem vvvvByte_fields (top bit : Bool) (vvvv : BitVec 4) (b : Byte)
    (hb : b = BitVec.ofBool top ++ vvvv ++ BitVec.ofBool bit ++ 0#2) :
    Byte.field b 0 2 = 0#2 ∧ Byte.bit b 2 = bit ∧ Byte.bit b 7 = top ∧ Byte.field b 3 4 = vvvv ∧
      (Byte.field b 6 2 = 3#2 ↔ top = true ∧ vvvv.getLsbD 3 = true) := by
  subst hb
  revert top vvvv bit
  decide

/-- The fields of the first byte after `C4` (R86). -/
theorem vex3Byte_fields (r x b : Bool) (c : Byte) (hc : c = inv r ++ inv x ++ inv b ++ 1#5) :
    Byte.bit c 7 = !r ∧ Byte.bit c 6 = !x ∧ Byte.bit c 5 = !b ∧ Byte.field c 0 5 = 1#5 ∧
      (Byte.field c 6 2 = 3#2 ↔ r = false ∧ x = false) := by
  subst hc
  revert r x b
  decide

/-- The fields of the first byte after `62` (R89). -/
theorem evexP0_fields (r x b rHi : Bool) (c : Byte) (hc : c = inv r ++ inv x ++ inv b ++ inv rHi ++ 1#4) :
    Byte.bit c 7 = !r ∧ Byte.bit c 6 = !x ∧ Byte.bit c 5 = !b ∧ Byte.bit c 4 = !rHi ∧ Byte.field c 0 4 = 1#4 ∧
      (Byte.field c 6 2 = 3#2 ↔ r = false ∧ x = false) := by
  subst hc
  revert r x b rHi
  decide

/-- The fields of the third byte after `62` (R89). -/
theorem evexP2_fields (z bc vHi : Bool) (ll : BitVec 2) (aaa : BitVec 3) (c : Byte)
    (hc : c = BitVec.ofBool z ++ ll ++ BitVec.ofBool bc ++ BitVec.ofBool vHi ++ aaa) :
    Byte.bit c 7 = z ∧ Byte.field c 5 2 = ll ∧ Byte.bit c 4 = bc ∧ Byte.bit c 3 = vHi ∧ Byte.field c 0 3 = aaa := by
  subst hc
  revert z ll bc vHi aaa
  decide

/-! ### Each shape as its own bytes and then its operands -/

section
variable (m : Mode) (ps : List LegacyPrefix) (rex : Option Rex)

theorem decodeShape_legacy (bs : List Byte) : decodeShape m ps rex (0x0F#8 :: bs) =
    if ps.any LegacyPrefix.isMandatory then .error .notMovups
    else readOperands m ps (fun st reg rm => legacyInstr st ps rex reg rm) bs := rfl

theorem decodeShape_vex2 (b : Byte) (bs : List Byte) : decodeShape m ps rex (0xC5#8 :: b :: bs) =
    if m = .m32 ∧ b.field 6 2 ≠ 3#2 then .error .notMovups
    else if b.field 0 2 ≠ 0#2 then .error .notMovups
    else readOperands m ps
      (fun st reg rm => vex2Instr (b.bit 2) st ps rex ⟨!b.bit 7, b.field 3 4⟩ reg rm) bs := rfl

theorem decodeShape_vex3 (b c : Byte) (bs : List Byte) : decodeShape m ps rex (0xC4#8 :: b :: c :: bs) =
    if m = .m32 ∧ b.field 6 2 ≠ 3#2 then .error .notMovups
    else if b.field 0 5 ≠ 1#5 then .error .notMovups
    else if c.field 0 2 ≠ 0#2 then .error .notMovups
    else readOperands m ps (fun st reg rm =>
      vex3Instr (c.bit 2) st ps rex ⟨!b.bit 7, !b.bit 6, !b.bit 5, c.bit 7, c.field 3 4⟩ reg rm) bs := rfl

theorem decodeShape_evex (p0 p1 p2 : Byte) (bs : List Byte) :
    decodeShape m ps rex (0x62#8 :: p0 :: p1 :: p2 :: bs) =
    if m = .m32 ∧ p0.field 6 2 ≠ 3#2 then .error .notMovups
    else if p0.field 0 4 ≠ 1#4 then .error .notMovups
    else if p1.field 0 2 ≠ 0#2 then .error .notMovups
    else readOperands m ps
      (fun st reg rm => evexInstr (p2.field 5 2) st ps rex (Evex.ofBytes p0 p1 p2) reg rm) bs := rfl

end

/-! ### The shapes -/

section
variable {m : Mode} {ps : List LegacyPrefix} {rex : Option Rex} {rm : RegMem}

theorem decode_legacy_encode (hw : legacyWf m ps rex rm = true) (st : Bool) (reg : BitVec 3) (rest : List Byte) :
    decode m (encodeWith ps rex [0x0F#8] st reg rm ++ rest) = .ok (legacyInstr st ps rex reg rm, rest) := by
  simp only [legacyWf, Bool.and_eq_true, Bool.not_eq_true'] at hw
  obtain ⟨hop, hmandatory⟩ := hw
  rw [decode_encodeWith hop _ _ (by decide), List.nil_append, decodeShape_legacy, hmandatory,
    if_neg Bool.false_ne_true]
  exact readOperands_encode hop _ st reg rest

theorem decode_vex2_encode {v : Vex2} (hw : vex2Wf m ps rex v rm = true) (l st : Bool) (reg : BitVec 3)
    (rest : List Byte) :
    decode m (encodeWith ps rex (v.bytes l) st reg rm ++ rest) = .ok (vex2Instr l st ps rex v reg rm, rest) := by
  simp only [vex2Wf, Bool.and_eq_true] at hw
  obtain ⟨hop, h32⟩ := hw
  obtain ⟨hpp, hl, hr, hv, htop⟩ := vvvvByte_fields (!v.r) l v.vvvv _ rfl
  have hfirst : m = .m32 → (!v.r) = true ∧ v.vvvv.getLsbD 3 = true := by
    rintro rfl
    simpa using h32
  rw [Vex2.bytes, decode_encodeWith hop _ _ (by decide), List.singleton_append, decodeShape_vex2, inv, hpp, hl, hr, hv,
    if_neg (by rw [Ne, htop]; tauto), if_neg (by simp), Bool.not_not]
  exact readOperands_encode hop _ st reg rest

theorem decode_vex3_encode {v : Vex3} (hw : vex3Wf m ps rex v rm = true) (l st : Bool) (reg : BitVec 3)
    (rest : List Byte) :
    decode m (encodeWith ps rex (v.bytes l) st reg rm ++ rest) = .ok (vex3Instr l st ps rex v reg rm, rest) := by
  simp only [vex3Wf, Bool.and_eq_true] at hw
  obtain ⟨hop, h32⟩ := hw
  obtain ⟨hr, hx, hb, hmap, htop⟩ := vex3Byte_fields v.r v.x v.b _ rfl
  obtain ⟨hpp, hl, hvw, hv, _⟩ := vvvvByte_fields v.w l v.vvvv _ rfl
  have hfirst : m = .m32 → v.r = false ∧ v.x = false := by
    rintro rfl
    simpa using h32
  rw [Vex3.bytes, decode_encodeWith hop _ _ (by decide), List.cons_append, List.singleton_append, decodeShape_vex3,
    hr, hx, hb, hmap, hpp, hl, hvw, hv, if_neg (by rw [Ne, htop]; tauto), if_neg (by simp), if_neg (by simp)]
  simp only [Bool.not_not]
  exact readOperands_encode hop _ st reg rest

theorem decode_evex_encode {e : Evex} (hw : evexWf m ps rex e rm = true) (ll : BitVec 2) (st : Bool)
    (reg : BitVec 3) (rest : List Byte) :
    decode m (encodeWith ps rex (e.bytes ll) st reg rm ++ rest) = .ok (evexInstr ll st ps rex e reg rm, rest) := by
  simp only [evexWf, Bool.and_eq_true] at hw
  obtain ⟨hop, h32⟩ := hw
  obtain ⟨hr, hx, hb, hrHi, hmap, htop⟩ := evexP0_fields e.r e.x e.b e.rHi _ rfl
  obtain ⟨hpp, hone, hew, hv, _⟩ := vvvvByte_fields e.w e.one e.vvvv _ rfl
  obtain ⟨hz, hll, hbc, hvHi, haaa⟩ := evexP2_fields e.z e.bc e.vHi ll e.aaa _ rfl
  have hfirst : m = .m32 → e.r = false ∧ e.x = false := by
    rintro rfl
    simpa using h32
  rw [Evex.bytes, decode_encodeWith hop _ _ (by decide), List.cons_append, List.cons_append, List.singleton_append,
    decodeShape_evex, Evex.ofBytes, hr, hx, hb, hrHi, hmap, hpp, hone, hew, hv, hz, hll, hbc, hvHi, haaa,
    if_neg (by rw [Ne, htop]; tauto), if_neg (by simp), if_neg (by simp)]
  simp only [Bool.not_not]
  exact readOperands_encode hop _ st reg rest

end

/-- Settles O1: each constructor is the row its shape reads from the bytes that the encoder writes. -/
theorem decodeInvertsEncode : Obligations.DecodeInvertsEncode := by
  intro m i rest hw
  cases i with
  | movupsLoad ps rex reg rm => exact decode_legacy_encode hw false reg rest
  | movupsStore ps rex reg rm => exact decode_legacy_encode hw true reg rest
  | vmovupsXmmLoadVex2 ps rex v reg rm => exact decode_vex2_encode hw false false reg rest
  | vmovupsXmmStoreVex2 ps rex v reg rm => exact decode_vex2_encode hw false true reg rest
  | vmovupsYmmLoadVex2 ps rex v reg rm => exact decode_vex2_encode hw true false reg rest
  | vmovupsYmmStoreVex2 ps rex v reg rm => exact decode_vex2_encode hw true true reg rest
  | vmovupsXmmLoadVex3 ps rex v reg rm => exact decode_vex3_encode hw false false reg rest
  | vmovupsXmmStoreVex3 ps rex v reg rm => exact decode_vex3_encode hw false true reg rest
  | vmovupsYmmLoadVex3 ps rex v reg rm => exact decode_vex3_encode hw true false reg rest
  | vmovupsYmmStoreVex3 ps rex v reg rm => exact decode_vex3_encode hw true true reg rest
  | vmovupsXmmLoadEvex ps rex e reg rm => exact decode_evex_encode hw 0#2 false reg rest
  | vmovupsYmmLoadEvex ps rex e reg rm => exact decode_evex_encode hw 1#2 false reg rest
  | vmovupsZmmLoadEvex ps rex e reg rm => exact decode_evex_encode hw 2#2 false reg rest
  | vmovupsXmmStoreEvex ps rex e reg rm => exact decode_evex_encode hw 0#2 true reg rest
  | vmovupsYmmStoreEvex ps rex e reg rm => exact decode_evex_encode hw 1#2 true reg rest
  | vmovupsZmmStoreEvex ps rex e reg rm => exact decode_evex_encode hw 2#2 true reg rest
  | vmovupsReservedLoad ps rex e reg rm => exact decode_evex_encode hw 3#2 false reg rest
  | vmovupsReservedStore ps rex e reg rm => exact decode_evex_encode hw 3#2 true reg rest

/-! ## The operands: what is read is what the encoder writes -/

theorem readLe32_bytes {bs rest : List Byte} {d : BitVec 32} (h : readLe32 bs = .ok (d, rest)) :
    bs = le32 d ++ rest := by
  unfold readLe32 at h
  split at h
  · next b0 b1 b2 b3 bs =>
    obtain ⟨rfl, rfl⟩ := Prod.mk.inj (Except.ok.inj h)
    have hbyte (c : Nat) (hc : c < 4) : (b3 ++ b2 ++ b1 ++ b0).extractLsb' (8 * c) 8 = [b0, b1, b2, b3].getD c 0#8 :=
      extract_elemOfBytes b0 b1 b2 b3 c hc
    have h0 := hbyte 0 (by omega)
    have h1 := hbyte 1 (by omega)
    have h2 := hbyte 2 (by omega)
    have h3 := hbyte 3 (by omega)
    simp only [Nat.mul_zero, Nat.mul_one, Nat.reduceMul, List.getD_cons_zero, List.getD_cons_succ] at h0 h1 h2 h3
    simp [le32, h0, h1, h2, h3]
  · cases h

theorem readDisp_bytes {md : BitVec 2} {bs rest : List Byte} {d : Disp} (hmd : md ≠ 3#2)
    (h : readDisp md bs = .ok (d, rest)) : d.mod = md ∧ bs = d.encode ++ rest := by
  unfold readDisp at h
  split at h
  next hzero =>
    cases h
    exact ⟨hzero.symm, rfl⟩
  next hzero =>
    split at h
    next hone =>
      cases bs with
      | nil => cases h
      | cons b bs =>
        cases h
        exact ⟨hone.symm, rfl⟩
    next hone =>
      obtain ⟨⟨d, bs'⟩, hd, h⟩ := (except_bind_ok_iff _ _ _).1 h
      cases h
      have htwo : 2#2 = md := by
        revert md
        decide
      exact ⟨htwo, readLe32_bytes hd⟩

theorem readSib_bytes {md : BitVec 2} {bs rest : List Byte} {mf : MemForm} (hmd : md ≠ 3#2) (reg : BitVec 3)
    (h : readSib md bs = .ok (mf, rest)) :
    byte233 md reg 4#3 :: bs = (RegMem.mem mf).encode reg ++ rest ∧ mf.wf = true := by
  cases bs with
  | nil => cases h
  | cons sib bs =>
    have hsib := byte233_field sib
    rw [readSib] at h
    split at h
    next hbase =>
      obtain ⟨⟨d, bs'⟩, hd, h⟩ := (except_bind_ok_iff _ _ _).1 h
      cases h
      rw [hbase.2] at hsib
      simp [RegMem.encode, MemForm.wf, readLe32_bytes hd, hsib, hbase.1]
    next hbase =>
      obtain ⟨⟨d, bs'⟩, hd, h⟩ := (except_bind_ok_iff _ _ _).1 h
      cases h
      obtain ⟨hmod, rfl⟩ := readDisp_bytes hmd hd
      rw [← hmod, disp_mod_eq_zero] at hbase
      simp only [RegMem.encode, MemForm.wf, hsib, hmod, List.cons_append, true_and]
      simpa [imp_iff_not_or, or_comm] using hbase

theorem readMem_bytes {md : BitVec 2} {rm : BitVec 3} {bs rest : List Byte} {mf : MemForm} (hmd : md ≠ 3#2)
    (reg : BitVec 3) (h : readMem md rm bs = .ok (mf, rest)) :
    byte233 md reg rm :: bs = (RegMem.mem mf).encode reg ++ rest ∧ mf.wf = true := by
  unfold readMem at h
  split at h
  next hrm =>
    subst hrm
    exact readSib_bytes hmd reg h
  next hrm =>
    split at h
    next hdisp =>
      obtain ⟨⟨d, bs'⟩, hd, h⟩ := (except_bind_ok_iff _ _ _).1 h
      cases h
      simp [RegMem.encode, MemForm.wf, readLe32_bytes hd, hdisp]
    next hdisp =>
      obtain ⟨⟨d, bs'⟩, hd, h⟩ := (except_bind_ok_iff _ _ _).1 h
      cases h
      obtain ⟨hmod, rfl⟩ := readDisp_bytes hmd hd
      rw [← hmod, disp_mod_eq_zero] at hdisp
      simp only [RegMem.encode, MemForm.wf, hmod, List.cons_append, true_and]
      simpa [hrm, imp_iff_not_or, or_comm] using hdisp

theorem readRegMem_bytes {m : Mode} {ps : List LegacyPrefix} {bs rest : List Byte} {reg : BitVec 3} {rm : RegMem}
    (h : readRegMem m ps bs = .ok (reg, rm, rest)) : bs = rm.encode reg ++ rest ∧ rm.wf = true := by
  cases bs with
  | nil => cases h
  | cons b bs =>
    have hmodrm := byte233_field b
    rw [readRegMem] at h
    split at h
    next hmd =>
      cases h
      rw [hmd] at hmodrm
      simp [RegMem.encode, RegMem.wf, hmodrm]
    next hmd =>
      obtain ⟨_, h⟩ := (guard_ok_iff _ _ _ _).1 h
      obtain ⟨⟨mf, bs'⟩, hmf, h⟩ := (except_bind_ok_iff _ _ _).1 h
      cases h
      have hmem := readMem_bytes hmd (b.field 3 3) hmf
      rwa [hmodrm] at hmem

theorem readOpcode_bytes {bs rest : List Byte} {st : Bool} (h : readOpcode bs = .ok (st, rest)) :
    bs = opcodeByte st :: rest := by
  cases bs with
  | nil => cases h
  | cons b bs =>
    rw [readOpcode] at h
    split at h
    next hb =>
      cases h
      rw [hb]
      rfl
    next =>
      split at h
      next hb =>
        cases h
        rw [hb]
        rfl
      next => cases h

theorem readOperands_bytes {m : Mode} {ps : List LegacyPrefix} {mk : Bool → BitVec 3 → RegMem → Instr}
    {bs rest : List Byte} {i : Instr} (h : readOperands m ps mk bs = .ok (i, rest)) :
    ∃ st reg rm, i = mk st reg rm ∧ bs = operandBytes st reg rm ++ rest ∧
      ∀ rex, prefixesOk ps = true → (m = .m32 → rex = none) → operandsWf m ps rex rm = true := by
  obtain ⟨⟨st, bs'⟩, hst, h⟩ := (except_bind_ok_iff _ _ _).1 h
  obtain ⟨⟨reg, rm, bs''⟩, hrm, h⟩ := (except_bind_ok_iff _ _ _).1 h
  cases h
  obtain ⟨_, h16⟩ := readRegMem_ok m ps bs' rest reg rm hrm
  obtain ⟨hbytes, hwf⟩ := readRegMem_bytes hrm
  refine ⟨st, reg, rm, rfl, ?_, fun rex hps hrex => (operandsWf_iff m ps rex rm).2 ⟨hps, hwf, hrex, h16⟩⟩
  rw [readOpcode_bytes hst, hbytes, operandBytes, List.cons_append]

theorem readRex_bytes (m : Mode) (bs : List Byte) :
    bs = ((readRex m bs).1.map Rex.toByte).toList ++ (readRex m bs).2 ∧ (m = .m32 → (readRex m bs).1 = none) := by
  cases bs with
  | nil => exact ⟨rfl, fun _ => rfl⟩
  | cons b bs =>
    simp only [readRex]
    split
    next x hx => simp [toByte_ofByte_rex b x hx]
    next => simp

/-! ## The shapes: what is read is what the encoder writes -/

/-- The byte that ends VEX and byte 2 of EVEX, from its fields (R85, R86, R89). -/
theorem vvvvByte_of_fields (b : Byte) (h : b.field 0 2 = 0#2) :
    BitVec.ofBool (b.bit 7) ++ b.field 3 4 ++ BitVec.ofBool (b.bit 2) ++ 0#2 = b := by
  revert b
  decide

theorem vex3Byte_of_fields (b : Byte) (h : b.field 0 5 = 1#5) :
    inv (!b.bit 7) ++ inv (!b.bit 6) ++ inv (!b.bit 5) ++ 1#5 = b := by
  revert b
  decide

theorem evexP0_of_fields (b : Byte) (h : b.field 0 4 = 1#4) :
    inv (!b.bit 7) ++ inv (!b.bit 6) ++ inv (!b.bit 5) ++ inv (!b.bit 4) ++ 1#4 = b := by
  revert b
  decide

theorem evexP2_of_fields (b : Byte) :
    BitVec.ofBool (b.bit 7) ++ b.field 5 2 ++ BitVec.ofBool (b.bit 4) ++ BitVec.ofBool (b.bit 3) ++ b.field 0 3
      = b := by
  revert b
  decide

theorem field_top_two (b : Byte) : b.field 6 2 = 3#2 ↔ b.bit 7 = true ∧ b.bit 6 = true := by
  revert b
  decide

theorem field_vvvv_top (b : Byte) : (b.field 3 4).getLsbD 3 = b.bit 6 := by
  revert b
  decide

/-- The values of `L'L` (R111, R105). -/
theorem evexLength_cases (ll : BitVec 2) : ll = 0#2 ∨ ll = 1#2 ∨ ll = 2#2 ∨ ll = 3#2 := by
  revert ll
  decide

section
variable (ps : List LegacyPrefix) (rex : Option Rex) (st : Bool) (reg : BitVec 3) (rm : RegMem) (m : Mode)

theorem legacyInstr_encode_wf :
    (legacyInstr st ps rex reg rm).encode = encodeWith ps rex [0x0F#8] st reg rm ∧
      (legacyInstr st ps rex reg rm).wf m = legacyWf m ps rex rm := by
  cases st <;> exact ⟨rfl, rfl⟩

theorem vex2Instr_encode_wf (l : Bool) (v : Vex2) :
    (vex2Instr l st ps rex v reg rm).encode = encodeWith ps rex (v.bytes l) st reg rm ∧
      (vex2Instr l st ps rex v reg rm).wf m = vex2Wf m ps rex v rm := by
  cases l <;> cases st <;> exact ⟨rfl, rfl⟩

theorem vex3Instr_encode_wf (l : Bool) (v : Vex3) :
    (vex3Instr l st ps rex v reg rm).encode = encodeWith ps rex (v.bytes l) st reg rm ∧
      (vex3Instr l st ps rex v reg rm).wf m = vex3Wf m ps rex v rm := by
  cases l <;> cases st <;> exact ⟨rfl, rfl⟩

theorem evexInstr_encode_wf (ll : BitVec 2) (e : Evex) :
    (evexInstr ll st ps rex e reg rm).encode = encodeWith ps rex (e.bytes ll) st reg rm ∧
      (evexInstr ll st ps rex e reg rm).wf m = evexWf m ps rex e rm := by
  rcases evexLength_cases ll with rfl | rfl | rfl | rfl <;> cases st <;> exact ⟨rfl, rfl⟩

end

/-- After the opening `ps`, `rex` the bytes `bs` begin with the rest of the encoding of `i`, and `i` is well formed. -/
structure Spells (m : Mode) (ps : List LegacyPrefix) (rex : Option Rex) (bs : List Byte) (i : Instr)
    (rest : List Byte) : Prop where
  bytes : ps.map LegacyPrefix.toByte ++ ((rex.map Rex.toByte).toList ++ bs) = i.encode ++ rest
  wf : prefixesOk ps = true → (m = .m32 → rex = none) → i.wf m = true

theorem encodeWith_append (ps : List LegacyPrefix) (rex : Option Rex) (head : List Byte) (st : Bool) (reg : BitVec 3)
    (rm : RegMem) (rest : List Byte) :
    encodeWith ps rex head st reg rm ++ rest =
      ps.map LegacyPrefix.toByte ++ ((rex.map Rex.toByte).toList ++ (head ++ (operandBytes st reg rm ++ rest))) := by
  simp [encodeWith, operandBytes]

section
variable {m : Mode} {ps : List LegacyPrefix} {rex : Option Rex} {bs : List Byte} {i : Instr} {rest : List Byte}

theorem decodeLegacy_spells (h : decodeLegacy m ps rex bs = .ok (i, rest)) :
    Spells m ps rex (0x0F#8 :: bs) i rest := by
  obtain ⟨hmandatory, h⟩ := (guard_ok_iff _ _ _ _).1 h
  obtain ⟨st, reg, rm, rfl, rfl, hop⟩ :=
    readOperands_bytes (mk := fun st reg rm => legacyInstr st ps rex reg rm) h
  obtain ⟨henc, hwf⟩ := legacyInstr_encode_wf ps rex st reg rm m
  refine ⟨by rw [henc, encodeWith_append, List.singleton_append], fun hps hrex => ?_⟩
  rw [hwf, legacyWf, hop rex hps hrex]
  simpa using hmandatory

theorem decodeVex2_spells (h : decodeVex2 m ps rex bs = .ok (i, rest)) : Spells m ps rex (0xC5#8 :: bs) i rest := by
  cases bs with
  | nil => cases h
  | cons b bs =>
    obtain ⟨hfirst, h⟩ := (guard_ok_iff _ _ _ _).1 h
    obtain ⟨hpp, h⟩ := (guard_ok_iff _ _ _ _).1 h
    obtain ⟨st, reg, rm, rfl, rfl, hop⟩ :=
      readOperands_bytes (mk := fun st reg rm => vex2Instr (b.bit 2) st ps rex ⟨!b.bit 7, b.field 3 4⟩ reg rm) h
    obtain ⟨henc, hwf⟩ := vex2Instr_encode_wf ps rex st reg rm m (b.bit 2) ⟨!b.bit 7, b.field 3 4⟩
    refine ⟨?_, fun hps hrex => ?_⟩
    · rw [henc, encodeWith_append, Vex2.bytes, inv, Bool.not_not, vvvvByte_of_fields b (not_not.1 hpp)]
      rfl
    · rw [Ne, field_top_two] at hfirst
      rw [hwf, vex2Wf, hop rex hps hrex, field_vvvv_top]
      cases m with
      | m64 => simp
      | m32 => simpa using hfirst

theorem decodeVex3_spells (h : decodeVex3 m ps rex bs = .ok (i, rest)) : Spells m ps rex (0xC4#8 :: bs) i rest := by
  cases bs with
  | nil => cases h
  | cons b bs =>
    obtain ⟨hfirst, h⟩ := (guard_ok_iff _ _ _ _).1 h
    obtain ⟨hmap, h⟩ := (guard_ok_iff _ _ _ _).1 h
    cases bs with
    | nil => cases h
    | cons c bs =>
      obtain ⟨hpp, h⟩ := (guard_ok_iff _ _ _ _).1 h
      obtain ⟨st, reg, rm, rfl, rfl, hop⟩ :=
        readOperands_bytes (mk := fun st reg rm =>
          vex3Instr (c.bit 2) st ps rex ⟨!b.bit 7, !b.bit 6, !b.bit 5, c.bit 7, c.field 3 4⟩ reg rm) h
      obtain ⟨henc, hwf⟩ := vex3Instr_encode_wf ps rex st reg rm m (c.bit 2)
        ⟨!b.bit 7, !b.bit 6, !b.bit 5, c.bit 7, c.field 3 4⟩
      refine ⟨?_, fun hps hrex => ?_⟩
      · rw [henc, encodeWith_append, Vex3.bytes, vex3Byte_of_fields b (not_not.1 hmap),
          vvvvByte_of_fields c (not_not.1 hpp)]
        rfl
      · rw [Ne, field_top_two] at hfirst
        rw [hwf, vex3Wf, hop rex hps hrex]
        cases m with
        | m64 => simp
        | m32 => simpa using hfirst

theorem decodeEvex_spells (h : decodeEvex m ps rex bs = .ok (i, rest)) : Spells m ps rex (0x62#8 :: bs) i rest := by
  cases bs with
  | nil => cases h
  | cons p0 bs =>
    obtain ⟨hfirst, h⟩ := (guard_ok_iff _ _ _ _).1 h
    obtain ⟨hmap, h⟩ := (guard_ok_iff _ _ _ _).1 h
    cases bs with
    | nil => cases h
    | cons p1 bs =>
      obtain ⟨hpp, h⟩ := (guard_ok_iff _ _ _ _).1 h
      cases bs with
      | nil => cases h
      | cons p2 bs =>
        obtain ⟨st, reg, rm, rfl, rfl, hop⟩ :=
          readOperands_bytes (mk := fun st reg rm =>
            evexInstr (p2.field 5 2) st ps rex (Evex.ofBytes p0 p1 p2) reg rm) h
        obtain ⟨henc, hwf⟩ := evexInstr_encode_wf ps rex st reg rm m (p2.field 5 2) (Evex.ofBytes p0 p1 p2)
        refine ⟨?_, fun hps hrex => ?_⟩
        · rw [henc, encodeWith_append, Evex.bytes, Evex.ofBytes, evexP0_of_fields p0 (not_not.1 hmap),
            vvvvByte_of_fields p1 (not_not.1 hpp), evexP2_of_fields p2]
          rfl
        · rw [Ne, field_top_two] at hfirst
          rw [hwf, evexWf, hop rex hps hrex, Evex.ofBytes]
          cases m with
          | m64 => simp
          | m32 => simpa using hfirst

theorem decodeShape_spells (h : decodeShape m ps rex bs = .ok (i, rest)) : Spells m ps rex bs i rest := by
  cases bs with
  | nil => cases h
  | cons b bs =>
    rw [decodeShape] at h
    split at h
    next hb =>
      subst hb
      exact decodeLegacy_spells h
    next =>
      split at h
      next hb =>
        subst hb
        exact decodeVex2_spells h
      next =>
        split at h
        next hb =>
          subst hb
          exact decodeVex3_spells h
        next =>
          split at h
          next hb =>
            subst hb
            exact decodeEvex_spells h
          next => cases h

end

/-- Settles O2: each shape's reader takes the bytes that the encoder writes for what it answers. -/
theorem encodeInvertsDecode : Obligations.EncodeInvertsDecode := by
  intro m bs i rest h
  obtain ⟨hps, h⟩ := (guard_ok_iff _ _ _ _).1 h
  have h : decodeShape m (readPrefixes bs).1 (readRex m (readPrefixes bs).2).1 (readRex m (readPrefixes bs).2).2
      = .ok (i, rest) := h
  obtain ⟨hbytes, hwf⟩ := decodeShape_spells h
  obtain ⟨hrexbytes, hrex⟩ := readRex_bytes m (readPrefixes bs).2
  refine ⟨hwf (by simpa using hps) hrex, ?_⟩
  rw [← hbytes, ← hrexbytes, ← readPrefixes_eq bs]

end Sys2Proof.Proofs
end

section
/-! PROOFS for 30_encoding.md: what the decoder refuses (R83, R84, R88, R90, R106), the longest legal encoding (R112),
and sample words. -/

namespace Sys2Proof.Proofs

open Sys2Proof.Machine Sys2Proof.Safety Sys2Proof.Laws

/-! ## Prefix conflicts (R83) -/

/-- The five kinds of legacy prefixes, of which an instruction has at most one each: a segment override, 66, 67, F2 or
F3, and LOCK. -/
def prefixGroup : LegacyPrefix → Fin 5
  | .es | .cs | .ss | .ds | .fs | .gs => 0
  | .opSize => 1
  | .addrSize => 2
  | .repne | .rep => 3
  | .lock => 4

theorem conflicts_eq_group (p q : LegacyPrefix) : p.conflicts q = (prefixGroup p == prefixGroup q) := by
  cases p <;> cases q <;> rfl

/-- Prefix bytes hold no conflict when no two are of one kind. -/
theorem prefixesOk_iff (ps : List LegacyPrefix) : prefixesOk ps = true ↔ (ps.map prefixGroup).Nodup := by
  induction ps with
  | nil => simp [prefixesOk]
  | cons p ps ih => simp [prefixesOk, conflicts_eq_group, ih, eq_comm (a := prefixGroup p)]

theorem prefixGroup_inj {ps : List LegacyPrefix} (h : prefixesOk ps = true) {p q : LegacyPrefix} (hp : p ∈ ps)
    (hq : q ∈ ps) (hpq : prefixGroup p = prefixGroup q) : p = q :=
  List.inj_on_of_nodup_map ((prefixesOk_iff ps).1 h) hp hq hpq

theorem prefixGroup_of_isSegment {p : LegacyPrefix} (h : p.isSegment = true) : prefixGroup p = 0 := by
  cases p <;> simp_all [LegacyPrefix.isSegment, prefixGroup]

/-- Legacy prefixes that conflict make every run of them that begins so conflict, whatever bytes follow. -/
theorem decode_of_conflict (m : Mode) (ps : List LegacyPrefix) (rest : List Byte) (h : prefixesOk ps = false) :
    decode m (ps.map LegacyPrefix.toByte ++ rest) = .error .prefixConflict := by
  have hread (ps : List LegacyPrefix) : (readPrefixes (ps.map LegacyPrefix.toByte ++ rest)).1
      = ps ++ (readPrefixes rest).1 := by
    induction ps with
    | nil => rfl
    | cons p ps ih => simp [readPrefixes, ih]
  have hconflict : prefixesOk (ps ++ (readPrefixes rest).1) = false := by
    rw [Bool.eq_false_iff, Ne, prefixesOk_iff] at h ⊢
    rw [List.map_append]
    exact fun hnodup => h hnodup.of_append_left
  simp [decode, hread, hconflict]

/-- Settles O7: each of the three situations is a pair of legacy prefixes that conflict. -/
theorem prefixConflictIsRefused : Obligations.PrefixConflictIsRefused := by
  intro m ps rest hcase
  refine decode_of_conflict m ps rest (Bool.eq_false_iff.2 fun hok => ?_)
  rcases hcase with hdup | ⟨p, hp, q, hq, hne, hsp, hsq⟩ | ⟨hrep, hrepne⟩
  · exact hdup ((prefixesOk_iff ps).1 hok).of_map
  · exact hne (prefixGroup_inj hok hp hq ((prefixGroup_of_isSegment hsp).trans (prefixGroup_of_isSegment hsq).symm))
  · cases prefixGroup_inj hok hrep hrepne rfl

/-! ## Other instructions (R84, R88, R90, R106) -/

/-- R80: an opcode byte other than 10 and 11. -/
theorem readOperands_of_opcode (m : Mode) (ps : List LegacyPrefix) (mk : Bool → BitVec 3 → RegMem → Instr) (op : Byte)
    (bs : List Byte) (h0 : op ≠ 0x10#8) (h1 : op ≠ 0x11#8) :
    readOperands m ps mk (op :: bs) = .error .notMovups := by
  simp [readOperands, readOpcode, h0, h1, bind, Except.bind]

theorem any_mandatory {ps : List LegacyPrefix} (h : .opSize ∈ ps ∨ .rep ∈ ps ∨ .repne ∈ ps) :
    ps.any LegacyPrefix.isMandatory = true := by
  rw [List.any_eq_true]
  rcases h with h | h | h
  · exact ⟨_, h, rfl⟩
  · exact ⟨_, h, rfl⟩
  · exact ⟨_, h, rfl⟩

section
variable (m : Mode) (ps : List LegacyPrefix) (rex : Option Rex) (bs : List Byte)

theorem decodeShape_vex3_map (b : Byte) (h : b.extractLsb' 0 5 ≠ 1#5) :
    decodeShape m ps rex (0xC4#8 :: b :: bs) = .error .notMovups := by
  simp [decodeShape, decodeVex3, Byte.field, h]

theorem decodeShape_evex_map (p0 : Byte) (h : p0.extractLsb' 0 4 ≠ 1#4) :
    decodeShape m ps rex (0x62#8 :: p0 :: bs) = .error .notMovups := by
  simp [decodeShape, decodeEvex, Byte.field, h]

theorem decodeShape_evex_pp (p0 p1 : Byte) (h : p1.extractLsb' 0 2 ≠ 0#2) :
    decodeShape m ps rex (0x62#8 :: p0 :: p1 :: bs) = .error .notMovups := by
  simp [decodeShape, decodeEvex, Byte.field, h]

end

/-- Settles O6: after an opening the shape's reader refuses at the byte that decides. -/
theorem neighboursAreRefused : Obligations.NeighboursAreRefused := by
  intro m ps rex pre rest hop
  have hvex2 (b : Byte) (bs : List Byte) := decode_opening hop 0xC5#8 (b :: bs) rfl
  have hvex3 (b : Byte) (bs : List Byte) := decode_opening hop 0xC4#8 (b :: bs) rfl
  have hevex (p0 : Byte) (bs : List Byte) := decode_opening hop 0x62#8 (p0 :: bs) rfl
  refine ⟨fun h => ?_, fun b h => ?_, fun b h => ?_, fun b c h => ?_, fun p0 h => ?_, fun p0 p1 h => ?_,
    fun op h0 h1 => ⟨?_, fun b => ?_, fun b c => ?_, fun p0 p1 p2 => ?_⟩⟩
  · rw [decode_opening hop _ _ rfl, decodeShape_legacy, if_pos (any_mandatory h)]
  · rw [hvex2, decodeShape_vex2, Byte.field, Byte.field, if_pos h, ite_self]
  · rw [hvex3, decodeShape_vex3_map m ps rex rest b h]
  · rw [hvex3, decodeShape_vex3, Byte.field, Byte.field, Byte.field, if_pos h, ite_self, ite_self]
  · rw [hevex, decodeShape_evex_map m ps rex rest p0 h]
  · rw [hevex, decodeShape_evex_pp m ps rex rest p0 p1 h]
  · rw [decode_opening hop _ _ rfl, decodeShape_legacy, readOperands_of_opcode m ps _ op rest h0 h1, ite_self]
  · rw [hvex2, decodeShape_vex2, readOperands_of_opcode m ps _ op rest h0 h1, ite_self, ite_self]
  · rw [hvex3, decodeShape_vex3, readOperands_of_opcode m ps _ op rest h0 h1, ite_self, ite_self, ite_self]
  · rw [hevex, decodeShape_evex, readOperands_of_opcode m ps _ op rest h0 h1, ite_self, ite_self, ite_self]

/-- A byte `0100WRXB` is a REX byte, none of the legacy prefixes, and begins no shape (R84). -/
theorem rex_byte (b : Byte) (h : b.extractLsb' 4 4 = 4#4) :
    LegacyPrefix.ofByte? b = none ∧ (Rex.ofByte? b).isSome = true ∧ isEscape b = false := by
  revert b
  decide

theorem decodeShape_of_not_escape (m : Mode) (ps : List LegacyPrefix) (rex : Option Rex) (b : Byte) (bs : List Byte)
    (h : isEscape b = false) :
    decodeShape m ps rex (b :: bs) = .error (if rex.isSome then .misplacedRex else .notMovups) := by
  simp only [isEscape, Bool.or_eq_false_iff, beq_eq_false_iff_ne] at h
  obtain ⟨⟨⟨h0F, hC5⟩, hC4⟩, h62⟩ := h
  rw [decodeShape, if_neg h0F, if_neg hC5, if_neg hC4, if_neg h62]

/-- R88 (c), R90 (i): in M32 the byte after `C4`, `C5` or `62` has bits 7:6 of 11. -/
theorem decodeShape_m32 (ps : List LegacyPrefix) (rex : Option Rex) (b c : Byte) (bs : List Byte)
    (hb : b = 0xC4#8 ∨ b = 0xC5#8 ∨ b = 0x62#8) (hc : c.extractLsb' 6 2 ≠ 3#2) :
    decodeShape .m32 ps rex (b :: c :: bs) = .error .notMovups := by
  rcases hb with rfl | rfl | rfl
  · simp [decodeShape, decodeVex3, Byte.field, hc]
  · simp [decodeShape, decodeVex2, Byte.field, hc]
  · simp [decodeShape, decodeEvex, Byte.field, hc]

/-- Settles O8: the byte after the prefixes begins a shape that its second byte rules out, or is a REX byte, which M32
does not have. -/
theorem m32OtherInstructionsAreRefused : Obligations.M32OtherInstructionsAreRefused := by
  intro ps pre rest b c hop
  refine ⟨fun hb hc => ?_, fun hb => ?_⟩
  · have hescape : isEscape b = true := by rcases hb with rfl | rfl | rfl <;> rfl
    rw [decode_opening hop b _ hescape, decodeShape_m32 ps none b c rest hb hc]
  · obtain ⟨hps, -, rfl⟩ := hop
    obtain ⟨hprefix, -, hescape⟩ := rex_byte b hb
    simp [decode_prefixes .m32 ps b rest hps hprefix, readRex_m32, decodeShape_of_not_escape _ _ _ b rest hescape]

/-- Settles O10: the byte after the REX byte begins no shape. -/
theorem misplacedRexIsRefused : Obligations.MisplacedRexIsRefused := by
  intro ps pre rest b c hop hb h0F hC5 hC4 h62
  obtain ⟨hps, -, rfl⟩ := hop
  obtain ⟨hprefix, hrex, -⟩ := rex_byte b hb
  obtain ⟨x, hx⟩ := Option.isSome_iff_exists.1 hrex
  have hescape : isEscape c = false := by simp [isEscape, h0F, hC5, hC4, h62]
  simp [decode_prefixes .m64 ps b (c :: rest) hps hprefix, readRex, hx,
    decodeShape_of_not_escape _ _ _ c rest hescape]

/-! ## The longest legal encoding (R102, R112) -/

theorem prefixes_length_le_five {ps : List LegacyPrefix} (h : prefixesOk ps = true) : ps.length ≤ 5 := by
  simpa using ((prefixesOk_iff ps).1 h).length_le_card

theorem prefixGroup_of_plain (p : LegacyPrefix) (hl : p ≠ .lock) (hm : p.isMandatory = false) :
    prefixGroup p ∈ [(0 : Fin 5), 2] := by
  cases p <;> simp_all [LegacyPrefix.isMandatory, prefixGroup]

/-- Without LOCK, 66, F2 and F3 an instruction has at most a segment override and 67 as legacy prefixes. -/
theorem prefixes_length_le_two {ps : List LegacyPrefix} (hok : prefixesOk ps = true) (hl : .lock ∉ ps)
    (hm : ps.any LegacyPrefix.isMandatory = false) : ps.length ≤ 2 := by
  have hsub : ps.map prefixGroup ⊆ [(0 : Fin 5), 2] := by
    intro g hg
    obtain ⟨p, hp, rfl⟩ := List.mem_map.1 hg
    exact prefixGroup_of_plain p (fun hc => hl (hc ▸ hp)) (by simpa using List.any_eq_false.1 hm p hp)
  simpa using (((prefixesOk_iff ps).1 hok).subperm hsub).length_le

theorem regMem_len_le_six (rm : RegMem) : rm.len ≤ 6 := by
  cases rm with
  | reg _ => simp [RegMem.len]
  | mem mf =>
    have hdisp (d : Disp) : d.len ≤ 4 := by cases d <;> simp [Disp.len]
    cases mf with
    | base _ d => simp only [RegMem.len]; have := hdisp d; omega
    | sib _ _ _ d => simp only [RegMem.len]; have := hdisp d; omega
    | sibNoBase _ _ _ => simp [RegMem.len]
    | dispOnly _ => simp [RegMem.len]

section
variable {m : Mode} {ps : List LegacyPrefix} {rex : Option Rex} {rm : RegMem}

theorem legacy_lenOf_le (hw : legacyWf m ps rex rm = true) (hl : .lock ∉ ps) : lenOf 2 ps rex rm ≤ 13 := by
  simp only [legacyWf, Bool.and_eq_true, Bool.not_eq_true'] at hw
  have hps := prefixes_length_le_two (operandsWf_prefixes m ps rex rm hw.1) hl hw.2
  have hrm := regMem_len_le_six rm
  unfold lenOf
  split_ifs <;> omega

/-- The bytes of VEX or EVEX with the opcode byte are at most 5. -/
theorem plain_lenOf_le {head : Nat} (hw : operandsWf m ps rex rm = true) (hplain : PlainPrefixes ps rex)
    (hhead : head ≤ 5) : lenOf head ps rex rm ≤ 13 := by
  obtain ⟨-, hmandatory, hrex⟩ := plainPrefixes_any ps rex hplain
  have hps := prefixes_length_le_two (operandsWf_prefixes m ps rex rm hw) hplain.2.1 hmandatory
  have hrm := regMem_len_le_six rm
  simp only [lenOf, hrex]
  simp only [Bool.false_eq_true, if_false]
  omega

theorem vex2_lenOf_le {v : Vex2} (hw : vex2Wf m ps rex v rm = true) (hl : Vex2Legal ps rex v) :
    lenOf 3 ps rex rm ≤ 13 :=
  plain_lenOf_le (Bool.and_eq_true_iff.1 hw).1 hl.1 (by decide)

theorem vex3_lenOf_le {v : Vex3} (hw : vex3Wf m ps rex v rm = true) (hl : Vex3Legal m ps rex v) :
    lenOf 4 ps rex rm ≤ 13 :=
  plain_lenOf_le (Bool.and_eq_true_iff.1 hw).1 hl.1 (by decide)

theorem evex_lenOf_le {e : Evex} (hw : evexWf m ps rex e rm = true) (hl : PlainPrefixes ps rex) :
    lenOf 5 ps rex rm ≤ 13 :=
  plain_lenOf_le (Bool.and_eq_true_iff.1 hw).1 hl (by decide)

end

/-- Settles O4: two legacy prefixes, the bytes of the shape with the opcode byte, and six of operands at most. -/
theorem legalEncodingsAreShort : Obligations.LegalEncodingsAreShort := by
  intro m i hw hl
  cases i with
  | movupsLoad => exact legacy_lenOf_le hw hl
  | movupsStore => exact legacy_lenOf_le hw hl
  | vmovupsXmmLoadVex2 => exact vex2_lenOf_le hw hl
  | vmovupsXmmStoreVex2 => exact vex2_lenOf_le hw hl
  | vmovupsYmmLoadVex2 => exact vex2_lenOf_le hw hl
  | vmovupsYmmStoreVex2 => exact vex2_lenOf_le hw hl
  | vmovupsXmmLoadVex3 => exact vex3_lenOf_le hw hl
  | vmovupsXmmStoreVex3 => exact vex3_lenOf_le hw hl
  | vmovupsYmmLoadVex3 => exact vex3_lenOf_le hw hl
  | vmovupsYmmStoreVex3 => exact vex3_lenOf_le hw hl
  | vmovupsXmmLoadEvex => exact evex_lenOf_le hw hl.1
  | vmovupsYmmLoadEvex => exact evex_lenOf_le hw hl.1
  | vmovupsZmmLoadEvex => exact evex_lenOf_le hw hl.1
  | vmovupsXmmStoreEvex => exact evex_lenOf_le hw hl.1
  | vmovupsYmmStoreEvex => exact evex_lenOf_le hw hl.1
  | vmovupsZmmStoreEvex => exact evex_lenOf_le hw hl.1
  | vmovupsReservedLoad => exact hl.elim
  | vmovupsReservedStore => exact hl.elim

/-- Settles O5: the decoder run on the five words. -/
theorem sampleEncodings : Obligations.SampleEncodings := by
  unfold Obligations.SampleEncodings
  decide

end Sys2Proof.Proofs
end

section
/-! PROOFS for 70_reset_and_hazards.md and the fetch of R140: when a step runs an instruction, and how it stops where
it does not. -/

namespace Sys2Proof.Proofs

open Sys2Proof.Machine Sys2Proof.Safety Sys2Proof.Laws

/-! ## The length of an encoding -/

theorem encode_length (i : Instr) : i.encode.length = i.len := by
  cases i <;> exact encodeWith_length ..

theorem lenOf_le {m : Mode} {ps : List LegacyPrefix} {rex : Option Rex} {rm : RegMem} {head : Nat}
    (hw : operandsWf m ps rex rm = true) (hhead : head ≤ 5) : lenOf head ps rex rm ≤ maxEncodedLen := by
  have hps := prefixes_length_le_five (operandsWf_prefixes m ps rex rm hw)
  have hrm := regMem_len_le_six rm
  unfold lenOf maxEncodedLen
  split_ifs <;> omega

/-- Every well-formed encoding fits into the bytes that a fetch looks at. -/
theorem len_le_maxEncodedLen {m : Mode} {i : Instr} (hw : i.wf m = true) : i.len ≤ maxEncodedLen := by
  cases i <;> exact lenOf_le (Bool.and_eq_true_iff.1 hw).1 (by decide)

/-! ## A reader that runs out of bytes

What a reader answers without running out of bytes it answers whatever bytes follow. So the decoder runs out of bytes
on every proper beginning of an encoding. -/

/-- A reader that did not run out of bytes answers the same when more bytes follow. -/
def Streams {α : Type} (r : List Byte → Except DecodeRefusal (α × List Byte)) : Prop :=
  ∀ bs more, r bs ≠ .error .truncated → r (bs ++ more) = (r bs).map fun p => (p.1, p.2 ++ more)

theorem Streams.ok {α : Type} (a : α) : Streams fun bs => .ok (a, bs) := fun _ _ _ => rfl

theorem Streams.error {α : Type} (e : DecodeRefusal) :
    Streams (fun _ => .error e : List Byte → Except DecodeRefusal (α × List Byte)) := fun _ _ _ => rfl

theorem Streams.ite {α : Type} {c : Prop} [Decidable c] {r r' : List Byte → Except DecodeRefusal (α × List Byte)}
    (h : Streams r) (h' : Streams r') : Streams fun bs => if c then r bs else r' bs := by
  intro bs more
  split
  · exact h bs more
  · exact h' bs more

theorem Streams.bind {α β : Type} {r : List Byte → Except DecodeRefusal (α × List Byte)}
    {k : α → List Byte → Except DecodeRefusal (β × List Byte)} (hr : Streams r) (hk : ∀ a, Streams (k a)) :
    Streams fun bs => r bs >>= fun p => k p.1 p.2 := by
  intro bs more h
  have hrbs := hr bs more
  cases hb : r bs with
  | error e =>
    simp only [hb] at h hrbs ⊢
    rw [hrbs fun he => h (congrArg (· >>= _) he)]
    rfl
  | ok p =>
    simp only [hb] at h hrbs ⊢
    rw [hrbs (by simp)]
    exact hk p.1 p.2 more h

/-- A reader that takes one byte and goes on with it. -/
theorem Streams.byte {α : Type} {r : List Byte → Except DecodeRefusal (α × List Byte)}
    (hnil : r [] = .error .truncated) (h : ∀ b, Streams fun bs => r (b :: bs)) : Streams r := by
  intro bs more hne
  cases bs with
  | nil => exact absurd hnil hne
  | cons b bs => exact h b bs more hne

theorem readLe32_streams : Streams readLe32 := by
  refine Streams.byte rfl fun b0 => Streams.byte rfl fun b1 => Streams.byte rfl fun b2 => Streams.byte rfl fun b3 => ?_
  exact Streams.ok _

theorem readDisp_streams (md : BitVec 2) : Streams (readDisp md) :=
  Streams.ite (Streams.ok _) (Streams.ite (Streams.byte rfl fun b => Streams.ok (Disp.d8 b))
    (readLe32_streams.bind fun d => Streams.ok (Disp.d32 d)))

theorem readSib_streams (md : BitVec 2) : Streams (readSib md) :=
  Streams.byte rfl fun _ => Streams.ite (readLe32_streams.bind fun _ => Streams.ok _)
    ((readDisp_streams md).bind fun _ => Streams.ok _)

theorem readMem_streams (md : BitVec 2) (rm : BitVec 3) : Streams (readMem md rm) :=
  Streams.ite (readSib_streams md) (Streams.ite (readLe32_streams.bind fun _ => Streams.ok _)
    ((readDisp_streams md).bind fun _ => Streams.ok _))

theorem readOpcode_streams : Streams readOpcode :=
  Streams.byte rfl fun _ => Streams.ite (Streams.ok _) (Streams.ite (Streams.ok _) (Streams.error _))

section
variable (m : Mode) (ps : List LegacyPrefix)

/-- The operand and what is made of it. -/
theorem readRegMem_streams (mk : BitVec 3 → RegMem → Instr) :
    Streams fun bs => readRegMem m ps bs >>= fun p => .ok (mk p.1 p.2.1, p.2.2) := by
  refine Streams.byte rfl fun b => ?_
  by_cases hreg : b.field 6 2 = 3#2
  · simp only [readRegMem, if_pos hreg]
    exact Streams.ok (mk (b.field 3 3) (.reg (b.field 0 3)))
  · by_cases h16 : m = .m32 ∧ ps.contains .addrSize
    · simp only [readRegMem, if_neg hreg, if_pos h16]
      exact Streams.error _
    · have hmem : (fun bs => readRegMem m ps (b :: bs) >>= fun p => .ok (mk p.1 p.2.1, p.2.2)) = fun bs =>
          readMem (b.field 6 2) (b.field 0 3) bs >>= fun p => .ok (mk (b.field 3 3) (.mem p.1), p.2) := by
        funext bs
        simp only [readRegMem, if_neg hreg, if_neg h16]
        cases readMem (b.field 6 2) (b.field 0 3) bs <;> rfl
      rw [hmem]
      exact (readMem_streams _ _).bind fun mf => Streams.ok (mk (b.field 3 3) (.mem mf))

theorem readOperands_streams (mk : Bool → BitVec 3 → RegMem → Instr) : Streams (readOperands m ps mk) :=
  readOpcode_streams.bind fun st => readRegMem_streams m ps (mk st)

theorem decodeShape_streams (rex : Option Rex) : Streams (decodeShape m ps rex) := by
  refine Streams.byte rfl fun b => Streams.ite ?_ (Streams.ite ?_ (Streams.ite ?_ (Streams.ite ?_ (Streams.error _))))
  · exact Streams.ite (Streams.error _) (readOperands_streams m ps fun st => legacyInstr st ps rex)
  · refine Streams.byte rfl fun b => Streams.ite (Streams.error _) (Streams.ite (Streams.error _) ?_)
    exact readOperands_streams m ps fun st => vex2Instr (b.bit 2) st ps rex ⟨!b.bit 7, b.field 3 4⟩
  · refine Streams.byte rfl fun b => Streams.ite (Streams.error _) (Streams.ite (Streams.error _) ?_)
    refine Streams.byte rfl fun c => Streams.ite (Streams.error _) ?_
    exact readOperands_streams m ps fun st =>
      vex3Instr (c.bit 2) st ps rex ⟨!b.bit 7, !b.bit 6, !b.bit 5, c.bit 7, c.field 3 4⟩
  · refine Streams.byte rfl fun p0 => Streams.ite (Streams.error _) (Streams.ite (Streams.error _) ?_)
    refine Streams.byte rfl fun p1 => Streams.ite (Streams.error _) ?_
    refine Streams.byte rfl fun p2 => ?_
    exact readOperands_streams m ps fun st => evexInstr (p2.field 5 2) st ps rex (Evex.ofBytes p0 p1 p2)

end

theorem readPrefixes_head (bs : List Byte) (b : Byte) (bs' : List Byte) (h : (readPrefixes bs).2 = b :: bs') :
    LegacyPrefix.ofByte? b = none := by
  induction bs with
  | nil => cases h
  | cons c bs ih =>
    simp only [readPrefixes] at h
    split at h
    next => exact ih h
    next hc =>
      cases h
      exact hc

theorem readRex_cons_append (m : Mode) (b : Byte) (bs more : List Byte) :
    readRex m (b :: (bs ++ more)) = ((readRex m (b :: bs)).1, (readRex m (b :: bs)).2 ++ more) := by
  simp only [readRex]
  split <;> rfl

theorem decode_streams (m : Mode) : Streams (decode m) := by
  intro bs more h
  obtain ⟨ps, bs', hread⟩ : ∃ ps bs', readPrefixes bs = (ps, bs') := ⟨_, _, rfl⟩
  have hbs : bs = ps.map LegacyPrefix.toByte ++ bs' := by simpa [hread] using readPrefixes_eq bs
  cases hps : prefixesOk ps with
  | false =>
    rw [hbs, List.append_assoc, decode_of_conflict m ps _ hps, decode_of_conflict m ps _ hps]
    rfl
  | true =>
    cases bs' with
    | nil =>
      refine absurd ?_ h
      simp [decode, hread, hps, readRex, decodeShape]
    | cons b bs' =>
      have hb := readPrefixes_head bs b bs' (by rw [hread])
      rw [hbs, decode_prefixes m ps b bs' hps hb] at h ⊢
      rw [List.append_assoc, List.cons_append, decode_prefixes m ps b _ hps hb, readRex_cons_append]
      exact decodeShape_streams m ps _ _ more h

/-- The decoder runs out of bytes on a proper beginning of an encoding. -/
theorem decode_take_truncated {m : Mode} {i : Instr} (hw : i.wf m = true) {n : Nat} (hn : n < i.len) :
    decode m (i.encode.take n) = .error .truncated := by
  by_contra hne
  have hwhole := decode_streams m _ (i.encode.drop n) hne
  have hi := decodeInvertsEncode m i [] hw
  rw [List.append_nil] at hi
  rw [List.take_append_drop, hi] at hwhole
  cases hd : decode m (i.encode.take n) with
  | error e =>
    rw [hd] at hwhole
    cases hwhole
  | ok p =>
    rw [hd] at hwhole
    have hrest := congrArg List.length (Prod.mk.inj (Except.ok.inj hwhole)).2
    simp only [List.length_nil, List.length_append, List.length_drop, encode_length] at hrest
    omega

/-! ## The fetch -/

theorem pcCheck_ok_iff (m : Mode) (s : State) :
    pcCheck m s = .ok () ↔ (m = .m64 → canonical s.vaBits (s.ip m) = true) ∧ s.inProgram (s.ip m) = true := by
  unfold pcCheck
  split_ifs with hcanon hin hend
  · obtain ⟨rfl, hc⟩ := hcanon
    simp [refuse, hc]
  · simpa [hin] using hcanon
  · simp [refuse, hin]
  · simp [refuse, hin]

theorem inProgram_iff (s : State) (la : Nat) : s.inProgram la = true ↔ s.codeBase ≤ la ∧ la < s.codeEnd := by
  simp [State.inProgram]

section
variable {s : State} {m : Mode}

theorem step_of_decode {i : Instr} {bs rest : List Byte} {why : Stop} (hm : launchMode s = .ok m)
    (hpc : pcCheck m s = .ok ()) (hbytes : fetchBytes m s maxEncodedLen (s.ip m) = (bs, why))
    (h : decode m bs = .ok (i, rest)) : step s = exec i s := by
  simp only [step, fetchDecode, hm, ok_bind, hpc, hbytes, h]

theorem step_of_decode_error {e : DecodeRefusal} {bs : List Byte} {why : Stop} (hm : launchMode s = .ok m)
    (hpc : pcCheck m s = .ok ()) (hbytes : fetchBytes m s maxEncodedLen (s.ip m) = (bs, why))
    (h : decode m bs = .error e) : step s = outcome (.error (decodeStop why e)) := by
  simp only [step, fetchDecode, hm, ok_bind, hpc, hbytes, h]

theorem step_of_pcCheck {e : Stop} (hm : launchMode s = .ok m) (hpc : pcCheck m s = .error e) :
    step s = outcome (.error e) := by
  simp only [step, fetchDecode, hm, ok_bind, hpc, error_bind]

/-- What a step that answers a next state has done: it has fetched an instruction whole and run it. -/
theorem step_next {t : State} (h : step s = .next t) :
    ∃ m i bs rest, launchMode s = .ok m ∧ pcCheck m s = .ok () ∧
      (fetchBytes m s maxEncodedLen (s.ip m)).1 = bs ∧ decode m bs = .ok (i, rest) ∧ exec i s = .next t := by
  unfold step at h
  split at h
  next i hi =>
    simp only [fetchDecode, bind_ok_iff] at hi
    obtain ⟨m, hm, _, hpc, hi⟩ := hi
    split at hi
    next i' rest hdec =>
      cases hi
      exact ⟨m, i, _, rest, hm, hpc, rfl, hdec, h⟩
    next => cases hi
  next e _ =>
    rcases e with flt | r
    · cases h
    · cases h

end

/-! ## Which instruction a step runs -/

section
variable {s : State} {m : Mode} {i : Instr}

/-- Settles O11: the fetch answers the encoding and more, from which the decoder reads the instruction. -/
theorem stepRunsDecodedInstruction : Obligations.StepRunsDecodedInstruction := by
  intro s m i hm hcanon hin hw htop hend hbytes
  have hfetch := fetchBytes_append m s i.encode maxEncodedLen (s.ip m)
    (by rw [encode_length]; exact len_le_maxEncodedLen hw) (by rwa [encode_length]) (by rwa [encode_length]) hbytes
  exact step_of_decode hm ((pcCheck_ok_iff m s).2 ⟨hcanon, hin⟩) hfetch (decodeInvertsEncode m i _ hw)

/-- Where the fetch stops inside an instruction, the step stops for that reason. -/
theorem step_of_fetch_stop (hm : launchMode s = .ok m) (hpc : pcCheck m s = .ok ()) (hw : i.wf m = true)
    (htop : s.ip m + i.len ≤ 2 ^ addrBits m) {n : Nat} (hn : n < i.len) (hend : s.ip m + n ≤ s.codeEnd)
    (hbytes : ∀ b (h : b < i.encode.length), b < n → ∃ p, translateByte m s .fetch (s.ip m + b) = .ok p ∧
      s.mem.byte p = i.encode[b]) {e : Stop}
    (hstop : ∀ k, fetchBytes m s (k + 1) (s.ip m + n) = ([], e)) : step s = outcome (.error e) := by
  have hlen : (i.encode.take n).length = n := by
    rw [List.length_take, encode_length]
    omega
  have hmax := len_le_maxEncodedLen hw
  have hfetch := fetchBytes_append m s (i.encode.take n) maxEncodedLen (s.ip m) (by omega) (by omega) (by omega)
    fun b hb => by
      rw [hlen] at hb
      simpa using hbytes b (by rw [encode_length]; omega) hb
  obtain ⟨k, hk⟩ : ∃ k, maxEncodedLen - n = k + 1 := ⟨maxEncodedLen - n - 1, by omega⟩
  rw [hlen, hk, hstop k, List.append_nil] at hfetch
  exact step_of_decode_error hm hpc hfetch (decode_take_truncated hw hn)

end

/-- Settles O12: the byte that does not translate ends the fetch inside the instruction. -/
theorem fetchPageFaultIsReported : Obligations.FetchPageFaultIsReported := by
  intro s m i n code a hm hcanon hin hw htop hn hend hbytes hfault
  exact step_of_fetch_stop hm ((pcCheck_ok_iff m s).2 ⟨hcanon, hin⟩) hw htop hn (Nat.le_of_lt hend) hbytes
    fun k => fetchBytes_error m s k _ _ (by omega) hend hfault

/-- Settles O13: the end of the program text ends the fetch inside the instruction. -/
theorem cutInstructionIsRefused : Obligations.CutInstructionIsRefused := by
  intro s m i hm hcanon hin hw htop hcut hbytes
  obtain ⟨-, hlt⟩ := (inProgram_iff s _).1 hin
  have hpc := (pcCheck_ok_iff m s).2 ⟨hcanon, hin⟩
  refine step_of_fetch_stop (n := s.codeEnd - s.ip m) (e := .refused .cutInstruction) hm hpc hw htop (by omega)
    (by omega) (fun b h hb => hbytes b h (by omega)) fun k => ?_
  rw [Nat.add_sub_cancel' (Nat.le_of_lt hlt)]
  exact fetchBytes_end m s k _ (by omega) (Nat.le_refl _)

/-- Settles O14: by the checks of `pc`, in their order. -/
theorem stepStopsOutsideTheProgram : Obligations.StepStopsOutsideTheProgram := by
  intro s m hm
  refine ⟨fun hm64 hcanon => ?_, fun hcanon hin => ?_⟩
  · have hpc : pcCheck m s = .error (.refused .pcOutOfRange) := by rw [pcCheck, if_pos ⟨hm64, hcanon⟩, refuse]
    rw [step_of_pcCheck hm hpc, outcome_refused]
  · have hcheck : ¬(m = .m64 ∧ canonical s.vaBits (s.ip m) = false) := fun ⟨hm64, hc⟩ => by
      rw [hcanon hm64] at hc
      cases hc
    have hpc : pcCheck m s = .error (.refused
        (if s.ip m = s.codeEnd % 2 ^ addrBits m then .runComplete else .outsideProgram)) := by
      rw [pcCheck, if_neg hcheck, hin, if_neg Bool.false_ne_true]
      split_ifs <;> rfl
    rw [step_of_pcCheck hm hpc, outcome_refused]

end Sys2Proof.Proofs
end

section
/-! PROOFS for 70_reset_and_hazards.md and 10_state.md: what every step keeps (R5, R20, R25, R266), the program text
(R66), and reset (R34, R260). -/

namespace Sys2Proof.Proofs

open Sys2Proof.Machine Sys2Proof.Safety Sys2Proof.Laws

/-! ## The length of a completed instruction -/

/-- The pattern that a completed instruction has run. -/
theorem exec_next_pattern {i : Instr} {s t : State} (h : exec i s = .next t) :
    (directionOf i = .load ∧ loadOrCopy (formOf i) s = .ok t) ∨
      (directionOf i = .store ∧ storeOrCopy (formOf i) s = .ok t) := by
  rw [exec_next_iff, runForm] at h
  cases hd : directionOf i with
  | load =>
    rw [hd] at h
    exact .inl ⟨rfl, h⟩
  | store =>
    rw [hd] at h
    exact .inr ⟨rfl, h⟩
  | neither =>
    rw [hd] at h
    exact absurd h (reservedLength_ne_ok _ s t)

theorem exec_len_le {i : Instr} {s t : State} (h : exec i s = .next t) : i.len ≤ 15 := by
  have hfront {st : Bool} {m : Mode} (hf : frontChecks (formOf i) st s = .ok m) : i.len ≤ 15 := by
    obtain ⟨-, hdec, -⟩ := (frontChecks_ok _ _ _ _).1 hf
    obtain ⟨-, hlen, -⟩ := (decodeChecks_ok _ _ _).1 hdec
    rwa [formOf_len] at hlen
  rcases exec_next_pattern h with ⟨-, h⟩ | ⟨-, h⟩
  · obtain ⟨m, pc, src, hf, -⟩ := loadOrCopy_ok _ _ _ h
    exact hfront hf
  · obtain ⟨m, pc, hf, -⟩ := storeOrCopy_ok _ _ _ h
    exact hfront hf

/-! ## What no completed instruction changes -/

/-- The state that no instruction writes and that the launch, the program's range and the invariant speak of. -/
theorem exec_keeps {i : Instr} {s t : State} (h : exec i s = .next t) :
    launchMode t = launchMode s ∧ t.codeBase = s.codeBase ∧ t.codeEnd = s.codeEnd ∧ t.vaBits = s.vaBits ∧
      t.features = s.features ∧ t.xcr0 = s.xcr0 := by
  obtain ⟨m, pc, -, -, ⟨n, a, rfl⟩ | ⟨cells, rfl⟩⟩ := exec_cases i s t h
  · simp
  · simp

/-- R25: the next pc of a completed instruction. -/
theorem exec_pc {i : Instr} {s t : State} {m : Mode} (hm : launchMode s = .ok m) (h : exec i s = .next t) :
    s.ip m + i.len ≤ 2 ^ addrBits m ∧
      (m = .m64 → canonical s.vaBits ((s.ip m + i.len) % 2 ^ addrBits m) = true) ∧
      t.pc.toNat = (s.ip m + i.len) % 2 ^ addrBits m := by
  obtain ⟨m', pc, hm', hpc, hcase⟩ := exec_cases i s t h
  obtain rfl : m' = m := Except.ok.inj (hm'.symm.trans hm)
  rw [formOf_len] at hpc
  obtain ⟨htop, hcanon, rfl⟩ := (nextPc_ok _ _ _ _).1 hpc
  refine ⟨htop, hcanon, ?_⟩
  have htpc : t.pc = BitVec.ofNat 64 ((s.ip m' + i.len) % 2 ^ addrBits m') := by
    rcases hcase with ⟨n, a, rfl⟩ | ⟨cells, rfl⟩ <;> rfl
  rw [htpc, BitVec.toNat_ofNat, Nat.mod_eq_of_lt]
  cases m' <;> simp only [addrBits] <;> omega

/-! ## The program's range (R266) -/

/-- A step that runs an instruction holds its whole encoding between `pc` and the end of the program text. -/
theorem step_in_program {s t : State} (h : step s = .next t) :
    ∃ m i, launchMode s = .ok m ∧ s.codeBase ≤ s.ip m ∧ s.ip m + i.len ≤ s.codeEnd ∧ exec i s = .next t := by
  obtain ⟨m, i, bs, rest, hm, hpc, rfl, hdec, hexec⟩ := step_next h
  obtain ⟨-, hin⟩ := (pcCheck_ok_iff m s).1 hpc
  obtain ⟨hbase, hend⟩ := (inProgram_iff s _).1 hin
  obtain ⟨hlen, -⟩ := decode_ok hdec
  have hfetch := fetchBytes_length m s maxEncodedLen (s.ip m) (Nat.le_of_lt hend)
  exact ⟨m, i, hm, hbase, by omega, hexec⟩

/-- Settles O15: the fetch stays inside the program text, and pc moves past the bytes fetched. -/
theorem stepStaysInTheProgram : Obligations.StepStaysInTheProgram := by
  rintro s t m ⟨hm, hcode, hbase, hend⟩ hstep
  obtain ⟨m', i, hm', -, hlen, hexec⟩ := step_in_program hstep
  obtain rfl : m' = m := Except.ok.inj (hm'.symm.trans hm)
  obtain ⟨hlaunch, hcb, hce, -⟩ := exec_keeps hexec
  obtain ⟨-, -, hpc⟩ := exec_pc hm hexec
  have hip : t.ip m' = s.ip m' + i.len := by
    rw [State.ip, hpc, Nat.mod_mod, Nat.mod_eq_of_lt (by omega)]
  have h3 := three_le_len i
  have h15 := exec_len_le hexec
  refine ⟨⟨hlaunch.trans hm, by rwa [hce], ?_, ?_⟩, ?_, ?_, hcb, hce⟩ <;> omega

/-- A run keeps the invariant and moves pc by 3 to 15 bytes a step. -/
theorem run_stays_in_program (k : Nat) {s t : State} {m : Mode} (hs : ProgramInv m s) (h : run k s = .next t) :
    ProgramInv m t ∧ s.ip m + 3 * k ≤ t.ip m ∧ t.ip m ≤ s.ip m + 15 * k ∧ t.codeBase = s.codeBase ∧
      t.codeEnd = s.codeEnd := by
  induction k generalizing s with
  | zero =>
    cases h
    exact ⟨hs, by omega, by omega, rfl, rfl⟩
  | succ k ih =>
    rw [run] at h
    split at h
    next u hu =>
      obtain ⟨hinv, hlo, hhi, hcb, hce⟩ := stepStaysInTheProgram s u m hs hu
      obtain ⟨hinv', hlo', hhi', hcb', hce'⟩ := ih hinv h
      exact ⟨hinv', by omega, by omega, hcb'.trans hcb, hce'.trans hce⟩
    next => cases h
    next => cases h

/-- The launch of a run whose first step completes meets the invariant. -/
theorem programInv_of_run {k : Nat} {s t : State} {m : Mode} (h : run k s = .next t) (hk : 0 < k)
    (hm : launchMode s = .ok m) (hcode : s.codeEnd < 2 ^ addrBits m) : ProgramInv m s := by
  obtain ⟨k, rfl⟩ : ∃ k', k = k' + 1 := ⟨k - 1, by omega⟩
  rw [run] at h
  split at h
  next u hu =>
    obtain ⟨m', i, hm', hbase, hend, -⟩ := step_in_program hu
    obtain rfl : m' = m := Except.ok.inj (hm'.symm.trans hm)
    exact ⟨hm, hcode, hbase, by omega⟩
  next => cases h
  next => cases h

/-- Settles O16: the invariant of `stepStaysInTheProgram`, along the run. -/
theorem runAdvancesThroughTheProgram : Obligations.RunAdvancesThroughTheProgram := by
  intro k s t m h hk hm hcode
  obtain ⟨⟨hm', -, -, hend⟩, hlo, hhi, hcb, hce⟩ := run_stays_in_program k (programInv_of_run h hk hm hcode) h
  exact ⟨hm', hlo, hhi, by omega, hcb, hce⟩

/-! ## The program text (R66) -/

/-- A location that only bytes of the program text have for writing keeps its byte. -/
theorem exec_keeps_program_byte {i : Instr} {s t : State} {m : Mode} {p : Nat} (hm : launchMode s = .ok m)
    (hp : ∀ la, translateByte m s .write la = .ok p → s.inProgram la = true) (h : exec i s = .next t) :
    t.mem.byte p = s.mem.byte p := by
  rcases exec_next_pattern h with ⟨-, h⟩ | ⟨-, h⟩
  · obtain ⟨_, pc, src, -, -, rfl, -⟩ := loadOrCopy_ok _ _ _ h
    rfl
  · obtain ⟨m', pc, hf, -, ⟨rm, -, rfl⟩ | ⟨mf, la, cells, -, -, hcells, rfl⟩⟩ := storeOrCopy_ok _ _ _ h
    · rfl
    · obtain ⟨hm', -⟩ := (frontChecks_ok _ _ _ _).1 hf
      obtain rfl : m' = m := Except.ok.inj (hm'.symm.trans hm)
      obtain ⟨houtside, -⟩ := (storeCells_ok _ _ _ _ _ _ _).1 hcells
      refine byte_of_storeCells_other _ _ s la _ _ cells hcells p fun j hj hact c hc hloc => ?_
      have hin := houtside _ ((mem_storeAddrs la _ _ _).2 ⟨j, List.mem_range.2 hj, hact, c, hc, rfl⟩)
      rw [hp _ hloc] at hin
      cases hin

/-- Settles O17: a store that has a byte in the program text does not complete. -/
theorem programTextIsNotWritten : Obligations.ProgramTextIsNotWritten := by
  intro s t p hstep hp
  obtain ⟨m, i, hm, -, -, hexec⟩ := step_in_program hstep
  obtain ⟨-, hcb, hce, -⟩ := exec_keeps hexec
  exact ⟨exec_keeps_program_byte hm (fun la => hp m la hm) hexec, hcb, hce⟩

/-! ## Reset (R34, R260) -/

/-- Settles O18: the fields of `State.reset`. -/
theorem resetValues : Obligations.ResetValues := by
  refine ⟨?_, ?_, rfl, ?_, rfl, rfl, rfl, rfl, rfl, rfl, rfl, rfl, rfl, rfl, rfl⟩
  · intro n j
    simp [State.readV, State.reset]
  · intro n
    simp [State.readK, State.reset]
  · decide

theorem not_usable_of_reset_cr4 (f : Form) {s : State} (h : s.cr4 = State.reset.cr4) : ¬ Usable f s := by
  have hfxsr : s.osfxsr = false := by rw [State.osfxsr, h]; rfl
  have hxsave : s.osxsave = false := by rw [State.osxsave, h]; rfl
  rw [usable_iff, Form.enabled, hfxsr, hxsave]
  cases f.shape <;> simp

/-- Settles O19: the mode of reset is not admitted, and the enable check fails with its CR4. -/
theorem noFormRunsOutOfReset : Obligations.NoFormRunsOutOfReset := by
  refine ⟨rfl, fun i m s ha hcr4 => ?_⟩
  exact exec_of_frontChecks_fault ha.2.2.1 (frontChecks_of_not_usable ha (not_usable_of_reset_cr4 _ hcr4))

/-- Settles O20: no launch mode is admitted at reset, and the register file is 0. -/
theorem resetMeetsInvariant : Obligations.ResetMeetsInvariant := by
  have hzero := resetValues.1
  exact ⟨rfl, fun n j _ => hzero n j, fun _ n _ j => hzero n j, rfl, nofun, nofun⟩

/-! ## The invariant (R5, R20, R21, R25, R28) -/

/-- What a legal vector register file holds in register `n`: nothing above MAXVL, and nothing at all in registers 16 to
31 where EVEX is absent. -/
def VecWithin (ft : Features) (n : VNum) (a : Vec) : Prop :=
  (∀ j : Fin 16, ft.maxElems ≤ j.val → a[j] = 0#32) ∧
    (ft.avx512f = false → 16 ≤ n.toNat → ∀ j : Fin 16, a[j] = 0#32)

/-- Outside the EVEX shape an operand is one of 16 registers, and at most 256 bits long. -/
theorem formOf_not_evex (i : Instr) (h : (formOf i).shape ≠ .evex) :
    (formOf i).rHi = false ∧ (formOf i).vl.elems ≤ 8 := by
  cases i <;> simp_all [formOf, legacyForm, vex2Form, vex3Form, evexForm, VL.elems]

theorem vnum_low (mid : Bool) (lo : BitVec 3) : (BitVec.ofBool false ++ BitVec.ofBool mid ++ lo).toNat < 16 := by
  revert mid lo
  decide

theorem regNum_lt (i : Instr) (h : (formOf i).shape ≠ .evex) : (formOf i).regNum.toNat < 16 := by
  rw [Form.regNum, (formOf_not_evex i h).1]
  exact vnum_low _ _

theorem rmNum_lt (f : Form) (rm : BitVec 3) (h : f.shape ≠ .evex) : (f.rmNum rm).toNat < 16 := by
  have hx : (f.shape == .evex && f.x) = false := by simp [h]
  rw [Form.rmNum, hx]
  exact vnum_low _ _

theorem four_le_maxElems (ft : Features) : 4 ≤ ft.maxElems := by
  unfold Features.maxElems
  split_ifs <;> omega

theorem eight_le_maxElems (ft : Features) (h : ft.avx = true) : 8 ≤ ft.maxElems := by
  rw [Features.maxElems, h, if_pos rfl]
  split_ifs <;> omega

/-- The new value of a destination register keeps to its width, whatever the source. -/
theorem vecWithin_result (i : Instr) (s : State) (n : VNum) (src : Vec) (hen : (formOf i).enabled s = true)
    (hn : (formOf i).shape ≠ .evex → n.toNat < 16) (hold : VecWithin s.features n (s.readV n)) :
    VecWithin s.features n ((formOf i).result s (s.readV n) src) := by
  cases hshape : (formOf i).shape with
  | legacy =>
    rw [Form.result, hshape]
    refine ⟨fun j hj => ?_, fun h512 hn16 => absurd (hn (by simp [hshape])) (by omega)⟩
    have h4 := four_le_maxElems s.features
    rw [Fin.getElem_fin, getElem_mergeLow, if_neg (by omega)]
    exact hold.1 j hj
  | vex =>
    rw [Form.result, hshape]
    refine ⟨fun j hj => ?_, fun h512 hn16 => absurd (hn (by simp [hshape])) (by omega)⟩
    simp only [Form.enabled, hshape, Bool.and_eq_true] at hen
    obtain ⟨⟨havx, -⟩, -⟩ := hen
    have hvl := (formOf_not_evex i (by simp [hshape])).2
    have h8 := eight_le_maxElems s.features havx
    rw [Fin.getElem_fin, getElem_zeroAbove, if_neg (by omega)]
  | evex =>
    simp only [Form.enabled, hshape, Bool.and_eq_true] at hen
    obtain ⟨⟨⟨⟨h512, -⟩, -⟩, -⟩, -⟩ := hen
    refine ⟨fun j hj => ?_, fun hno => ?_⟩
    · rw [Features.maxElems, h512, if_pos rfl] at hj
      omega
    · rw [h512] at hno
      cases hno

/-- What a completed instruction has done: written a register that keeps to its width, or memory. -/
theorem exec_writes {i : Instr} {s t : State} (h : exec i s = .next t) :
    (∃ n a pc, t = (s.writeV n a).advance pc ∧
      (VecWithin s.features n (s.readV n) → VecWithin s.features n a)) ∨
    ∃ cells pc, t = (s.setMem (s.mem.writeCells cells)).advance pc := by
  have hen {st : Bool} {m : Mode} (hf : frontChecks (formOf i) st s = .ok m) : (formOf i).enabled s = true :=
    ((frontChecks_ok _ _ _ _).1 hf).2.2.1
  rcases exec_next_pattern h with ⟨-, h⟩ | ⟨-, h⟩
  · obtain ⟨m, pc, src, hf, -, rfl, -⟩ := loadOrCopy_ok _ _ _ h
    exact .inl ⟨_, _, pc, rfl, vecWithin_result i s _ src (hen hf) (regNum_lt i)⟩
  · obtain ⟨m, pc, hf, -, ⟨rm, -, rfl⟩ | ⟨mf, la, cells, -, -, -, rfl⟩⟩ := storeOrCopy_ok _ _ _ h
    · exact .inl ⟨_, _, pc, rfl, vecWithin_result i s _ _ (hen hf) (rmNum_lt _ rm)⟩
    · exact .inr ⟨cells, pc, rfl⟩

/-- Memory and the register file stay as the invariant has them. -/
theorem exec_keeps_data {i : Instr} {s t : State} (hmem : s.mem.wf = true)
    (hv : ∀ n, VecWithin s.features n (s.readV n)) (h : exec i s = .next t) :
    t.mem.wf = true ∧ ∀ n, VecWithin s.features n (t.readV n) := by
  obtain ⟨n, a, pc, rfl, ha⟩ | ⟨cells, pc, rfl⟩ := exec_writes h
  · refine ⟨hmem, fun r => ?_⟩
    rw [State.advance_readV, State.readV_writeV]
    split_ifs with hr
    · exact hr ▸ ha (hv n)
    · exact hv r
  · exact ⟨Memory.wf_writeCells cells s.mem hmem, hv⟩

/-- Settles O21: by what the one instruction of the step writes, and its next pc. -/
theorem stepKeepsInvariant : Obligations.StepKeepsInvariant := by
  rintro s t ⟨hmem, habove, hhigh, hxcr0, -, -⟩ hstep
  obtain ⟨m, i, hm, -, -, hexec⟩ := step_in_program hstep
  obtain ⟨hlaunch, -, -, hva, hft, hx⟩ := exec_keeps hexec
  obtain ⟨hmem', hv⟩ := exec_keeps_data hmem (fun n => ⟨habove n, fun h512 hn => hhigh h512 n hn⟩) hexec
  obtain ⟨-, hcanon, hpc⟩ := exec_pc hm hexec
  have hmode {m' : Mode} (hm' : launchMode t = .ok m') : m' = m :=
    Except.ok.inj (hm'.symm.trans (hlaunch.trans hm))
  refine ⟨hmem', fun n j hj => (hv n).1 j (hft ▸ hj), fun h512 n hn => (hv n).2 (hft ▸ h512) hn, by rwa [hx], ?_, ?_⟩
  · intro hm64
    obtain rfl := hmode hm64
    rw [hva, hpc]
    exact hcanon rfl
  · intro hm32
    obtain rfl := hmode hm32
    rw [hpc]
    exact Nat.mod_lt _ (by decide)

end Sys2Proof.Proofs
end

section
/-! PROOFS for 40_movups_legacy_sse.md, 41_vmovups_vex.md and 42_vmovups_evex.md: what each family leaves when it
completes, and R57 for elements that are not active. -/

namespace Sys2Proof.Proofs

open Sys2Proof.Machine Sys2Proof.Safety

/-! ## A ready instruction completes -/

section
variable {i : Instr} {m : Mode} {s : State}

/-- An instruction that answers the state with one register written and pc advanced. -/
theorem writesRegister_of_exec {n : VNum} {a : Vec} {pc : Word} {R : Vec → Vec → Prop}
    (hpc : nextPc m s i.len = .ok pc) (h : exec i s = .next ((s.writeV n a).advance pc)) (hR : R (s.readV n) a) :
    WritesRegister i m s n R :=
  ⟨_, h, onlyVectorChanged_writeV_advance s n a pc, advancesPc_of_nextPc m s _ i.len pc hpc rfl, by simpa using hR⟩

theorem nextPc_of_ready (h : Ready i m s) : ∃ pc, nextPc m s i.len = .ok pc :=
  nextPc_of_fits m s i.len h.2.2.2

/-- A ready instruction passes stages 1 to 3 as an instruction of its direction. -/
theorem frontChecks_of_load (h : Ready i m s) (hd : directionOf i = .load) :
    frontChecks (formOf i) false s = .ok m := by
  obtain ⟨ha, hu, hts, -⟩ := h
  have hst : isStore i = false := by rw [isStore, hd]; rfl
  exact hst ▸ frontChecks_of_usable i m s ha hu hts

theorem frontChecks_of_store (h : Ready i m s) (hd : directionOf i = .store) :
    frontChecks (formOf i) true s = .ok m := by
  obtain ⟨ha, hu, hts, -⟩ := h
  have hst : isStore i = true := by rw [isStore, hd]; rfl
  exact hst ▸ frontChecks_of_usable i m s ha hu hts

theorem exec_load (hd : directionOf i = .load) : exec i s = outcome (loadOrCopy (formOf i) s) := by
  rw [exec_eq, runForm, hd]

theorem exec_store (hd : directionOf i = .store) : exec i s = outcome (storeOrCopy (formOf i) s) := by
  rw [exec_eq, runForm, hd]

/-- A register copy by opcode 10. -/
theorem writesRegister_copy_load {rm : BitVec 3} {R : Vec → Vec → Prop} (hd : directionOf i = .load)
    (hrm : (formOf i).rm = .reg rm) (hr : Ready i m s)
    (hR : R (s.readV (formOf i).regNum)
      ((formOf i).result s (s.readV (formOf i).regNum) (s.readV ((formOf i).rmNum rm)))) :
    WritesRegister i m s (formOf i).regNum R := by
  obtain ⟨pc, hpc⟩ := nextPc_of_ready hr
  refine writesRegister_of_exec hpc ?_ hR
  rw [← formOf_len] at hpc
  rw [exec_load hd, loadOrCopy_reg _ m s rm pc hrm (frontChecks_of_load hr hd) hpc, outcome_ok]

/-- A register copy by opcode 11. -/
theorem writesRegister_copy_store {rm : BitVec 3} {R : Vec → Vec → Prop} (hd : directionOf i = .store)
    (hrm : (formOf i).rm = .reg rm) (hr : Ready i m s)
    (hR : R (s.readV ((formOf i).rmNum rm))
      ((formOf i).result s (s.readV ((formOf i).rmNum rm)) (s.readV (formOf i).regNum))) :
    WritesRegister i m s ((formOf i).rmNum rm) R := by
  obtain ⟨pc, hpc⟩ := nextPc_of_ready hr
  refine writesRegister_of_exec hpc ?_ hR
  rw [← formOf_len] at hpc
  rw [exec_store hd, storeOrCopy_reg _ m s rm pc hrm (frontChecks_of_store hr hd) hpc, outcome_ok]

/-- A load: the destination is made of a source whose active elements are those of memory. -/
theorem writesRegister_load {mf : MemForm} {R : Vec → Vec → Prop} (hd : directionOf i = .load)
    (hrm : (formOf i).rm = .mem mf) (hr : Ready i m s) (ha : Addressable (formOf i) m s mf)
    (hread : Readable (formOf i).vl m s ((formOf i).linearAddr m s mf) ((formOf i).mask s))
    (hR : ∀ src : Vec,
      (∀ j : Fin 16, j.val < (formOf i).vl.elems → active ((formOf i).mask s) j.val = true →
        FromMem m s ((formOf i).linearAddr m s mf) j src[j]) →
      R (s.readV (formOf i).regNum) ((formOf i).result s (s.readV (formOf i).regNum) src)) :
    WritesRegister i m s (formOf i).regNum R := by
  obtain ⟨pc, hpc⟩ := nextPc_of_ready hr
  obtain ⟨es, hes⟩ := readElems_of_readable _ m s _ _ hread
  refine writesRegister_of_exec hpc ?_ (hR _ (fromMem_of_readElems _ m s _ _ es hes))
  rw [← formOf_len] at hpc
  rw [exec_load hd, loadOrCopy_mem _ m s mf pc _ es hrm (frontChecks_of_load hr hd)
    (memAddress_of_addressable _ m s mf ha) hes hpc, outcome_ok]

/-- A store whose bytes are known answers the state with them written. -/
theorem exec_store_mem {mf : MemForm} {cells : List Host.Cell} {pc : Word} (hd : directionOf i = .store)
    (hrm : (formOf i).rm = .mem mf) (hr : Ready i m s) (ha : Addressable (formOf i) m s mf)
    (hcells : storeCells m s ((formOf i).linearAddr m s mf) ((formOf i).mask s) (formOf i).elems
      (s.readV (formOf i).regNum) = .ok cells) (hpc : nextPc m s i.len = .ok pc) :
    exec i s = .next ((s.setMem (s.mem.writeCells cells)).advance pc) := by
  rw [← formOf_len] at hpc
  rw [exec_store hd, storeOrCopy_mem _ m s mf pc _ cells hrm (frontChecks_of_store hr hd)
    (memAddress_of_addressable _ m s mf ha) hcells hpc, outcome_ok]

theorem writesMemory_store {mf : MemForm} (hd : directionOf i = .store)
    (hrm : (formOf i).rm = .mem mf) (hr : Ready i m s) (ha : Addressable (formOf i) m s mf)
    (hwrite : Writable (formOf i).vl m s ((formOf i).linearAddr m s mf) ((formOf i).mask s)) :
    WritesMemory i m s (formOf i).vl ((formOf i).linearAddr m s mf) ((formOf i).mask s)
      (s.readV (formOf i).regNum) := by
  obtain ⟨pc, hpc⟩ := nextPc_of_ready hr
  obtain ⟨cells, hcells⟩ := storeCells_of_writable _ m s _ _ (s.readV (formOf i).regNum) hwrite
  refine ⟨_, exec_store_mem hd hrm hr ha hcells hpc, onlyMemoryChanged_setMem_advance s _ pc,
    advancesPc_of_nextPc m s _ i.len pc hpc rfl, fun j hj hact c hc p hp => ?_, fun p hp => ?_⟩
  · exact byte_of_storeCells _ m s _ _ _ cells hcells p ⟨j, hj, hact, c, hc, hp⟩
  · exact byte_of_storeCells_other _ m s _ _ _ cells hcells p hp

end

/-! ## The value of the destination in each shape (R141, R150, R171) -/

section
variable {P : Fin 16 → Elem → Prop} (old src : Vec)

theorem keepsUpper_mergeLow (h : ∀ j : Fin 16, j.val < 4 → P j src[j]) : KeepsUpper P old (mergeLow old src) := by
  intro j
  rw [Fin.getElem_fin, getElem_mergeLow]
  split_ifs with hj
  · exact h j hj
  · rfl

theorem zeroesUpper_zeroAbove (vl : VL) (h : ∀ j : Fin 16, j.val < vl.elems → P j src[j]) :
    ZeroesUpper vl P (zeroAbove vl src) := by
  intro j
  rw [Fin.getElem_fin, getElem_zeroAbove]
  split_ifs with hj
  · exact h j hj
  · rfl

theorem maskedCopy_regResult (vl : VL) (mask : Option KMask) (z : Bool)
    (h : ∀ j : Fin 16, j.val < vl.elems → active mask j.val = true → P j src[j]) :
    MaskedCopy vl mask z P old (regResult vl mask z old src) := by
  intro j
  rw [Fin.getElem_fin, getElem_regResult]
  split_ifs with hj hact hz
  · exact h j hj hact
  · rfl
  · rfl
  · rfl

end

/-! ## The legacy forms (R141, R142) -/

/-- Settles O24: by `mergeLow`, on the registers of R93. -/
theorem legacyFormsCopyRegisters : Obligations.LegacyFormsCopyRegisters := by
  intro m s ps rex reg rm
  rw [vnum_eq, vnum_eq]
  exact ⟨fun hr => writesRegister_copy_load rfl rfl hr (keepsUpper_mergeLow _ _ fun _ _ => rfl),
    fun hr => writesRegister_copy_store rfl rfl hr (keepsUpper_mergeLow _ _ fun _ _ => rfl)⟩

/-- Settles O25: by `mergeLow`, on elements read from memory. -/
theorem legacyLoadReadsMemory : Obligations.LegacyLoadReadsMemory := by
  rintro m s ps rex reg mf la hr ha rfl hread
  rw [vnum_eq]
  exact writesRegister_load rfl rfl hr ha hread fun src hsrc => keepsUpper_mergeLow _ _ fun j hj => hsrc j hj rfl

/-- Settles O26: a store without a mask. -/
theorem legacyStoreWritesMemory : Obligations.LegacyStoreWritesMemory := by
  intro m s ps rex reg mf hr ha hwrite
  rw [vnum_eq]
  exact writesMemory_store rfl rfl hr ha hwrite

/-! ## The VEX forms (R150 to R154) -/

section
variable {i : Instr} {m : Mode} {s : State} {rm : BitVec 3} {mf : MemForm} {d src : VNum}

theorem result_vex (h : (formOf i).shape = .vex) (old a : Vec) :
    (formOf i).result s old a = zeroAbove (formOf i).vl a := by
  rw [Form.result, h]

theorem vexCopies_load (hshape : (formOf i).shape = .vex) (hd : directionOf i = .load)
    (hrm : (formOf i).rm = .reg rm) (hdst : d = (formOf i).regNum) (hsrc : src = (formOf i).rmNum rm) :
    VexCopies i m s (formOf i).vl d src := by
  subst hdst hsrc
  refine fun hr => writesRegister_copy_load hd hrm hr ?_
  rw [result_vex hshape]
  exact zeroesUpper_zeroAbove _ _ fun _ _ => rfl

theorem vexCopies_store (hshape : (formOf i).shape = .vex) (hd : directionOf i = .store)
    (hrm : (formOf i).rm = .reg rm) (hdst : d = (formOf i).rmNum rm) (hsrc : src = (formOf i).regNum) :
    VexCopies i m s (formOf i).vl d src := by
  subst hdst hsrc
  refine fun hr => writesRegister_copy_store hd hrm hr ?_
  rw [result_vex hshape]
  exact zeroesUpper_zeroAbove _ _ fun _ _ => rfl

theorem vexLoads_of_row (hshape : (formOf i).shape = .vex) (hd : directionOf i = .load)
    (hrm : (formOf i).rm = .mem mf) (hmask : (formOf i).mask s = none) (hdst : d = (formOf i).regNum) :
    VexLoads i m s (formOf i).vl mf d := by
  subst hdst
  refine fun hr ha hread => writesRegister_load hd hrm hr ha (by rwa [hmask]) fun a hsrc => ?_
  rw [result_vex hshape]
  exact zeroesUpper_zeroAbove _ _ fun j hj => hsrc j hj (by rw [hmask, active_none])

theorem plainStores_of_row (hd : directionOf i = .store) (hrm : (formOf i).rm = .mem mf)
    (hmask : (formOf i).mask s = none) (hsrc : src = (formOf i).regNum) :
    PlainStores i m s (formOf i).vl mf src := by
  subst hsrc
  intro hr ha hwrite
  rw [← hmask] at hwrite ⊢
  exact writesMemory_store hd hrm hr ha hwrite

end

/-- Settles O27: by `zeroAbove`, on the registers of R93. -/
theorem vexFormsCopyRegisters : Obligations.VexFormsCopyRegisters := by
  intro m s ps rex reg rm
  simp only [vnum_eq]
  exact ⟨fun v => ⟨vexCopies_load rfl rfl rfl rfl rfl, vexCopies_store rfl rfl rfl rfl rfl,
      vexCopies_load rfl rfl rfl rfl rfl, vexCopies_store rfl rfl rfl rfl rfl⟩,
    fun v => ⟨vexCopies_load rfl rfl rfl rfl rfl, vexCopies_store rfl rfl rfl rfl rfl,
      vexCopies_load rfl rfl rfl rfl rfl, vexCopies_store rfl rfl rfl rfl rfl⟩⟩

/-- Settles O28: by `zeroAbove`, on elements read from memory. -/
theorem vexLoadsReadMemory : Obligations.VexLoadsReadMemory := by
  intro m s ps rex reg mf
  simp only [vnum_eq]
  exact ⟨fun v => ⟨vexLoads_of_row rfl rfl rfl rfl rfl, vexLoads_of_row rfl rfl rfl rfl rfl⟩,
    fun v => ⟨vexLoads_of_row rfl rfl rfl rfl rfl, vexLoads_of_row rfl rfl rfl rfl rfl⟩⟩

/-- Settles O29: stores without a mask. -/
theorem vexStoresWriteMemory : Obligations.VexStoresWriteMemory := by
  intro m s ps rex reg mf
  simp only [vnum_eq]
  exact ⟨fun v => ⟨plainStores_of_row rfl rfl rfl rfl, plainStores_of_row rfl rfl rfl rfl⟩,
    fun v => ⟨plainStores_of_row rfl rfl rfl rfl, plainStores_of_row rfl rfl rfl rfl⟩⟩

/-! ## The EVEX forms (R171 to R178) -/

section
variable {i : Instr} {m : Mode} {s : State} {rm : BitVec 3} {mf : MemForm} {d src : VNum} {e : Evex}

theorem result_evex (h : (formOf i).shape = .evex) (old a : Vec) :
    (formOf i).result s old a = regResult (formOf i).vl ((formOf i).mask s) (formOf i).z old a := by
  rw [Form.result, h]

/-- The fields of the EVEX bytes that say which elements are copied. -/
def MaskedBy (i : Instr) (e : Evex) : Prop := (formOf i).shape = .evex ∧ (formOf i).aaa = e.aaa ∧ (formOf i).z = e.z

theorem mask_of_maskedBy (h : MaskedBy i e) : (formOf i).mask s = maskOf s e.aaa := by
  rw [Form.mask, h.2.1, maskOf]

theorem evexCopies_load (he : MaskedBy i e) (hd : directionOf i = .load) (hrm : (formOf i).rm = .reg rm)
    (hdst : d = (formOf i).regNum) (hsrc : src = (formOf i).rmNum rm) : EvexCopies i m s (formOf i).vl e d src := by
  subst hdst hsrc
  refine fun hr => writesRegister_copy_load hd hrm hr ?_
  rw [result_evex he.1, mask_of_maskedBy he, he.2.2]
  exact maskedCopy_regResult _ _ _ _ _ fun _ _ _ => rfl

theorem evexCopies_store (he : MaskedBy i e) (hd : directionOf i = .store) (hrm : (formOf i).rm = .reg rm)
    (hdst : d = (formOf i).rmNum rm) (hsrc : src = (formOf i).regNum) : EvexCopies i m s (formOf i).vl e d src := by
  subst hdst hsrc
  refine fun hr => writesRegister_copy_store hd hrm hr ?_
  rw [result_evex he.1, mask_of_maskedBy he, he.2.2]
  exact maskedCopy_regResult _ _ _ _ _ fun _ _ _ => rfl

theorem evexLoads_of_row (he : MaskedBy i e) (hd : directionOf i = .load) (hrm : (formOf i).rm = .mem mf)
    (hdst : d = (formOf i).regNum) : EvexLoads i m s (formOf i).vl e mf d := by
  subst hdst
  intro hr ha hread
  rw [← mask_of_maskedBy he] at hread ⊢
  refine writesRegister_load hd hrm hr ha hread fun a hsrc => ?_
  rw [result_evex he.1, he.2.2]
  exact maskedCopy_regResult _ _ _ _ _ hsrc

theorem evexStores_of_row (he : MaskedBy i e) (hd : directionOf i = .store) (hrm : (formOf i).rm = .mem mf)
    (hsrc : src = (formOf i).regNum) : EvexStores i m s (formOf i).vl e mf src := by
  subst hsrc
  intro hr ha hwrite
  rw [← mask_of_maskedBy he] at hwrite ⊢
  exact writesMemory_store hd hrm hr ha hwrite

end

/-- Settles O30: by `regResult`, on the registers of R93. -/
theorem evexFormsCopyRegisters : Obligations.EvexFormsCopyRegisters := by
  rintro m s ps rex e reg rm a b rfl rfl
  simp only [vnum_eq]
  exact ⟨evexCopies_load ⟨rfl, rfl, rfl⟩ rfl rfl rfl rfl, evexCopies_load ⟨rfl, rfl, rfl⟩ rfl rfl rfl rfl,
    evexCopies_load ⟨rfl, rfl, rfl⟩ rfl rfl rfl rfl, evexCopies_store ⟨rfl, rfl, rfl⟩ rfl rfl rfl rfl,
    evexCopies_store ⟨rfl, rfl, rfl⟩ rfl rfl rfl rfl, evexCopies_store ⟨rfl, rfl, rfl⟩ rfl rfl rfl rfl⟩

/-- Settles O31: by `regResult`, on elements read from memory. -/
theorem evexLoadsReadMemory : Obligations.EvexLoadsReadMemory := by
  intro m s ps rex e reg mf
  simp only [vnum_eq]
  exact ⟨evexLoads_of_row ⟨rfl, rfl, rfl⟩ rfl rfl rfl, evexLoads_of_row ⟨rfl, rfl, rfl⟩ rfl rfl rfl,
    evexLoads_of_row ⟨rfl, rfl, rfl⟩ rfl rfl rfl⟩

/-- Settles O32: stores of the active elements. -/
theorem evexStoresWriteMemory : Obligations.EvexStoresWriteMemory := by
  intro m s ps rex e reg mf
  simp only [vnum_eq]
  exact ⟨evexStores_of_row ⟨rfl, rfl, rfl⟩ rfl rfl rfl, evexStores_of_row ⟨rfl, rfl, rfl⟩ rfl rfl rfl,
    evexStores_of_row ⟨rfl, rfl, rfl⟩ rfl rfl rfl⟩

/-! ## Elements that are not active (R57) -/

theorem aaa_of_not_evex (i : Instr) (h : (formOf i).shape ≠ .evex) : (formOf i).aaa = 0#3 := by
  cases i <;> simp_all [formOf, legacyForm, vex2Form, vex3Form, evexForm]

/-- Only an EVEX form has a writemask. -/
theorem shape_of_mask {i : Instr} {s : State} {k : KMask} (h : (formOf i).mask s = some k) :
    (formOf i).shape = .evex := by
  by_contra hshape
  rw [Form.mask, if_pos (aaa_of_not_evex i hshape)] at h
  cases h

theorem storeAddrs_inactive (la : Nat) (k : KMask) (js : List Nat) (h : ∀ j ∈ js, k.getLsbD j = false) :
    storeAddrs la (some k) js = [] := by
  rw [List.eq_nil_iff_forall_not_mem]
  intro a ha
  obtain ⟨j, hj, hact, -⟩ := (mem_storeAddrs la _ js a).1 ha
  rw [active, h j hj] at hact
  cases hact

/-- A store without an active element has no bytes to write. -/
theorem storeCells_inactive (m : Mode) (s : State) (la : Nat) (k : KMask) (js : List Nat) (src : Vec)
    (h : ∀ j ∈ js, k.getLsbD j = false) : storeCells m s la (some k) js src = .ok [] := by
  refine (storeCells_ok m s la _ js src _).2 ?_
  rw [storeAddrs_inactive la k js h]
  exact ⟨nofun, [], rfl, rfl⟩

/-- Settles O33: no element is read or written, so none need be translated. -/
theorem inactiveElementsAreNotAccessed : Obligations.InactiveElementsAreNotAccessed := by
  intro i m s mf k hr hrm ha hmask hk
  have hinactive (j : Nat) (hj : j < (formOf i).vl.elems) : active ((formOf i).mask s) j = false := by
    rw [hmask]
    exact hk j hj
  cases hd : directionOf i with
  | load =>
    have hread : Readable (formOf i).vl m s ((formOf i).linearAddr m s mf) ((formOf i).mask s) := by
      intro j hj hact
      rw [hinactive j hj] at hact
      cases hact
    obtain ⟨t, hexec, hframe, hpc, hres⟩ := writesRegister_load
      (R := fun old new => ∃ src, new = (formOf i).result s old src) hd hrm hr ha hread fun src _ => ⟨src, rfl⟩
    refine ⟨t, hexec, hpc, hframe, fun j => ?_⟩
    obtain ⟨src, hsrc⟩ := hres
    rw [hsrc, result_evex (shape_of_mask hmask), Fin.getElem_fin, getElem_regResult]
    by_cases hj : j.val < (formOf i).vl.elems
    · cases (formOf i).z <;> simp [hj, hinactive j.val hj]
    · simp [hj]
  | store =>
    obtain ⟨pc, hpc⟩ := nextPc_of_ready hr
    have hcells := storeCells_inactive m s ((formOf i).linearAddr m s mf) k (formOf i).elems
      (s.readV (formOf i).regNum) fun j hj => hk j (List.mem_range.1 hj)
    rw [← hmask] at hcells
    exact ⟨_, exec_store_mem hd hrm hr ha hcells hpc, advancesPc_of_nextPc m s _ i.len pc hpc rfl, rfl⟩
  | neither => exact absurd hd (direction_of_legal m i hr.1.2.2.1)

/-! ## A next pc out of range (R25) -/

/-- Settles O23: stage 6 refuses what the stages before it let through. -/
theorem nextPcOutOfRangeIsRefused : Obligations.NextPcOutOfRangeIsRefused := by
  intro i m s ha hu hts hop hnext
  have hfront := frontChecks_of_usable i m s ha hu hts
  have hpc : nextPc m s (formOf i).len = .error (.refused .pcOutOfRange) := by
    rw [formOf_len]
    exact nextPc_error m s i.len hnext
  rw [exec_eq]
  rcases runForm_of_legal m i s ha.2.2.1 with ⟨hd, hst, hrun⟩ | ⟨hd, hst, hrun⟩
  · rw [hst] at hfront
    rw [hrun]
    cases hrm : (formOf i).rm with
    | reg rm => simp only [loadOrCopy, hfront, ok_bind, hrm, finish, nextPc_writeV, hpc, outcome_refused]
    | mem mf =>
      obtain ⟨haddr, hread, -⟩ := hop mf hrm
      obtain ⟨es, hes⟩ := readElems_of_readable _ m s _ _ (hread hd)
      simp only [loadOrCopy, hfront, ok_bind, hrm, memAddress_of_addressable _ m s mf haddr, hes, finish,
        nextPc_writeV, hpc, outcome_refused]
  · rw [hst] at hfront
    rw [hrun]
    cases hrm : (formOf i).rm with
    | reg rm => simp only [storeOrCopy, hfront, ok_bind, hrm, finish, nextPc_writeV, hpc, outcome_refused]
    | mem mf =>
      obtain ⟨haddr, -, hwrite⟩ := hop mf hrm
      obtain ⟨cells, hcells⟩ := storeCells_of_writable _ m s _ _ (s.readV (formOf i).regNum) (hwrite hd)
      simp only [storeOrCopy, hfront, ok_bind, hrm, memAddress_of_addressable _ m s mf haddr, hcells, finish,
        nextPc_setMem, hpc, outcome_refused]

end Sys2Proof.Proofs
end

section
/-! PROOFS for 60_exceptions.md, and for the stops of 20_memory.md: which fault or refusal ends an instruction, and for
which reason. -/

namespace Sys2Proof.Proofs

open Sys2Proof.Machine Sys2Proof.Safety Sys2Proof.Laws

/-! ## A stop of one stage is the outcome -/

section
variable {i : Instr} {m : Mode} {s : State} {mf : MemForm} {e : Stop}

theorem exec_of_frontChecks_error (hl : Legal m i) (h : frontChecks (formOf i) (isStore i) s = .error e) :
    exec i s = outcome (.error e) := by
  rw [exec_eq]
  rcases runForm_of_legal m i s hl with ⟨-, hst, hrun⟩ | ⟨-, hst, hrun⟩
  · rw [hst] at h
    rw [hrun, loadOrCopy, h, error_bind]
  · rw [hst] at h
    rw [hrun, storeOrCopy, h, error_bind]

/-- What stage 4 reports of a usable form, whether or not the next pc fits. -/
theorem exec_of_memAddress_error (ha : Admitted i m s) (hu : Usable (formOf i) s) (hts : s.ts = false)
    (hrm : (formOf i).rm = .mem mf) (h : memAddress (formOf i) m s mf = .error e) :
    exec i s = outcome (.error e) := by
  have hfront := frontChecks_of_usable i m s ha hu hts
  rw [exec_eq]
  rcases runForm_of_legal m i s ha.2.2.1 with ⟨-, hst, hrun⟩ | ⟨-, hst, hrun⟩
  · rw [hst] at hfront
    simp only [hrun, loadOrCopy, hfront, ok_bind, hrm, h, error_bind]
  · rw [hst] at hfront
    simp only [hrun, storeOrCopy, hfront, ok_bind, hrm, h, error_bind]

theorem exec_of_readElems_error (hd : directionOf i = .load) (hr : Ready i m s) (hrm : (formOf i).rm = .mem mf)
    (ha : Addressable (formOf i) m s mf)
    (h : readElems m s ((formOf i).linearAddr m s mf) ((formOf i).mask s) (formOf i).elems = .error e) :
    exec i s = outcome (.error e) := by
  have hfront := frontChecks_of_load hr hd
  rw [exec_load hd]
  simp only [loadOrCopy, hfront, ok_bind, hrm, memAddress_of_addressable _ m s mf ha, h, error_bind]

theorem exec_of_storeCells_error (hd : directionOf i = .store) (hr : Ready i m s) (hrm : (formOf i).rm = .mem mf)
    (ha : Addressable (formOf i) m s mf)
    (h : storeCells m s ((formOf i).linearAddr m s mf) ((formOf i).mask s) (formOf i).elems
      (s.readV (formOf i).regNum) = .error e) :
    exec i s = outcome (.error e) := by
  have hfront := frontChecks_of_store hr hd
  rw [exec_store hd]
  simp only [storeOrCopy, hfront, ok_bind, hrm, memAddress_of_addressable _ m s mf ha, h, error_bind]

end

/-! ## The checks at decode (R83, R88, R90, R112) -/

/-- Settles O38: the length check comes before the #UD causes. -/
theorem tooLongRaisesGp : Obligations.TooLongRaisesGp :=
  fun i m _ hm hw hlen => exec_of_long hm (wf_addressing16 m i hw) hlen

theorem decodeUd_of_lock (f : Form) (st : Bool) (h : .lock ∈ f.ps) : f.decodeUd st = true := by
  simp [Form.decodeUd, h]

theorem decodeUd_of_prefix (f : Form) (st : Bool) (hshape : f.shape ≠ .legacy)
    (h : f.hasRex = true ∨ f.ps.any LegacyPrefix.isMandatory = true) : f.decodeUd st = true := by
  have hcause : (f.shape != .legacy && (f.hasRex || f.ps.any LegacyPrefix.isMandatory)) = true := by
    rw [Bool.and_eq_true, bne_iff_ne, Bool.or_eq_true]
    exact ⟨hshape, h⟩
  rw [Form.decodeUd, hcause]
  simp

/-- Settles O35: each of these prefixes is a #UD cause of the form. -/
theorem illegalPrefixesRaiseUd : Obligations.IllegalPrefixesRaiseUd := by
  intro i m s hm hw hlen hcase
  refine exec_of_decodeUd hm hw hlen ?_
  rcases hcase with hlock | ⟨hshape, hrex | hmandatory⟩
  · exact decodeUd_of_lock _ _ hlock
  · exact decodeUd_of_prefix _ _ hshape (.inl hrex)
  · exact decodeUd_of_prefix _ _ hshape (.inr (any_mandatory hmandatory))

/-- R90 (d): a reserved-length row of at most 15 bytes stops with #UD, without another cause. -/
theorem exec_of_neither {i : Instr} {m : Mode} {s : State} (hd : directionOf i = .neither)
    (hm : launchMode s = .ok m) (hw : i.wf m = true) (hlen : i.len ≤ 15) : exec i s = .fault .invalidOpcode := by
  rw [← formOf_len] at hlen
  rw [exec_eq, runForm, hd]
  rw [reservedLength_eq hm (wf_addressing16 m i hw), if_neg (Nat.not_lt.2 hlen), outcome_fault]

/-- Settles O34: both rows are of neither direction. -/
theorem reservedLengthRowsRaiseUd : Obligations.ReservedLengthRowsRaiseUd :=
  fun _ _ _ _ _ _ _ hm hw hlen => ⟨exec_of_neither rfl hm hw hlen, exec_of_neither rfl hm hw hlen⟩

theorem decodeUd_of_evex (vl : VL) (st : Bool) (ps : List LegacyPrefix) (rex : Option Rex) (e : Evex)
    (reg : BitVec 3) (rm : RegMem)
    (h : e.w = true ∨ e.one = false ∨ e.bc = true ∨ e.vHi = false ∨ (e.z = true ∧ e.aaa = 0#3) ∨
      (e.z = true ∧ st = true ∧ rm.isMem = true)) :
    (evexForm vl ps rex e reg rm).decodeUd st = true := by
  rcases h with h | h | h | h | ⟨hz, haaa⟩ | ⟨hz, hst, hrm⟩
  · simp [Form.decodeUd, evexForm, evexBadField, h]
  · simp [Form.decodeUd, evexForm, evexBadField, h]
  · simp [Form.decodeUd, evexForm, evexBadField, h]
  · simp [Form.decodeUd, evexForm, evexBadField, h]
  · simp [Form.decodeUd, evexForm, hz, haaa]
  · simp [Form.decodeUd, evexForm, hz, hst, hrm]

/-- The rows that `evexInstr` chooses from: of the direction of the opcode, or of neither with the reserved length. -/
theorem evexInstr_direction (ll : BitVec 2) (st : Bool) (ps : List LegacyPrefix) (rex : Option Rex) (e : Evex)
    (reg : BitVec 3) (rm : RegMem) :
    isStore (evexInstr ll st ps rex e reg rm) = st ∨ directionOf (evexInstr ll st ps rex e reg rm) = .neither := by
  rcases evexLength_cases ll with rfl | rfl | rfl | rfl
  · cases st <;> exact .inl rfl
  · cases st <;> exact .inl rfl
  · cases st <;> exact .inl rfl
  · cases st <;> exact .inr rfl

/-- Settles O37: each of these fields is a #UD cause of the form, and the reserved length is one by itself. -/
theorem evexReservedFieldsRaiseUd : Obligations.EvexReservedFieldsRaiseUd := by
  intro m s ll st ps rex e reg rm hm hw hlen hcase
  obtain ⟨-, -, hilen⟩ := evexInstr_parts st ps rex reg rm ll e
  rw [← hilen] at hlen
  rw [← (evexInstr_encode_wf ps rex st reg rm m ll e).2] at hw
  rcases evexInstr_direction ll st ps rex e reg rm with hst | hneither
  · obtain ⟨vl, hform⟩ := evexInstr_form st ps rex reg rm ll e
    refine exec_of_decodeUd hm hw hlen ?_
    rw [hst, hform]
    exact decodeUd_of_evex vl st ps rex e reg rm hcase
  · exact exec_of_neither hneither hm hw hlen

/-- An encoding of M32 is one of M64. -/
theorem wf_m64_of_m32 {i : Instr} (h : i.wf .m32 = true) : i.wf .m64 = true := by
  cases i <;> simp_all [Instr.wf, legacyWf, vex2Wf, vex3Wf, evexWf, operandsWf]

/-- Settles O9: with no #UD cause, the check of the extension bits is the one that stops the instruction. -/
theorem m32ExtensionBitsAreRefused : Obligations.M32ExtensionBitsAreRefused := by
  intro i s hm hw hl hlen hext
  obtain ⟨hud, -⟩ := clean_of_legal .m64 i (wf_m64_of_m32 hw) hl
  have hbit : ((formOf i).r || (formOf i).x || (formOf i).b || (formOf i).rHi) = true := by
    rcases hext with h | h <;> simp [h]
  have hdec : decodeChecks (formOf i) (isStore i) .m32 = .error (.refused .extensionBit) := by
    rw [decodeChecks, if_neg (wf_addressing16 .m32 i hw), if_neg (by rw [formOf_len]; omega), hud,
      if_neg Bool.false_ne_true, if_pos ⟨rfl, hbit⟩, refuse]
  rw [exec_of_frontChecks_error hl (frontChecks_of_decodeChecks hm hdec), outcome_refused]

/-! ## The enable checks (R212) -/

/-- Settles O39: the enable check comes before all that depends on the operand. -/
theorem disabledFormsRaiseUd : Obligations.DisabledFormsRaiseUd :=
  fun _ _ _ ha hu => exec_of_frontChecks_fault ha.2.2.1 (frontChecks_of_not_usable ha hu)

/-! ## The address of the operand (R59, R214, R215) -/

/-- Settles O45: the check of the wrap is the first of stage 4. -/
theorem wrappingOperandIsRefused : Obligations.WrappingOperandIsRefused := by
  intro i m s mf ha hu hts hrm hfits
  rw [fits_iff, Bool.not_eq_false] at hfits
  have hla : memAddress (formOf i) m s mf = .error (.refused .operandWraps) := by
    rw [memAddress, if_pos hfits, refuse]
  rw [exec_of_memAddress_error ha hu hts hrm hla, outcome_refused]

/-- The fault of an operand with a non-canonical byte: #SS through SS, else #GP. -/
def canonicalFault (f : Form) (m : Mode) (mf : MemForm) : Fault :=
  if f.segment m mf = .ss then .stackSegment else .generalProtection

theorem memAddress_of_not_canonical {f : Form} {m : Mode} {s : State} {mf : MemForm} (hfits : Fits f m s mf)
    (h : ¬ CanonicalOperand f m s mf) : memAddress f m s mf = .error (.fault (canonicalFault f m mf)) := by
  rw [fits_iff] at hfits
  rw [canonicalOperand_iff, Bool.not_eq_false] at h
  rw [memAddress, hfits, if_neg Bool.false_ne_true, if_pos h, canonicalFault]
  split_ifs <;> rfl

/-- Stage 4 reports a fault other than #AC for a non-canonical byte only, in M64. -/
theorem memAddress_fault {f : Form} {m : Mode} {s : State} {mf : MemForm} {flt : Fault}
    (h : memAddress f m s mf = .error (.fault flt)) :
    flt = .alignmentCheck ∨ (m = .m64 ∧ ¬ CanonicalOperand f m s mf ∧ flt = canonicalFault f m mf) := by
  unfold memAddress at h
  split_ifs at h with hwraps hcanon hss hac
  · cases h
  · cases h
    have hm64 := (Bool.and_eq_true_iff.1 hcanon).1
    exact .inr ⟨by simpa using hm64, by simp [canonicalOperand_iff, hcanon], by rw [canonicalFault, if_pos hss]⟩
  · cases h
    have hm64 := (Bool.and_eq_true_iff.1 hcanon).1
    exact .inr ⟨by simpa using hm64, by simp [canonicalOperand_iff, hcanon], by rw [canonicalFault, if_neg hss]⟩
  · cases h
    exact .inl rfl

/-- #SS and #GP come from the length, or from a non-canonical byte of the operand in M64. -/
theorem exec_segment_fault {i : Instr} {s : State} {flt : Fault} (h : exec i s = .fault flt)
    (hflt : flt = .stackSegment ∨ flt = .generalProtection) :
    (flt = .generalProtection ∧ 15 < i.len) ∨
    (launchMode s = .ok .m64 ∧ ∃ mf, (formOf i).rm = .mem mf ∧ ¬ CanonicalOperand (formOf i) .m64 s mf ∧
      flt = canonicalFault (formOf i) .m64 mf) := by
  rcases exec_fault_cases h with hfront | ⟨m, mf, hm, hrm, hla | ⟨kd, a, hbyte⟩⟩
  · rcases hfront with rfl | rfl | ⟨rfl, hlen⟩
    · simp at hflt
    · simp at hflt
    · exact .inl ⟨rfl, by rwa [formOf_len] at hlen⟩
  · rcases memAddress_fault hla with rfl | ⟨rfl, hcanon, hfault⟩
    · simp at hflt
    · exact .inr ⟨hm, mf, hrm, hcanon, hfault⟩
  · obtain ⟨code, rfl⟩ := translateByte_fault hbyte
    simp at hflt

/-- Settles O41: by the fault that stage 4 reports for a non-canonical byte. -/
theorem stackSegmentFaultRule : Obligations.StackSegmentFaultRule := by
  refine ⟨fun i s mf ha hu hts hrm hfits hss hcanon => ?_, fun i s h => ?_, rfl⟩
  · rw [exec_of_memAddress_error ha hu hts hrm (memAddress_of_not_canonical hfits hcanon), canonicalFault, if_pos hss,
      outcome_fault]
  · rcases exec_segment_fault h (.inl rfl) with ⟨hne, -⟩ | ⟨hm, mf, hrm, hcanon, hfault⟩
    · cases hne
    · refine ⟨hm, mf, hrm, ?_, hcanon⟩
      by_contra hss
      rw [canonicalFault, if_neg hss] at hfault
      cases hfault

/-- Settles O42: by the length check, and the fault that stage 4 reports for a non-canonical byte. -/
theorem generalProtectionRule : Obligations.GeneralProtectionRule := by
  refine ⟨fun i s mf ha hu hts hrm hfits hss hcanon => ?_, tooLongRaisesGp, fun i s h => ?_, rfl⟩
  · rw [exec_of_memAddress_error ha hu hts hrm (memAddress_of_not_canonical hfits hcanon), canonicalFault, if_neg hss,
      outcome_fault]
  · rcases exec_segment_fault h (.inr rfl) with ⟨-, hlen⟩ | ⟨hm, mf, hrm, hcanon, hfault⟩
    · exact .inl hlen
    · refine .inr ⟨hm, mf, hrm, fun hss => ?_, hcanon⟩
      rw [canonicalFault, if_pos hss] at hfault
      cases hfault

/-! ## The bytes of the operand (R66, R216) -/

/-- Settles O46: the check of the program text comes before any byte is translated. -/
theorem storeToProgramIsRefused : Obligations.StoreToProgramIsRefused := by
  intro i m s mf j c hd hr hrm ha hj hact hc hin
  have hany : (storeAddrs ((formOf i).linearAddr m s mf) ((formOf i).mask s) (formOf i).elems).any s.inProgram
      = true :=
    List.any_eq_true.2 ⟨_, (mem_storeAddrs _ _ _ _).2 ⟨j, List.mem_range.2 hj, hact, c, hc, rfl⟩, hin⟩
  rw [exec_of_storeCells_error hd hr hrm ha (by rw [storeCells, if_pos hany, refuse]), outcome_refused]

theorem range_split {j n : Nat} (h : j < n) : ∃ post, List.range n = List.range j ++ j :: post := by
  obtain ⟨k, rfl⟩ : ∃ k, n = j + (k + 1) := ⟨n - j - 1, by omega⟩
  rw [List.range_add, List.range_succ_eq_map]
  exact ⟨_, by rw [List.map_cons, Nat.add_zero]⟩

theorem elemAddrs_split (la j : Nat) {c : Nat} (hc : c < 4) :
    ∃ pre post, elemAddrs la j = pre ++ (la + 4 * j + c) :: post ∧
      ∀ a ∈ pre, ∃ c' < c, a = la + 4 * j + c' := by
  refine ⟨(elemAddrs la j).take c, (elemAddrs la j).drop (c + 1), ?_, fun a ha => ?_⟩
  · have hlt : c < (elemAddrs la j).length := hc
    have hget := elemAddrs_getD la j c hc
    rw [List.getD_eq_getElem _ _ hlt] at hget
    rw [← hget, List.getElem_cons_drop, List.take_append_drop]
  · obtain ⟨c', hc', rfl⟩ := List.mem_iff_getElem.1 ha
    rw [List.length_take, elemAddrs_length] at hc'
    refine ⟨c', by omega, ?_⟩
    rw [List.getElem_take, ← elemAddrs_getD la j c' (by omega), List.getD_eq_getElem]

theorem storeAddrs_append (la : Nat) (mask : Option KMask) (js js' : List Nat) :
    storeAddrs la mask (js ++ js') = storeAddrs la mask js ++ storeAddrs la mask js' := by
  induction js with
  | nil => rfl
  | cons j js ih =>
    simp only [List.cons_append, storeAddrs]
    split_ifs
    · rw [ih, List.append_assoc]
    · exact ih

section
variable {m : Mode} {s : State} {la : Nat} {mask : Option KMask} {kd : AccessKind} {j c : Nat} {e : Stop}

/-- The stop of the first byte of an element that has one. -/
theorem translateAll_elem_error (hc : c < 4) (hbefore : ∀ c' < c, ∃ p, translateByte m s kd (la + 4 * j + c') = .ok p)
    (herr : translateByte m s kd (la + 4 * j + c) = .error e) (pre post : List Nat)
    (hpre : ∀ a ∈ pre, ∃ p, translateByte m s kd a = .ok p) :
    translateAll m s kd (pre ++ elemAddrs la j ++ post) = .error e := by
  obtain ⟨pre', post', hsplit, hpre'⟩ := elemAddrs_split la j hc
  rw [hsplit, List.append_assoc, List.append_assoc, List.cons_append, ← List.append_assoc]
  refine translateAll_error m s kd _ _ _ e (fun a ha => ?_) herr
  rcases List.mem_append.1 ha with ha | ha
  · exact hpre a ha
  · obtain ⟨c', hc', rfl⟩ := hpre' a ha
    exact hbefore c' hc'

theorem readElem_error (hc : c < 4) (hbefore : ∀ c' < c, ∃ p, translateByte m s .read (la + 4 * j + c') = .ok p)
    (herr : translateByte m s .read (la + 4 * j + c) = .error e) : readElem m s la j = .error e := by
  have hall := translateAll_elem_error hc hbefore herr [] [] nofun
  rw [List.nil_append, List.append_nil] at hall
  rw [readElem, hall]

/-- A load stops at its first active element that cannot be read. -/
theorem readElems_error (pre post : List Nat)
    (hpre : ∀ j' ∈ pre, active mask j' = true → ∃ el, readElem m s la j' = .ok el) (hact : active mask j = true)
    (herr : readElem m s la j = .error e) : readElems m s la mask (pre ++ j :: post) = .error e := by
  induction pre with
  | nil => simp [readElems, hact, herr]
  | cons i pre ih =>
    have hrest := ih fun j' hj' => hpre j' (List.mem_cons_of_mem _ hj')
    rw [List.cons_append, readElems]
    split_ifs with hi
    · obtain ⟨el, hel⟩ := hpre i List.mem_cons_self hi
      rw [hel, hrest]
    · rw [hrest]

end

/-- Settles O44: the elements before, and the bytes before it in its element, are translated, so the byte's stop is the
first. -/
theorem operandPageFault : Obligations.OperandPageFault := by
  intro i m s mf la j c code a kd hr hrm ha hla hkd hprog hj hact hc hbefore herr
  obtain ⟨code', hpf⟩ := translateByte_fault herr
  obtain ⟨-, ha'⟩ := Fault.pageFault.inj hpf
  rw [hpf] at herr
  rw [← ha', ← outcome_fault, hpf]
  generalize Stop.fault (.pageFault code' (BitVec.ofNat 64 (la + 4 * j + c))) = e at herr ⊢
  have helem : ∀ c' < c, ∃ p, translateByte m s kd (la + 4 * j + c') = .ok p :=
    fun c' hc' => hbefore j (Nat.le_refl j) hact c' (by omega) (by omega)
  obtain ⟨post, hrange⟩ := range_split hj
  subst hla
  rcases runForm_of_legal m i s hr.1.2.2.1 with ⟨hd, -⟩ | ⟨hd, -⟩
  · obtain rfl : kd = .read := by rw [hkd, if_pos hd]
    have hread : readElems m s ((formOf i).linearAddr m s mf) ((formOf i).mask s) (formOf i).elems = .error e := by
      rw [Form.elems, hrange]
      refine readElems_error _ post (fun j' hj' hact' => ?_) hact (readElem_error hc helem herr)
      have hlt := List.mem_range.1 hj'
      exact readElem_exists m s _ j' fun c' hc' => hbefore j' (by omega) hact' c' hc' (by omega)
    exact exec_of_readElems_error hd hr hrm ha hread
  · obtain rfl : kd = .write := by rw [hkd, if_neg (by simp [hd])]
    have hnone : ¬ (storeAddrs ((formOf i).linearAddr m s mf) ((formOf i).mask s) (formOf i).elems).any s.inProgram
        = true := by
      rw [List.any_eq_true]
      rintro ⟨b, hb, hin⟩
      obtain ⟨j', hj', hact', c', hc', rfl⟩ := (mem_storeAddrs _ _ _ _).1 hb
      rw [hprog hd j' (List.mem_range.1 hj') hact' c' hc'] at hin
      cases hin
    have hwrite : translateAll m s .write
        (storeAddrs ((formOf i).linearAddr m s mf) ((formOf i).mask s) (formOf i).elems) = .error e := by
      rw [Form.elems, hrange, storeAddrs_append, storeAddrs, if_pos hact, ← List.append_assoc]
      refine translateAll_elem_error hc helem herr _ _ fun b hb => ?_
      obtain ⟨j', hj', hact', c', hc', rfl⟩ := (mem_storeAddrs _ _ _ _).1 hb
      have hlt := List.mem_range.1 hj'
      exact hbefore j' (by omega) hact' c' hc' (by omega)
    exact exec_of_storeCells_error hd hr hrm ha (by rw [storeCells, if_neg hnone, hwrite])

end Sys2Proof.Proofs
end

section
/-! PROOFS for 10_state.md and 60_exceptions.md: state that an instruction does not read (R23 to R28, R225). -/

namespace Sys2Proof.Proofs

open Sys2Proof.Machine Sys2Proof.Safety

theorem launchMode_congr {s s' : State} (hmode : s'.mode? = s.mode?) (htf : s'.tf = s.tf) (hflat : s'.flat = s.flat) :
    launchMode s' = launchMode s := by
  rw [launchMode, hmode, htf, hflat, launchMode]

/-! ## RFLAGS (R26) -/

/-- The state with other flags. -/
def withRflags (r : Word) (s : State) : State := { s with rflags := r }

/-- The stages read RFLAGS through VM, TF and AC. -/
theorem unread_withRflags (f : Form) {r : Word} {s : State} (hac : r.getLsbD 18 = s.rflags.getLsbD 18)
    (hvm : r.getLsbD 17 = s.rflags.getLsbD 17) (htf : r.getLsbD 8 = s.rflags.getLsbD 8) :
    Unread f (withRflags r) s where
  launchMode := by
    have hvm' : (withRflags r s).vm = s.vm := hvm
    have hmode : (withRflags r s).mode? = s.mode? := by
      simp only [State.mode?, hvm']
      rfl
    exact launchMode_congr hmode htf rfl
  enabled := rfl
  ts := rfl
  alignmentChecked := by simp only [State.alignmentChecked, State.am, State.ac, withRflags, hac]
  vaBits := rfl
  pc := rfl
  v := rfl
  mask := rfl
  mem := rfl
  draws := rfl
  inProgram := rfl
  segBase := rfl
  effAddr m _ := by funext mf; cases mf <;> rfl
  translateByte _ _ := rfl
  writeV _ _ _ := rfl
  setMem _ _ := rfl
  advance _ _ := rfl

theorem exec_rflags_eq {i : Instr} {s t : State} (h : exec i s = .next t) : t.rflags = s.rflags := by
  obtain ⟨m, pc, -, -, ⟨n, a, rfl⟩ | ⟨cells, rfl⟩⟩ := exec_cases i s t h
  · simp
  · simp

/-- Settles O48: the three bits are all that is read, and none is written. -/
theorem flagsAreReadOnlyThroughAcAndVm : Obligations.FlagsAreReadOnlyThroughAcAndVm :=
  fun i _ _ hac hvm htf => ⟨(unread_withRflags (formOf i) hac hvm htf).exec_mapNext, fun _ => exec_rflags_eq⟩

/-! ## CR0.EM and CR4.OSFXSR (R28) -/

/-- The state with other values of CR0 and CR4. -/
def withCr0Cr4 (c0 c4 : Word) (s : State) : State := { s with cr0 := c0, cr4 := c4 }

/-- A VEX or EVEX form reads neither bit: its enable check names OSXSAVE. -/
theorem unread_withCr0Cr4 {f : Form} {c0 c4 : Word} {s : State} (hshape : f.shape ≠ .legacy)
    (h0 : ∀ n, n ≠ 2 → c0.getLsbD n = s.cr0.getLsbD n) (h4 : ∀ n, n ≠ 9 → c4.getLsbD n = s.cr4.getLsbD n) :
    Unread f (withCr0Cr4 c0 c4) s := by
  have hpe : (withCr0Cr4 c0 c4 s).pe = s.pe := h0 0 (by decide)
  have hts : (withCr0Cr4 c0 c4 s).ts = s.ts := h0 3 (by decide)
  have ham : (withCr0Cr4 c0 c4 s).am = s.am := h0 18 (by decide)
  have hpg : (withCr0Cr4 c0 c4 s).pg = s.pg := h0 31 (by decide)
  have hxsave : (withCr0Cr4 c0 c4 s).osxsave = s.osxsave := h4 18 (by decide)
  have hmode : (withCr0Cr4 c0 c4 s).mode? = s.mode? := by
    simp only [State.mode?, hpe, hpg]
    rfl
  have henabled : f.enabled (withCr0Cr4 c0 c4 s) = f.enabled s := by
    unfold Form.enabled
    cases hs : f.shape with
    | legacy => exact absurd hs hshape
    | vex => simp only [hxsave]; rfl
    | evex => simp only [hxsave]; rfl
  exact {
    launchMode := launchMode_congr hmode rfl rfl
    enabled := henabled
    ts := hts
    alignmentChecked := by simp only [State.alignmentChecked, ham]; rfl
    vaBits := rfl
    pc := rfl
    v := rfl
    mask := rfl
    mem := rfl
    draws := rfl
    inProgram := rfl
    segBase := rfl
    effAddr := fun m _ => by funext mf; cases mf <;> rfl
    translateByte := fun m _ => by
      funext kd la
      simp only [translateByte, XlateRule.applies, hpg]
      rfl
    writeV := fun _ _ _ => rfl
    setMem := fun _ _ => rfl
    advance := fun _ _ => rfl }

/-- Settles O50: by `unread_withCr0Cr4`. -/
theorem vexAndEvexIgnoreEmAndOsfxsr : Obligations.VexAndEvexIgnoreEmAndOsfxsr :=
  fun _ _ _ _ hshape h0 h4 => (unread_withCr0Cr4 hshape h0 h4).exec_mapNext

/-! ## CPL (R225) -/

/-- The state with another privilege level. -/
def withCpl (c : BitVec 2) (s : State) : State := { s with cpl := c }

/-- With alignment checking off, and every rule of Translate alike at both levels. -/
theorem unread_withCpl (f : Form) {c : BitVec 2} {s : State} (hac : s.am = false ∨ s.ac = false)
    (hrules : ∀ r ∈ s.translation, r.cpls.contains c = r.cpls.contains s.cpl) : Unread f (withCpl c) s where
  launchMode := rfl
  enabled := rfl
  ts := rfl
  alignmentChecked := by
    have hoff (t : State) (ham : t.am = s.am) (hac' : t.ac = s.ac) : t.alignmentChecked = false := by
      rw [State.alignmentChecked, ham, hac']
      rcases hac with h | h <;> simp [h]
    rw [hoff (withCpl c s) rfl rfl, hoff s rfl rfl]
  vaBits := rfl
  pc := rfl
  v := rfl
  mask := rfl
  mem := rfl
  draws := rfl
  inProgram := rfl
  segBase := rfl
  effAddr m _ := by funext mf; cases mf <;> rfl
  translateByte m _ := by
    funext kd la
    have hfind : s.translation.find? (fun r => r.covers la kd c && r.applies m (withCpl c s))
        = s.translation.find? (fun r => r.covers la kd s.cpl && r.applies m s) :=
      List.find?_congr fun r hr => by
        simp only [XlateRule.covers, hrules r hr]
        rfl
    have htr : (withCpl c s).translation = s.translation := rfl
    have hcpl : (withCpl c s).cpl = c := rfl
    simp only [translateByte, htr, hcpl, hfind]
  writeV _ _ _ := rfl
  setMem _ _ := rfl
  advance _ _ := rfl

/-- Settles O51: by `unread_withCpl`. -/
theorem privilegeMattersOnlyToAcAndTranslate : Obligations.PrivilegeMattersOnlyToAcAndTranslate :=
  fun i _ _ hac hrules => (unread_withCpl (formOf i) hac hrules).exec_mapNext

/-! ## The upper halves of the general registers in M32 (R24, R95) -/

/-- The state with another general register file. -/
def withX (x : Vector Word 16) (s : State) : State := { s with x := x }

/-- In M32 an effective address is made of the low halves. -/
theorem effAddr_withX (f : Form) {x : Vector Word 16} {s : State}
    (h : ∀ n : Fin 16, (x[n]).setWidth 32 = (s.x[n]).setWidth 32) (mf : MemForm) :
    f.effAddr .m32 (withX x s) 32 mf = f.effAddr .m32 s 32 mf := by
  have hread (n : GNum) : ((withX x s).readX n).setWidth 32 = (s.readX n).setWidth 32 := h ⟨n.toNat, n.isLt⟩
  have hindex (scale : BitVec 2) (index : BitVec 3) :
      f.indexValue (withX x s) 32 scale index = f.indexValue s 32 scale index := by
    simp only [Form.indexValue, hread]
  cases mf with
  | base rm d => simp only [Form.effAddr, hread]
  | sib scale index base d => simp only [Form.effAddr, hread, hindex]
  | sibNoBase scale index d => simp only [Form.effAddr, hindex]
  | dispOnly d => rfl

theorem unread_withX (f : Form) {x : Vector Word 16} {s : State} (hm : launchMode s = .ok .m32)
    (h : ∀ n : Fin 16, (x[n]).setWidth 32 = (s.x[n]).setWidth 32) : Unread f (withX x) s where
  launchMode := rfl
  enabled := rfl
  ts := rfl
  alignmentChecked := rfl
  vaBits := rfl
  pc := rfl
  v := rfl
  mask := rfl
  mem := rfl
  draws := rfl
  inProgram := rfl
  segBase := rfl
  effAddr m hm' := by
    obtain rfl : m = .m32 := Except.ok.inj (hm'.symm.trans hm)
    funext mf
    exact effAddr_withX f h mf
  translateByte _ _ := rfl
  writeV _ _ _ := rfl
  setMem _ _ := rfl
  advance _ _ := rfl

/-- Settles O52: by `unread_withX`. -/
theorem m32IgnoresUpperHalves : Obligations.M32IgnoresUpperHalves :=
  fun i _ _ hm h => (unread_withX (formOf i) hm h).exec_mapNext

/-! ## The opmask bits at KL and above (R23, R171)

`Unread` asks that the mask be the same, which it need not be here; what is the same is which elements below `KL` are
active. -/

/-- The state with another opmask register file. -/
def withK (k : Vector KMask 8) (s : State) : State := { s with k := k }

theorem readElems_mask_congr {m : Mode} {s : State} {la : Nat} {mask mask' : Option KMask} {js : List Nat}
    (h : ∀ j ∈ js, active mask j = active mask' j) : readElems m s la mask js = readElems m s la mask' js := by
  induction js with
  | nil => rfl
  | cons j js ih => simp only [readElems, h j List.mem_cons_self, ih fun i hi => h i (List.mem_cons_of_mem j hi)]

theorem storeCells_mask_congr {m : Mode} {s : State} {la : Nat} {mask mask' : Option KMask} {js : List Nat}
    {src : Vec} (h : ∀ j ∈ js, active mask j = active mask' j) :
    storeCells m s la mask js src = storeCells m s la mask' js src := by
  have haddrs : storeAddrs la mask js = storeAddrs la mask' js := by
    induction js with
    | nil => rfl
    | cons j js ih => simp only [storeAddrs, h j List.mem_cons_self, ih fun i hi => h i (List.mem_cons_of_mem j hi)]
  have hbytes : storeBytes src mask js = storeBytes src mask' js := by
    clear haddrs
    induction js with
    | nil => rfl
    | cons j js ih => simp only [storeBytes, h j List.mem_cons_self, ih fun i hi => h i (List.mem_cons_of_mem j hi)]
  rw [storeCells, storeCells, haddrs, hbytes]

section
variable {f : Form} {k : Vector KMask 8} {s : State}

/-- The same elements of the operand are active with the other opmask registers. -/
theorem active_withK (h : ∀ (n : Fin 8) (j : Nat), j < f.vl.elems → (k[n]).getLsbD j = (s.k[n]).getLsbD j) {j : Nat}
    (hj : j < f.vl.elems) : active (f.mask (withK k s)) j = active (f.mask s) j := by
  unfold Form.mask
  split_ifs
  · rfl
  · exact h ⟨f.aaa.toNat, f.aaa.isLt⟩ j hj

variable (hact : ∀ j < f.vl.elems, active (f.mask (withK k s)) j = active (f.mask s) j)

theorem memAddress_withK (m : Mode) (mf : MemForm) : memAddress f m (withK k s) mf = memAddress f m s mf := by
  cases mf <;> rfl

include hact in
theorem result_withK (old src : Vec) : f.result (withK k s) old src = f.result s old src := by
  unfold Form.result
  split
  · rfl
  · rfl
  · ext j hj
    rw [getElem_regResult, getElem_regResult]
    by_cases hlt : j < f.vl.elems
    · rw [if_pos hlt, if_pos hlt, hact j hlt]
    · rw [if_neg hlt, if_neg hlt]

theorem finish_writeV_withK (m : Mode) (n : VNum) (a : Vec) :
    finish m f ((withK k s).writeV n a) = (finish m f (s.writeV n a)).map (withK k) := by
  have hpc : nextPc m (withK k s) f.len = nextPc m s f.len := rfl
  rw [finish, finish, nextPc_writeV, nextPc_writeV, hpc]
  cases nextPc m s f.len <;> rfl

theorem finish_setMem_withK (m : Mode) (mem : Memory) :
    finish m f ((withK k s).setMem mem) = (finish m f (s.setMem mem)).map (withK k) := by
  have hpc : nextPc m (withK k s) f.len = nextPc m s f.len := rfl
  rw [finish, finish, nextPc_setMem, nextPc_setMem, hpc]
  cases nextPc m s f.len <;> rfl

include hact in
theorem loadOrCopy_withK : loadOrCopy f (withK k s) = (loadOrCopy f s).map (withK k) := by
  have hfront : frontChecks f false (withK k s) = frontChecks f false s := rfl
  have hreadV (n : VNum) : (withK k s).readV n = s.readV n := rfl
  have hel : ∀ j ∈ f.elems, active (f.mask (withK k s)) j = active (f.mask s) j :=
    fun j hj => hact j (List.mem_range.1 hj)
  simp only [loadOrCopy, hfront, hreadV, result_withK hact]
  cases frontChecks f false s with
  | error e => rfl
  | ok m =>
    simp only [ok_bind]
    cases f.rm with
    | reg rm => exact finish_writeV_withK m _ _
    | mem mf =>
      simp only [memAddress_withK]
      cases memAddress f m s mf with
      | error e => rfl
      | ok la =>
        have hes : readElems m (withK k s) la (f.mask (withK k s)) f.elems = readElems m s la (f.mask s) f.elems :=
          (readElems_congr (s := s) (s' := withK k s) rfl rfl la _ _).trans (readElems_mask_congr hel)
        simp only [ok_bind, hes]
        cases readElems m s la (f.mask s) f.elems with
        | error e => rfl
        | ok es => exact finish_writeV_withK m _ _

include hact in
theorem storeOrCopy_withK : storeOrCopy f (withK k s) = (storeOrCopy f s).map (withK k) := by
  have hfront : frontChecks f true (withK k s) = frontChecks f true s := rfl
  have hreadV (n : VNum) : (withK k s).readV n = s.readV n := rfl
  have hel : ∀ j ∈ f.elems, active (f.mask (withK k s)) j = active (f.mask s) j :=
    fun j hj => hact j (List.mem_range.1 hj)
  have hmem : (withK k s).mem = s.mem := rfl
  simp only [storeOrCopy, hfront, hreadV, hmem, result_withK hact]
  cases frontChecks f true s with
  | error e => rfl
  | ok m =>
    simp only [ok_bind]
    cases f.rm with
    | reg rm => exact finish_writeV_withK m _ _
    | mem mf =>
      simp only [memAddress_withK]
      cases memAddress f m s mf with
      | error e => rfl
      | ok la =>
        have hcells : storeCells m (withK k s) la (f.mask (withK k s)) f.elems (s.readV f.regNum)
            = storeCells m s la (f.mask s) f.elems (s.readV f.regNum) :=
          (storeCells_congr (s := s) (s' := withK k s) rfl rfl rfl la _ _ _).trans
            (storeCells_mask_congr hel)
        simp only [ok_bind, hcells]
        cases storeCells m s la (f.mask s) f.elems (s.readV f.regNum) with
        | error e => rfl
        | ok cells => exact finish_setMem_withK m _

end

theorem reservedLength_withK (f : Form) (k : Vector KMask 8) (s : State) :
    reservedLength f (withK k s) = (reservedLength f s).map (withK k) := by
  have hlaunch : launchMode (withK k s) = launchMode s := rfl
  rw [reservedLength, reservedLength, hlaunch]
  cases launchMode s with
  | error e => rfl
  | ok m =>
    simp only [ok_bind]
    split_ifs <;> rfl

/-- Settles O49: every use of the mask asks which elements below `KL` are active. -/
theorem maskBitsAboveKlAreIgnored : Obligations.MaskBitsAboveKlAreIgnored := by
  intro i s k h
  have hact (j : Nat) (hj : j < (formOf i).vl.elems) := active_withK h hj
  have hrun : runForm i (withK k s) = (runForm i s).map (withK k) := by
    unfold runForm
    cases directionOf i with
    | load => exact loadOrCopy_withK hact
    | store => exact storeOrCopy_withK hact
    | neither => exact reservedLength_withK _ k s
  have hexec : exec i (withK k s) = mapNext (withK k) (exec i s) := by
    rw [exec_eq, exec_eq, hrun, outcome_map]
  exact hexec

end Sys2Proof.Proofs
end

section
/-! PROOFS for 20_memory.md and 30_encoding.md: the address of a memory operand (R59, R60, R94 to R100). -/

namespace Sys2Proof.Proofs

open Sys2Proof.Machine Sys2Proof.Safety

/-! ## The segment (R60, R83, R100) -/

theorem isSegment_of_overrides {m : Mode} {p : LegacyPrefix} (h : overrides m p = true) : p.isSegment = true := by
  cases m with
  | m64 =>
    simp only [overrides, Bool.or_eq_true, beq_iff_eq] at h
    rcases h with rfl | rfl <;> rfl
  | m32 => exact h

section
variable {f : Form} {m : Mode} {mf : MemForm}

/-- The one segment override of a form, where it counts in the mode, is the operand's segment. -/
theorem segment_of_override (hok : prefixesOk f.ps = true) {p : LegacyPrefix} (hp : p ∈ f.ps)
    (hov : overrides m p = true) : f.segment m mf = p := by
  cases hfind : f.ps.find? (overrides m) with
  | none => exact absurd hov (List.find?_eq_none.1 hfind p hp)
  | some q =>
    have hq := isSegment_of_overrides (List.find?_some hfind)
    rw [Form.segment, hfind, Option.getD_some]
    exact prefixGroup_inj hok (List.mem_of_find?_eq_some hfind) hp
      ((prefixGroup_of_isSegment hq).trans (prefixGroup_of_isSegment (isSegment_of_overrides hov)).symm)

theorem segment_of_no_override (h : ∀ p ∈ f.ps, overrides m p = false) : f.segment m mf = f.defaultSegment mf := by
  have hfind : f.ps.find? (overrides m) = none := List.find?_eq_none.2 fun p hp => by simp [h p hp]
  rw [Form.segment, hfind, Option.getD_none]

theorem overrides_iff (m : Mode) (p : LegacyPrefix) :
    overrides m p = true ↔ p.isSegment = true ∧ (m = .m64 → p = .fs ∨ p = .gs) := by
  cases m <;> cases p <;> decide

theorem baseNum_eq (f : Form) (base : BitVec 3) : BitVec.ofNat 4 (8 * f.b.toNat + base.toNat) = f.baseNum base := by
  unfold Form.baseNum
  generalize f.b = b
  revert b base
  decide

theorem defaultSegment_eq (f : Form) (mf : MemForm) :
    f.defaultSegment mf = if baseReg f mf = some 4#4 ∨ baseReg f mf = some 5#4 then .ss else .ds := by
  cases mf with
  | base rm d => simp only [Form.defaultSegment, baseReg, baseNum_eq, Option.some.injEq]
  | sib scale index base d => simp only [Form.defaultSegment, baseReg, baseNum_eq, Option.some.injEq]
  | sibNoBase scale index d => simp [Form.defaultSegment, baseReg]
  | dispOnly d => simp [Form.defaultSegment, baseReg]

theorem defaultSegment_ne (f : Form) (mf : MemForm) : f.defaultSegment mf ≠ .fs ∧ f.defaultSegment mf ≠ .gs := by
  rw [defaultSegment_eq]
  split_ifs <;> decide

/-- Without 64 and 65 the segment is not FS or GS. -/
theorem segment_ne (hfs : .fs ∉ f.ps) (hgs : .gs ∉ f.ps) : f.segment m mf ≠ .fs ∧ f.segment m mf ≠ .gs := by
  unfold Form.segment
  cases hfind : f.ps.find? (overrides m) with
  | none => exact defaultSegment_ne f mf
  | some q =>
    have hq := List.mem_of_find?_eq_some hfind
    exact ⟨fun hc => hfs (hc ▸ hq), fun hc => hgs (hc ▸ hq)⟩

end

/-- Settles O58: the one override of R83 that counts in the mode, else the default of R100. -/
theorem segmentSelection : Obligations.SegmentSelection := by
  refine fun f m mf hok => ⟨fun p hp hseg h64 => ?_, fun hnone => ?_⟩
  · exact segment_of_override hok hp ((overrides_iff m p).2 ⟨hseg, h64⟩)
  · rw [← defaultSegment_eq]
    refine segment_of_no_override fun p hp => ?_
    rw [Bool.eq_false_iff, Ne, overrides_iff]
    rintro ⟨hseg, h64⟩
    obtain ⟨hm, hfs, hgs⟩ := hnone p hp hseg
    rcases h64 hm with h | h
    · exact hfs h
    · exact hgs h

/-! ## The linear address (R59, R60) -/

theorem addrSize_le (f : Form) (m : Mode) : f.addrSize m ≤ addrBits m := by
  cases m with
  | m64 =>
    simp only [Form.addrSize, addrBits]
    split_ifs <;> omega
  | m32 => exact Nat.le_refl 32

/-- Settles O57: the segment's base is added, modulo the size of a linear address. -/
theorem linearAddressAddsTheSegmentBase : Obligations.LinearAddressAddsTheSegmentBase := by
  rintro f m s mf ea hok rfl
  have hov (p : LegacyPrefix) (hseg : p.isSegment = true) (hp : p = .fs ∨ p = .gs) : overrides m p = true :=
    (overrides_iff m p).2 ⟨hseg, fun _ => hp⟩
  refine ⟨fun hfs => ?_, fun hgs => ?_, fun hfs hgs => ?_⟩
  · rw [Form.linearAddr, segment_of_override hok hfs (hov .fs rfl (.inl rfl))]
    rfl
  · rw [Form.linearAddr, segment_of_override hok hgs (hov .gs rfl (.inr rfl))]
    rfl
  · obtain ⟨hnfs, hngs⟩ := segment_ne (m := m) (mf := mf) hfs hgs
    rw [Form.linearAddr, State.segBase, if_neg hnfs, if_neg hngs, Nat.zero_add]
    exact Nat.mod_eq_of_lt (lt_of_lt_of_le (BitVec.isLt _) (Nat.pow_le_pow_right (by decide) (addrSize_le f m)))

/-! ## The canonical form (R59) -/

/-- A value is all zeros or all ones when its bits are all equal to its top one. -/
theorem eq_zero_or_allOnes_iff {w : Nat} (q : BitVec w) (b : Bool) (hb : ∃ i < w, q.getLsbD i = b) :
    (q = 0#w ∨ q = BitVec.allOnes w) ↔ ∀ i < w, q.getLsbD i = b := by
  constructor
  · rintro (rfl | rfl) i hi
    · obtain ⟨i', hi', rfl⟩ := hb
      simp
    · obtain ⟨i', hi', rfl⟩ := hb
      simp [hi, hi']
  · intro h
    cases b with
    | false => exact .inl (BitVec.eq_of_getLsbD_eq fun i hi => by simp [h i hi])
    | true => exact .inr (BitVec.eq_of_getLsbD_eq fun i hi => by simp [h i hi, hi])

/-- Settles O59: the bits from `VA_BITS - 1` on, as a number, are 0 or all ones. -/
theorem canonicalMeansSignExtended : Obligations.CanonicalMeansSignExtended := by
  intro va la
  have hbits (c w : Nat) (hw : c + w = 64) (hpos : 0 < w) :
      (la.toNat / 2 ^ c = 0 ∨ la.toNat / 2 ^ c = 2 ^ w - 1) ↔
        ∀ i, c ≤ i → i < 64 → la.getLsbD i = la.getLsbD 63 := by
    have hq : (la.extractLsb' c w).toNat = la.toNat / 2 ^ c := by
      rw [BitVec.extractLsb'_toNat, Nat.shiftRight_eq_div_pow, Nat.mod_eq_of_lt]
      rw [Nat.div_lt_iff_lt_mul (Nat.two_pow_pos c), ← Nat.pow_add, Nat.add_comm, hw]
      exact la.isLt
    have htop : ∃ i < w, (la.extractLsb' c w).getLsbD i = la.getLsbD 63 :=
      ⟨w - 1, by omega, by simp [hpos, show c + (w - 1) = 63 by omega]⟩
    rw [← hq, show (2 ^ w - 1 : Nat) = (BitVec.allOnes w).toNat from BitVec.toNat_allOnes.symm,
      show (0 : Nat) = (0#w).toNat from (BitVec.toNat_zero).symm, ← BitVec.toNat_eq, ← BitVec.toNat_eq,
      eq_zero_or_allOnes_iff _ _ htop]
    constructor
    · intro h i hi hi'
      have := h (i - c) (by omega)
      simpa [show i - c < w by omega, show c + (i - c) = i by omega] using this
    · intro h i hi
      simpa [hi] using h (c + i) (by omega) (by omega)
  rw [canonical, Bool.or_eq_true, beq_iff_eq, beq_iff_eq]
  cases va with
  | va48 => exact hbits 47 17 (by decide) (by decide)
  | va57 => exact hbits 56 8 (by decide) (by decide)

/-! ## The effective address (R94 to R99) -/

section
variable (f : Form) (s : State)

theorem setWidth_eq_ofInt {w : Nat} (x : BitVec w) (A : Nat) : x.setWidth A = BitVec.ofInt A x.toNat := by
  apply BitVec.eq_of_toNat_eq
  simp

theorem ofInt_zero (A : Nat) : BitVec.ofInt A 0 = 0#A := BitVec.ofInt_natCast A 0

/-- Reducing the sum of a wider address space. -/
theorem setWidth_ofInt {A B : Nat} (h : A ≤ B) (i : Int) : (BitVec.ofInt B i).setWidth A = BitVec.ofInt A i := by
  have hdvd : ((2 ^ A : Nat) : Int) ∣ (2 ^ B : Nat) := Int.natCast_dvd_natCast.2 (Nat.pow_dvd_pow 2 h)
  have hpos : ((2 ^ B : Nat) : Int) ≠ 0 := Int.natCast_ne_zero.2 (Nat.two_pow_pos B).ne'
  apply BitVec.eq_of_toNat_eq
  rw [BitVec.toNat_setWidth, BitVec.toNat_ofInt, BitVec.toNat_ofInt, ← Int.emod_emod_of_dvd i hdvd,
    Int.toNat_emod (Int.emod_nonneg i hpos) (Int.natCast_nonneg _), Int.toNat_natCast]

theorem indexNum_eq (index : BitVec 3) :
    BitVec.ofNat 4 (8 * f.x.toNat + index.toNat) = f.indexNum index ∧
      (8 * f.x.toNat + index.toNat = 4 ↔ f.indexNum index = 4#4) := by
  unfold Form.indexNum
  generalize f.x = x
  revert x index
  decide

theorem indexValue_eq (A : Nat) (scale : BitVec 2) (index : BitVec 3) (d : BitVec 32) :
    f.indexValue s A scale index = BitVec.ofInt A (indexPart f s (.sibNoBase scale index d)) := by
  obtain ⟨hnum, hnone⟩ := indexNum_eq f index
  simp only [Form.indexValue, indexPart, hnum, hnone]
  split_ifs
  · rfl
  · rw [setWidth_eq_ofInt, BitVec.ofInt_mul, ← BitVec.ofInt_natCast, Nat.cast_pow, Nat.cast_ofNat]

theorem dispValue_eq (A : Nat) (d : Disp) (rm : BitVec 3) :
    f.dispValue A d = BitVec.ofInt A (dispPart f (.base rm d)) := by
  cases d with
  | none => rfl
  | d8 d =>
    have hscale : (if f.shape = .evex then f.vl.bytes else 1) = f.disp8Scale := by
      unfold Form.disp8Scale
      cases f.shape <;> simp
    rw [dispPart, hscale, BitVec.ofInt_mul, BitVec.ofInt_natCast]
    rfl
  | d32 d => rfl

/-- Each part of the sum is its integer modulo `2^A`. -/
theorem effAddr_eq (m : Mode) (A : Nat) (hA : A ≤ 64) (mf : MemForm) :
    f.effAddr m s A mf = BitVec.ofInt A (basePart f m s mf + indexPart f s mf + dispPart f mf) := by
  rw [BitVec.ofInt_add, BitVec.ofInt_add]
  cases mf with
  | base rm d =>
    have hbase : basePart f m s (.base rm d) = (s.readX (f.baseNum rm)).toNat := by
      simp [basePart, baseReg, baseNum_eq]
    rw [Form.effAddr, hbase, setWidth_eq_ofInt, dispValue_eq f A d rm, indexPart, ofInt_zero, BitVec.add_zero]
  | sib scale index base d =>
    have hbase : basePart f m s (.sib scale index base d) = (s.readX (f.baseNum base)).toNat := by
      simp [basePart, baseReg, baseNum_eq]
    rw [Form.effAddr, hbase, setWidth_eq_ofInt, dispValue_eq f A d base, indexValue_eq f s A scale index 0#32]
    rfl
  | sibNoBase scale index d =>
    have hbase : basePart f m s (.sibNoBase scale index d) = 0 := by simp [basePart, baseReg]
    rw [Form.effAddr, hbase, indexValue_eq f s A scale index d, ofInt_zero, BitVec.zero_add]
    rfl
  | dispOnly d =>
    cases m with
    | m64 =>
      have hpc : s.pc = BitVec.ofInt 64 s.pc.toNat := by rw [← setWidth_eq_ofInt, BitVec.setWidth_eq]
      have hsum : s.pc + BitVec.ofNat 64 f.len + d.signExtend 64
          = BitVec.ofInt 64 (s.pc.toNat + f.len + d.toInt) := by
        rw [BitVec.ofInt_add, BitVec.ofInt_add, ← hpc, BitVec.ofInt_natCast]
        rfl
      rw [Form.effAddr, hsum, setWidth_ofInt hA, BitVec.ofInt_add, basePart, if_pos rfl, indexPart, ofInt_zero,
        BitVec.add_zero]
      rfl
    | m32 =>
      rw [basePart, if_neg (by decide), indexPart, ofInt_zero, BitVec.zero_add, BitVec.zero_add]
      rfl

end

/-- Settles O56: each part of the address is its integer modulo `2^A`. -/
theorem effectiveAddressIsModularSum : Obligations.EffectiveAddressIsModularSum := by
  intro f m s mf
  have hA : f.addrSize m ≤ 64 := (addrSize_le f m).trans (by cases m <;> decide)
  rw [effAddr_eq f s m _ hA, BitVec.toNat_ofInt]
  have hpos : (0 : Int) < (2 ^ f.addrSize m : Nat) := by exact_mod_cast Nat.two_pow_pos _
  rw [Int.toNat_of_nonneg (Int.emod_nonneg _ hpos.ne')]
  norm_cast

end Sys2Proof.Proofs
end

section
/-! PROOFS for 30_encoding.md and 70_reset_and_hazards.md: two encodings of one operation (R86, R104), a copy of a
register to itself (R108), and a load of what was stored (R63, R263). -/

namespace Sys2Proof.Proofs

open Sys2Proof.Machine Sys2Proof.Safety

/-! ## Opcode 10 and opcode 11 (R104) -/

/-- The form of the register copy `a`, `b` with its two fields, and their extension bits, exchanged. `X` extends a
register number in the EVEX shape only. -/
def exchanged (f : Form) (a b : BitVec 3) : Form :=
  { f with
    r := f.b
    b := f.r
    x := if f.shape = .evex then f.rHi else f.x
    rHi := if f.shape = .evex then f.x else f.rHi
    reg := b
    rm := .reg a }

section
variable {f : Form} {a b : BitVec 3}

theorem exchanged_decodeChecks (hrm : f.rm = .reg b) (m : Mode) :
    decodeChecks (exchanged f a b) true m = decodeChecks f false m := by
  have hud : (exchanged f a b).decodeUd true = f.decodeUd false := by
    simp [Form.decodeUd, exchanged, hrm, RegMem.isMem]
  have hext : ((exchanged f a b).r || (exchanged f a b).x || (exchanged f a b).b || (exchanged f a b).rHi)
      = (f.r || f.x || f.b || f.rHi) := by
    simp only [exchanged]
    split_ifs
    · ac_rfl
    · ac_rfl
  have hmem : (exchanged f a b).rm.isMem = f.rm.isMem := by rw [hrm]; rfl
  rw [decodeChecks, hud, hext, hmem]
  rfl

theorem exchanged_regNum (hnoevex : f.shape ≠ .evex → f.rHi = false) : (exchanged f a b).regNum = f.rmNum b := by
  unfold Form.regNum Form.rmNum exchanged
  by_cases h : f.shape = .evex
  · simp [h]
  · simp [h, hnoevex h, beq_eq_false_iff_ne.2 h]

theorem exchanged_rmNum (hreg : f.reg = a) (hnoevex : f.shape ≠ .evex → f.rHi = false) :
    (exchanged f a b).rmNum a = f.regNum := by
  unfold Form.regNum Form.rmNum exchanged
  by_cases h : f.shape = .evex
  · simp [h, hreg]
  · simp [h, hreg, hnoevex h, beq_eq_false_iff_ne.2 h]

/-- Both opcodes do the same with the fields exchanged. -/
theorem storeOrCopy_exchanged (hreg : f.reg = a) (hrm : f.rm = .reg b) (hnoevex : f.shape ≠ .evex → f.rHi = false)
    (s : State) : storeOrCopy (exchanged f a b) s = loadOrCopy f s := by
  have hfront : frontChecks (exchanged f a b) true s = frontChecks f false s := by
    simp only [frontChecks, exchanged_decodeChecks hrm]
    rfl
  have hrm' : (exchanged f a b).rm = .reg a := rfl
  simp only [storeOrCopy, loadOrCopy, hfront, hrm, hrm', exchanged_regNum hnoevex, exchanged_rmNum hreg hnoevex]
  rfl

/-- Two instructions whose forms are exchanged, one of each opcode. -/
theorem exec_exchanged {i i' : Instr} (hd : directionOf i = .load) (hd' : directionOf i' = .store)
    (hreg : (formOf i).reg = a) (hrm : (formOf i).rm = .reg b) (hform : formOf i' = exchanged (formOf i) a b)
    (s : State) : exec i s = exec i' s := by
  rw [exec_load hd, exec_store hd', hform, storeOrCopy_exchanged hreg hrm fun h => (formOf_not_evex i h).1]

end

/-- Settles O53: by `exec_exchanged`; the rows of the reserved length look at neither field. -/
theorem registerCopyHasTwoEncodings : Obligations.RegisterCopyHasTwoEncodings := by
  refine fun s ps rex a b => ⟨?_, fun l w => ?_, fun l v => ?_, fun ll e => ?_⟩
  · cases rex <;> exact exec_exchanged rfl rfl rfl rfl rfl s
  · cases l <;> exact exec_exchanged rfl rfl rfl rfl rfl s
  · cases l <;> exact exec_exchanged rfl rfl rfl rfl rfl s
  · rcases evexLength_cases ll with rfl | rfl | rfl | rfl
    · exact exec_exchanged (i := .vmovupsXmmLoadEvex ps rex e a (.reg b)) rfl rfl rfl rfl rfl s
    · exact exec_exchanged (i := .vmovupsYmmLoadEvex ps rex e a (.reg b)) rfl rfl rfl rfl rfl s
    · exact exec_exchanged (i := .vmovupsZmmLoadEvex ps rex e a (.reg b)) rfl rfl rfl rfl rfl s
    · rfl

/-! ## The two VEX spellings (R86) -/

/-- The form with another length. -/
def withLen (n : Nat) (f : Form) : Form := { f with len := n }

section
variable {f : Form} {s t u : State} {n : Nat}

/-- The length has a part in the address of an operand relative to the next instruction only. -/
theorem memAddress_withLen {m : Mode} {mf : MemForm} (h : ∀ d, mf = .dispOnly d → m = .m32) :
    memAddress (withLen n f) m s mf = memAddress f m s mf := by
  have heff (A : Nat) : (withLen n f).effAddr m s A mf = f.effAddr m s A mf := by
    cases mf with
    | base rm d => rfl
    | sib scale index base d => rfl
    | sibNoBase scale index d => rfl
    | dispOnly d =>
      obtain rfl := h d rfl
      rfl
  have hseg : (withLen n f).segment m mf = f.segment m mf := by
    have hdefault : (withLen n f).defaultSegment mf = f.defaultSegment mf := by cases mf <;> rfl
    rw [Form.segment, hdefault]
    rfl
  have hsize : (withLen n f).addrSize m = f.addrSize m := by cases m <;> rfl
  have hla : (withLen n f).linearAddr m s mf = f.linearAddr m s mf := by
    rw [Form.linearAddr, hseg, hsize, heff, Form.linearAddr]
  simp only [memAddress, Form.wraps, Form.misaligned, Form.nonCanonical, hsize, heff, hla, hseg]
  rfl

variable (h : ∀ d, f.rm = .mem (.dispOnly d) → launchMode s = .ok .m32)
include h

theorem loadOrCopy_withLen (ht : loadOrCopy f s = .ok t) (hu : loadOrCopy (withLen n f) s = .ok u) :
    u = { t with pc := u.pc } := by
  obtain ⟨m, pc, src, hf, -, rfl, hsrc⟩ := loadOrCopy_ok _ _ _ ht
  obtain ⟨m', pc', src', hf', -, rfl, hsrc'⟩ := loadOrCopy_ok _ _ _ hu
  obtain ⟨hm, -⟩ := (frontChecks_ok _ _ _ _).1 hf
  obtain ⟨hm', -⟩ := (frontChecks_ok _ _ _ _).1 hf'
  obtain rfl : m = m' := Except.ok.inj (hm.symm.trans hm')
  have hsrceq : src' = src := by
    rcases hsrc with ⟨rm, hrm, rfl⟩ | ⟨mf, la, es, hrm, hla, hes, rfl⟩ <;>
      rcases hsrc' with ⟨rm', hrm', rfl⟩ | ⟨mf', la', es', hrm', hla', hes', rfl⟩
    · obtain rfl := RegMem.reg.inj (hrm.symm.trans hrm')
      rfl
    · cases hrm.symm.trans hrm'
    · cases hrm.symm.trans hrm'
    · obtain rfl := RegMem.mem.inj (hrm.symm.trans hrm')
      rw [memAddress_withLen fun d hd => Except.ok.inj (hm.symm.trans (h d (hd ▸ hrm))), hla] at hla'
      obtain rfl := Except.ok.inj hla'
      exact congrArg vecOfElems (Except.ok.inj (hes'.symm.trans hes))
  rw [hsrceq]
  rfl

theorem storeOrCopy_withLen (ht : storeOrCopy f s = .ok t) (hu : storeOrCopy (withLen n f) s = .ok u) :
    u = { t with pc := u.pc } := by
  obtain ⟨m, pc, hf, -, hcase⟩ := storeOrCopy_ok _ _ _ ht
  obtain ⟨m', pc', hf', -, hcase'⟩ := storeOrCopy_ok _ _ _ hu
  obtain ⟨hm, -⟩ := (frontChecks_ok _ _ _ _).1 hf
  obtain ⟨hm', -⟩ := (frontChecks_ok _ _ _ _).1 hf'
  obtain rfl : m = m' := Except.ok.inj (hm.symm.trans hm')
  rcases hcase with ⟨rm, hrm, rfl⟩ | ⟨mf, la, cells, hrm, hla, hcells, rfl⟩ <;>
    rcases hcase' with ⟨rm', hrm', rfl⟩ | ⟨mf', la', cells', hrm', hla', hcells', rfl⟩
  · obtain rfl := RegMem.reg.inj (hrm.symm.trans hrm')
    rfl
  · cases hrm.symm.trans hrm'
  · cases hrm.symm.trans hrm'
  · obtain rfl := RegMem.mem.inj (hrm.symm.trans hrm')
    rw [memAddress_withLen fun d hd => Except.ok.inj (hm.symm.trans (h d (hd ▸ hrm))), hla] at hla'
    obtain rfl := Except.ok.inj hla'
    obtain rfl := Except.ok.inj (hcells'.symm.trans hcells)
    rfl

end

theorem vexSpellings_form (l st w : Bool) (ps : List LegacyPrefix) (rex : Option Rex) (v : Vex2) (reg : BitVec 3)
    (rm : RegMem) :
    formOf (vex3Instr l st ps rex ⟨v.r, false, false, w, v.vvvv⟩ reg rm)
      = withLen (lenOf 4 ps rex rm) (formOf (vex2Instr l st ps rex v reg rm)) := by
  cases l <;> cases st <;> rfl

theorem vexInstr_direction (l st : Bool) (ps : List LegacyPrefix) (rex : Option Rex) (v : Vex2) (v' : Vex3)
    (reg : BitVec 3) (rm : RegMem) :
    directionOf (vex2Instr l st ps rex v reg rm) = (if st then .store else .load) ∧
      directionOf (vex3Instr l st ps rex v' reg rm) = (if st then .store else .load) := by
  cases l <;> cases st <;> exact ⟨rfl, rfl⟩

/-- Settles O54: the forms of the two spellings differ in their length alone. -/
theorem vexSpellingsAgree : Obligations.VexSpellingsAgree := by
  intro s t u l st w ps rex v reg rm hrip ht hu
  obtain ⟨hd, hd'⟩ := vexInstr_direction l st ps rex v ⟨v.r, false, false, w, v.vvvv⟩ reg rm
  have hrm : (formOf (vex2Instr l st ps rex v reg rm)).rm = rm := (vex2Instr_parts st ps rex reg rm l v).2.1
  rw [exec_next_iff, runForm, hd] at ht
  rw [exec_next_iff, runForm, hd', vexSpellings_form] at hu
  cases st with
  | false => exact loadOrCopy_withLen (by rwa [hrm]) ht hu
  | true => exact storeOrCopy_withLen (by rwa [hrm]) ht hu

/-! ## A copy of a register to itself (R108) -/

theorem mergeLow_self (a : Vec) : mergeLow a a = a := by
  ext j hj
  rw [getElem_mergeLow, ite_self]

theorem writeV_readV (s : State) (n : VNum) : s.writeV n (s.readV n) = s := by
  have hv : (s.writeV n (s.readV n)).v = s.v := State.v_ext _ _ fun r => by
    rw [State.readV_writeV]
    split_ifs with h
    · rw [h]
    · rfl
  exact congrArg (fun v => { s with v := v }) hv

theorem active_of_not_evex {i : Instr} (h : (formOf i).shape ≠ .evex) (s : State) (j : Nat) :
    active ((formOf i).mask s) j = true := by
  rw [Form.mask, if_pos (aaa_of_not_evex i h), active_none]

/-- What an instruction of either opcode with a register operand that is its own `reg` register does. -/
theorem exec_self {i : Instr} {s t : State} {rm : BitVec 3} (hrm : (formOf i).rm = .reg rm)
    (hself : (formOf i).regNum = (formOf i).rmNum rm) (h : exec i s = .next t) :
    ∃ pc, t = (s.writeV ((formOf i).rmNum rm) ((formOf i).result s (s.readV ((formOf i).rmNum rm))
      (s.readV ((formOf i).rmNum rm)))).advance pc := by
  rcases exec_next_pattern h with ⟨-, h⟩ | ⟨-, h⟩
  · obtain ⟨m, pc, src, -, -, rfl, ⟨rm', hrm', rfl⟩ | ⟨mf, la, es, hrm', -⟩⟩ := loadOrCopy_ok _ _ _ h
    · obtain rfl := RegMem.reg.inj (hrm.symm.trans hrm')
      exact ⟨pc, by rw [hself]⟩
    · cases hrm.symm.trans hrm'
  · obtain ⟨m, pc, -, -, ⟨rm', hrm', rfl⟩ | ⟨mf, la, cells, hrm', -⟩⟩ := storeOrCopy_ok _ _ _ h
    · obtain rfl := RegMem.reg.inj (hrm.symm.trans hrm')
      exact ⟨pc, by rw [hself]⟩
    · cases hrm.symm.trans hrm'

/-- A register copied to itself, element by element, in the VEX and EVEX shapes. -/
theorem result_self {i : Instr} (hshape : (formOf i).shape ≠ .legacy) (s : State) (a : Vec) (j : Fin 16) :
    ((formOf i).result s a a)[j] =
      if j.val < (formOf i).vl.elems ∧ (active ((formOf i).mask s) j.val = true ∨ (formOf i).z = false)
      then a[j] else 0#32 := by
  cases hs : (formOf i).shape with
  | legacy => exact absurd hs hshape
  | vex =>
    have hact := active_of_not_evex (i := i) (by simp [hs]) s j.val
    simp only [result_vex hs, Fin.getElem_fin, getElem_zeroAbove, hact, true_or, and_true]
  | evex =>
    rw [result_evex hs, Fin.getElem_fin, getElem_regResult]
    split_ifs <;> simp_all

/-- Settles O55: the result of the shape where source and destination are one. -/
theorem copyToItself : Obligations.CopyToItself := by
  intro i s t rm hrm hself h
  obtain ⟨pc, rfl⟩ := exec_self hrm hself h
  refine ⟨fun hshape => ?_, fun hshape j => ?_⟩
  · rw [Form.result, hshape]
    simp only [mergeLow_self, writeV_readV]
    rfl
  · rw [State.advance_readV, State.readV_writeV_same]
    exact result_self hshape s _ j

/-! ## A store, then a load of the same bytes (R63, R263) -/

/-- An element is its four bytes. -/
theorem elem_ext {e e' : Elem} (h : ∀ c < 4, e.extractLsb' (8 * c) 8 = e'.extractLsb' (8 * c) 8) : e = e' := by
  have hbytes : elemBytes e = elemBytes e' := by
    simp only [elemBytes]
    exact congrArg₂ _ (h 0 (by decide)) (congrArg₂ _ (h 1 (by decide)) (congrArg₂ _ (h 2 (by decide))
      (congrArg₂ _ (h 3 (by decide)) rfl)))
  rw [← elemOfBytes_elemBytes e, hbytes, elemOfBytes_elemBytes]

theorem legacy_vl (i : Instr) (h : (formOf i).shape = .legacy) : (formOf i).vl = .vl128 := by
  cases i <;> simp_all [formOf, legacyForm, vex2Form, vex3Form, evexForm]

/-- Without a writemask every shape takes the elements below `KL` from the source. -/
theorem result_unmasked {i : Instr} (haaa : (formOf i).aaa = 0#3) (s : State) (old src : Vec) (j : Fin 16)
    (hj : j.val < (formOf i).vl.elems) : ((formOf i).result s old src)[j] = src[j] := by
  cases hs : (formOf i).shape with
  | legacy =>
    have hvl : (formOf i).vl.elems = 4 := by rw [legacy_vl i hs, VL.elems]
    rw [Form.result, hs, Fin.getElem_fin, getElem_mergeLow, if_pos (by omega)]
    rfl
  | vex =>
    rw [result_vex hs, Fin.getElem_fin, getElem_zeroAbove, if_pos hj]
    rfl
  | evex =>
    rw [result_evex hs, Form.mask, if_pos haaa, Fin.getElem_fin, getElem_regResult, if_pos hj, active_none, if_pos rfl]
    rfl

section
variable {i : Instr} {m : Mode} {s t : State} {mf : MemForm}

/-- An unmasked load that completes leaves the operand's elements in its register. -/
theorem exec_load_unmasked (hd : directionOf i = .load) (hrm : (formOf i).rm = .mem mf) (haaa : (formOf i).aaa = 0#3)
    (hm : launchMode s = .ok m) (h : exec i s = .next t) (j : Fin 16) (hj : j.val < (formOf i).vl.elems) :
    FromMem m s ((formOf i).linearAddr m s mf) j (t.readV (formOf i).regNum)[j] := by
  rw [exec_next_iff, runForm, hd] at h
  obtain ⟨m', pc, src, hf, -, rfl, ⟨rm', hrm', -⟩ | ⟨mf', la, es, hrm', hla, hes, rfl⟩⟩ := loadOrCopy_ok _ _ _ h
  · cases hrm.symm.trans hrm'
  · obtain ⟨hm', -⟩ := (frontChecks_ok _ _ _ _).1 hf
    obtain rfl : m = m' := Except.ok.inj (hm.symm.trans hm')
    obtain rfl := RegMem.mem.inj (hrm.symm.trans hrm')
    obtain ⟨-, -, -, rfl⟩ := (memAddress_ok _ _ _ _ _).1 hla
    rw [State.advance_readV, State.readV_writeV_same, result_unmasked haaa s _ _ j hj]
    exact fromMem_of_readElems _ m s _ _ es hes j hj (by rw [Form.mask, if_pos haaa, active_none])

/-- An unmasked store that completes leaves, in the location of each byte, a byte of the operand that has it. -/
theorem exec_store_unmasked (hd : directionOf i = .store) (hrm : (formOf i).rm = .mem mf)
    (haaa : (formOf i).aaa = 0#3) (hm : launchMode s = .ok m) (h : exec i s = .next t) :
    (∀ kd, translateByte m t kd = translateByte m s kd) ∧
    ∀ j < (formOf i).vl.elems, ∀ c < 4, ∀ p,
      translateByte m s .write ((formOf i).linearAddr m s mf + 4 * j + c) = .ok p →
      ∃ j' : Fin 16, j'.val < (formOf i).vl.elems ∧ ∃ c' < 4,
        translateByte m s .write ((formOf i).linearAddr m s mf + 4 * j'.val + c') = .ok p ∧
          t.mem.byte p = ((s.readV (formOf i).regNum)[j']).extractLsb' (8 * c') 8 := by
  rw [exec_next_iff, runForm, hd] at h
  obtain ⟨m', pc, hf, -, ⟨rm', hrm', -⟩ | ⟨mf', la, cells, hrm', hla, hcells, rfl⟩⟩ := storeOrCopy_ok _ _ _ h
  · cases hrm.symm.trans hrm'
  · obtain ⟨hm', -⟩ := (frontChecks_ok _ _ _ _).1 hf
    obtain rfl : m = m' := Except.ok.inj (hm.symm.trans hm')
    obtain rfl := RegMem.mem.inj (hrm.symm.trans hrm')
    obtain ⟨-, -, -, rfl⟩ := (memAddress_ok _ _ _ _ _).1 hla
    refine ⟨fun _ => rfl, fun j hj c hc p hp => ?_⟩
    have hact : active ((formOf i).mask s) j = true := by rw [Form.mask, if_pos haaa, active_none]
    obtain ⟨j', hj', -, c', hc', hp', hbyte⟩ := byte_of_storeCells _ m s _ _ _ cells hcells p ⟨j, hj, hact, c, hc, hp⟩
    exact ⟨j', hj', c', hc', hp', hbyte⟩

end

/-- Settles O60: each byte that the load reads is at the location that the store wrote that byte to. -/
theorem storeThenLoadReadsTheStoredElements : Obligations.StoreThenLoadReadsTheStoredElements := by
  intro i i' m s t u mf mf' la hd hd' hrm hrm' hvl haaa haaa' hm hst hld hla hla' hsame hdistinct j hj
  obtain ⟨htr, hstored⟩ := exec_store_unmasked hd hrm haaa hm hst
  have hmt : launchMode t = .ok m := (exec_keeps hst).1.trans hm
  have hread := exec_load_unmasked hd' hrm' haaa' hmt hld j (by rwa [hvl])
  rw [← hla'] at hread
  rw [← hla] at hstored
  have hbytes : (formOf i).vl.bytes = 4 * (formOf i).vl.elems := rfl
  refine elem_ext fun c hc => ?_
  obtain ⟨p, hp, hbyte⟩ := hread c hc
  rw [htr, Nat.add_assoc, hsame (4 * j.val + c) (by omega), ← Nat.add_assoc] at hp
  obtain ⟨j', hj', c', hc', hp', hstore⟩ := hstored j.val hj c hc p hp
  have hplace : 4 * j'.val + c' = 4 * j.val + c :=
    hdistinct _ (by omega) _ (by omega) (by rw [← Nat.add_assoc, ← Nat.add_assoc, hp, hp'])
  obtain rfl : j' = j := Fin.ext (by omega)
  obtain rfl : c' = c := by omega
  rw [hbyte, hstore]

end Sys2Proof.Proofs
end
